-- ==== Sys2Proof/Word.lean ====
section
/-! DEFINITION. The value types of 00_scope.md rule R9: `Bit`, `Byte`, `U16`, `Addr`, the command word of
30_encoding.md rule R80 and the packed Search State of 10_state.md rule R32. -/

namespace Sys2Proof

/-- One bit (R9): `true` is 1. Line levels and draws are bits too (R10). -/
abbrev Bit := Bool

/-- Eight bits (R9). -/
abbrev Byte := BitVec 8

/-- Sixteen bits (R9). -/
abbrev U16 := BitVec 16

/-- A 64-bit ROM Address (R9, 10_state.md R30). -/
abbrev Addr := BitVec 64

/-- A command word `CW` (30_encoding.md R80). -/
abbrev CommandWord := BitVec 32

/-- A packed Search State (10_state.md R32). -/
abbrev PackedSearch := BitVec 72

/-- A register the host reads as 32 bits (10_state.md R24, R25). -/
abbrev Word32 := BitVec 32

end Sys2Proof
end

