-- ==== Sys2Proof/Syntax.lean ====
section
/-! DEFINITION. The 17 host commands of 30_encoding.md rule R84 as one inductive, and the form in which a host
presents a command: a command word with operand values beside it (10_state.md rule R22). -/

namespace Sys2Proof

/-- A decoded host command with the operands it takes, in the order of the table of 30_encoding.md R84.
`LEN` of the commands with `DATA_IN` is the length of their data (R82), so it is not stored twice. -/
inductive Instr where
  | writeBit (v : Bit)
  | readBit
  | writeByte (b : Byte)
  | readByte
  | writeBytes (data : List Byte)
  | readBytes (n : U16)
  | reset
  | select (rom : Addr)
  | skipRom
  | power
  | depower
  | resetSearch
  | targetSearch (fam : Byte)
  | search (ss : PackedSearch)
  | crc8 (data : List Byte)
  | crc16 (data : List Byte) (seed : U16)
  | checkCrc16 (data : List Byte) (seed : U16) (rx0 rx1 : Byte)
  deriving DecidableEq, Repr

/-- What the host presents (10_state.md R22): the command word, and each operand value present or absent. -/
structure Command where
  cw : CommandWord
  dataIn : Option (List Byte) := none
  romIn : Option Addr := none
  seed : Option U16 := none
  rx : Option (Byte × Byte) := none
  ssIn : Option PackedSearch := none
  deriving DecidableEq, Repr

end Sys2Proof
end

