-- ==== Sys2Proof/WellFormed.lean ====
section
/-! DEFINITION. Which command terms a host can encode: a data length that fits the 16-bit `LEN` field
(30_encoding.md rule R82) and a Search State whose discrepancy index is at most 64 (10_state.md rule R32). -/

namespace Sys2Proof

/-- `LEN` is a 16-bit count, 0 to 65535 (30_encoding.md R82). -/
def lengthFits (data : List Byte) : Bool :=
  decide (data.length ≤ 65535)

/-- `P[70:64] ≤ 64` (10_state.md R32). -/
def discrepancyFits (p : PackedSearch) : Bool :=
  decide ((p.extractLsb' 64 7).toNat ≤ 64)

/-- The command can be spelled by a host and decodes (30_encoding.md R82, R85; 10_state.md R32). -/
def Instr.wellFormed : Instr → Bool
  | .writeBit _ => true
  | .readBit => true
  | .writeByte _ => true
  | .readByte => true
  | .writeBytes data => lengthFits data
  | .readBytes _ => true
  | .reset => true
  | .select _ => true
  | .skipRom => true
  | .power => true
  | .depower => true
  | .resetSearch => true
  | .targetSearch _ => true
  | .search ss => discrepancyFits ss
  | .crc8 data => lengthFits data
  | .crc16 data _ => lengthFits data
  | .checkCrc16 data _ _ _ => lengthFits data

end Sys2Proof
end

