-- ==== Sys2Proof/Decode.lean ====
section
/-! DEFINITION. The command decoder of 30_encoding.md rules R80 to R87, total on every command word with any set of
operand values, its encoder, and the reading of one word of the opcode table. -/

namespace Sys2Proof

/-! ### Fields of the command word (30_encoding.md R80) -/

/-- `OP`, bits 7:0. -/
def opField (cw : CommandWord) : Byte := cw.extractLsb' 0 8

/-- `A`, bits 15:8. -/
def aField (cw : CommandWord) : Byte := cw.extractLsb' 8 8

/-- `LEN`, bits 31:16. -/
def lenField (cw : CommandWord) : U16 := cw.extractLsb' 16 16

/-- The command word with the given fields. -/
def mkWord (len : U16) (a op : Byte) : CommandWord :=
  (len ++ a ++ op : BitVec 32)

/-! ### The opcode map (30_encoding.md R84) -/

/-- The operations, in the order of the table of 30_encoding.md R84. -/
inductive Op where
  | writeBit
  | readBit
  | writeByte
  | readByte
  | writeBytes
  | readBytes
  | reset
  | select
  | skipRom
  | power
  | depower
  | resetSearch
  | targetSearch
  | search
  | crc8
  | crc16
  | checkCrc16
  deriving DecidableEq, Repr

/-- How an operation reads the `A` field (30_encoding.md R81): it must be zero, it is one bit with bits 7:1 zero, or it
is a whole byte. -/
inductive AUse where
  | zero
  | bit
  | byte
  deriving DecidableEq, Repr

/-- One row of the table of 30_encoding.md R84: the code, the use of `A`, whether `LEN` may be non-zero, and which operand values
must be present. -/
structure OpRow where
  op : Op
  code : Byte
  a : AUse := .zero
  len : Bool := false
  data : Bool := false
  rom : Bool := false
  seed : Bool := false
  rx : Bool := false
  ss : Bool := false
  deriving DecidableEq, Repr

/-- The table of 30_encoding.md R84. -/
def opcodeMap : List OpRow :=
  [ { op := .writeBit, code := 0x01, a := .bit },
    { op := .readBit, code := 0x02 },
    { op := .writeByte, code := 0x03, a := .byte },
    { op := .readByte, code := 0x04 },
    { op := .writeBytes, code := 0x05, len := true, data := true },
    { op := .readBytes, code := 0x06, len := true },
    { op := .reset, code := 0x10 },
    { op := .select, code := 0x11, rom := true },
    { op := .skipRom, code := 0x12 },
    { op := .power, code := 0x13 },
    { op := .depower, code := 0x14 },
    { op := .resetSearch, code := 0x20 },
    { op := .targetSearch, code := 0x21, a := .byte },
    { op := .search, code := 0x22, ss := true },
    { op := .crc8, code := 0x30, len := true, data := true },
    { op := .crc16, code := 0x31, len := true, data := true, seed := true },
    { op := .checkCrc16, code := 0x32, len := true, data := true, seed := true, rx := true } ]

/-- The row of an operation code, if it is not reserved (30_encoding.md R86). -/
def rowOf (code : Byte) : Option OpRow :=
  opcodeMap.find? (fun r => r.code == code)

/-- The `match` word of a row (30_encoding.md R85). -/
def OpRow.matchWord (r : OpRow) : CommandWord := mkWord 0 0 r.code

/-- The `mask` word of a row (30_encoding.md R85): every bit of `CW` that the row fixes. -/
def OpRow.maskWord (r : OpRow) : CommandWord :=
  mkWord (if r.len then 0x0000 else 0xFFFF)
    (match r.a with
      | .zero => 0xFF
      | .bit => 0xFE
      | .byte => 0x00)
    0xFF

/-! ### Decoding (30_encoding.md R85) -/

/-- Why a command does not decode, by the check that fails first (30_encoding.md R85, 60_exceptions.md R203). -/
inductive DecodeError where
  | reservedOpcode
  | nonZeroField
  | operandShape
  | searchStateRange
  deriving DecidableEq, Repr

/-- Check (2) of 30_encoding.md R85: the fields the row marks "—" are zero, and `A[7:1]` of WRITE_BIT. -/
def fieldsFit (r : OpRow) (cw : CommandWord) : Bool :=
  (match r.a with
    | .zero => aField cw == 0
    | .bit => (aField cw).extractLsb' 1 7 == 0
    | .byte => true) &&
  (r.len || lenField cw == 0)

/-- `len(DATA_IN) = LEN` where there is a `DATA_IN` (30_encoding.md R82). -/
def lengthAgrees (c : Command) : Bool :=
  match c.dataIn with
  | some d => d.length == (lenField c.cw).toNat
  | none => true

/-- Check (3) of 30_encoding.md R85: the operands present are exactly the row's, and the data has length `LEN`. -/
def operandsFit (r : OpRow) (c : Command) : Bool :=
  c.dataIn.isSome == r.data && c.romIn.isSome == r.rom && c.seed.isSome == r.seed &&
    c.rx.isSome == r.rx && c.ssIn.isSome == r.ss && lengthAgrees c

/-- Check (4) of 30_encoding.md R85: `SS_IN[70:64] ≤ 64`. Only SEARCH carries an `SS_IN` here, by check (3). -/
def searchStateFits (c : Command) : Bool :=
  match c.ssIn with
  | some p => decide ((p.extractLsb' 64 7).toNat ≤ 64)
  | none => true

/-- The operation with its operands (30_encoding.md R81 to R83); none where an operand it takes is absent. -/
def buildInstr (op : Op) (c : Command) : Option Instr :=
  match op with
  | .writeBit => some (.writeBit ((aField c.cw).getLsbD 0))
  | .readBit => some .readBit
  | .writeByte => some (.writeByte (aField c.cw))
  | .readByte => some .readByte
  | .writeBytes => c.dataIn.map .writeBytes
  | .readBytes => some (.readBytes (lenField c.cw))
  | .reset => some .reset
  | .select => c.romIn.map .select
  | .skipRom => some .skipRom
  | .power => some .power
  | .depower => some .depower
  | .resetSearch => some .resetSearch
  | .targetSearch => some (.targetSearch (aField c.cw))
  | .search => c.ssIn.map .search
  | .crc8 => c.dataIn.map .crc8
  | .crc16 => c.dataIn.bind fun d => c.seed.map fun s => .crc16 d s
  | .checkCrc16 =>
    c.dataIn.bind fun d => c.seed.bind fun s => c.rx.map fun r => .checkCrc16 d s r.1 r.2

/-- The decoder (30_encoding.md R85): the checks in their order, then the operation. -/
def decode (c : Command) : Except DecodeError Instr :=
  match rowOf (opField c.cw) with
  | none => .error .reservedOpcode
  | some r =>
    if fieldsFit r c.cw = false then .error .nonZeroField
    else if operandsFit r c = false then .error .operandShape
    else
      match buildInstr r.op c with
      | none => .error .operandShape
      | some i => if searchStateFits c then .ok i else .error .searchStateRange

/-- The length of a command in bits, from its command word alone (30_encoding.md R87): 32, the data, and the fixed-size
operands of the row; none for a reserved code. -/
def commandBits (cw : CommandWord) : Option Nat :=
  (rowOf (opField cw)).map fun r =>
    32 + (if r.data then 8 * (lenField cw).toNat else 0) + (if r.rom then 64 else 0) +
      (if r.seed then 16 else 0) + (if r.rx then 16 else 0) + (if r.ss then 72 else 0)

/-! ### Encoding (30_encoding.md R80 to R84) -/

/-- The 16-bit count of a data sequence (30_encoding.md R82). -/
def lenOf (data : List Byte) : U16 := BitVec.ofNat 16 data.length

/-- The command a host presents for an instruction (30_encoding.md R84). -/
def encode : Instr → Command
  | .writeBit v => { cw := mkWord 0 (if v then 1 else 0) 0x01 }
  | .readBit => { cw := mkWord 0 0 0x02 }
  | .writeByte b => { cw := mkWord 0 b 0x03 }
  | .readByte => { cw := mkWord 0 0 0x04 }
  | .writeBytes data => { cw := mkWord (lenOf data) 0 0x05, dataIn := some data }
  | .readBytes n => { cw := mkWord n 0 0x06 }
  | .reset => { cw := mkWord 0 0 0x10 }
  | .select rom => { cw := mkWord 0 0 0x11, romIn := some rom }
  | .skipRom => { cw := mkWord 0 0 0x12 }
  | .power => { cw := mkWord 0 0 0x13 }
  | .depower => { cw := mkWord 0 0 0x14 }
  | .resetSearch => { cw := mkWord 0 0 0x20 }
  | .targetSearch fam => { cw := mkWord 0 fam 0x21 }
  | .search ss => { cw := mkWord 0 0 0x22, ssIn := some ss }
  | .crc8 data => { cw := mkWord (lenOf data) 0 0x30, dataIn := some data }
  | .crc16 data seed => { cw := mkWord (lenOf data) 0 0x31, dataIn := some data, seed := some seed }
  | .checkCrc16 data seed rx0 rx1 =>
    { cw := mkWord (lenOf data) 0 0x32, dataIn := some data, seed := some seed, rx := some (rx0, rx1) }

/-! ### The opcode table's words -/

/-- The command whose word is the low `nbits` bits of `w` and whose operand values, those the row takes, are all zero: the
table gives operands no bits (assumption 15). -/
def tableCommand (nbits w : Nat) : Command :=
  let cw : CommandWord := BitVec.ofNat 32 (w % 2 ^ nbits)
  match rowOf (opField cw) with
  | none => { cw := cw }
  | some r =>
    { cw := cw,
      dataIn := if r.data then some (List.replicate (lenField cw).toNat 0) else none,
      romIn := if r.rom then some 0 else none,
      seed := if r.seed then some 0 else none,
      rx := if r.rx then some (0, 0) else none,
      ssIn := if r.ss then some 0 else none }

/-- The instruction the decoder reads from an instruction whose bits are `w`, numbered as the opcode table numbers
them (assumption 15). -/
def decodeTableWord (nbits w : Nat) : Option Instr :=
  match decode (tableCommand nbits w) with
  | .ok i => some i
  | .error _ => none

end Sys2Proof
end

