-- ==== Sys2Proof/Config.lean ====
section
/-! DEFINITION. What is fixed when the block is instantiated (00_scope.md rules R6 to R8, 10_state.md rule R26), the
vocabulary of the wire trace (00_scope.md rule R10, 20_memory.md rule R50), and the one free value of the model:
the level a sample returns (20_memory.md rule R53). -/

namespace Sys2Proof

/-- The timing configuration record of 00_scope.md R6; each field is a delay in microseconds, but for the
count `nIdlePolls`. -/
structure Tcfg where
  tW1Low : Nat
  tW1Rel : Nat
  tW0Low : Nat
  tW0Rel : Nat
  tRLow : Nat
  tRSample : Nat
  tRSlot : Nat
  nIdlePolls : Nat
  tIdlePoll : Nat
  tRstLow : Nat
  tPresence : Nat
  tRecovery : Nat
  deriving DecidableEq, Repr

/-- The nominal values of the table of 00_scope.md R6. -/
def Tcfg.nominal : Tcfg where
  tW1Low := 6
  tW1Rel := 64
  tW0Low := 60
  tW0Rel := 10
  tRLow := 3
  tRSample := 10
  tRSlot := 66
  nIdlePolls := 125
  tIdlePoll := 2
  tRstLow := 480
  tPresence := 70
  tRecovery := 410

/-- The common length of a write slot, `tWSlot` (00_scope.md R7 (a)). -/
def Tcfg.tWSlot (t : Tcfg) : Nat := t.tW1Low + t.tW1Rel

/-- Every field, in the order of the table of 00_scope.md R6. -/
def Tcfg.fields (t : Tcfg) : List Nat :=
  [t.tW1Low, t.tW1Rel, t.tW0Low, t.tW0Rel, t.tRLow, t.tRSample, t.tRSlot, t.nIdlePolls, t.tIdlePoll,
    t.tRstLow, t.tPresence, t.tRecovery]

/-- The four laws of 00_scope.md R7: (a) one write-slot length, (b) the order of the read slot's points,
(c) at least one idle poll, (d) every field fits in 32 bits. -/
abbrev Tcfg.Lawful (t : Tcfg) : Prop :=
  t.tW1Low + t.tW1Rel = t.tW0Low + t.tW0Rel ∧
  (0 < t.tRLow ∧ t.tRLow < t.tRSample ∧ t.tRSample < t.tRSlot) ∧
  1 ≤ t.nIdlePolls ∧
  ∀ n ∈ t.fields, n < 4294967296

/-- The two CRC-8 methods of 00_scope.md R8; they give equal results (43_crc.md R182). -/
inductive Crc8Impl where
  | bitwise
  | table
  deriving DecidableEq, Repr

/-- The configuration of one block (10_state.md R26): the timing record, the pin's identity (an opaque
value that only equality looks at), whether the platform's critical section nests, and the CRC-8 method. -/
structure Config where
  t : Tcfg
  pin : Nat
  csNestable : Bool
  crc8Impl : Crc8Impl
  deriving DecidableEq, Repr

/-- The three pin modes of the pin driver (00_scope.md R10; 90_conflicts.md C3). -/
inductive PinMode where
  | input
  | openDrain
  | driven
  deriving DecidableEq, Repr

/-- One collaborator call (00_scope.md R10, 20_memory.md R50). Every pin call carries the pin. -/
inductive WireEvent where
  | cfg (pin : Nat) (m : PinMode)
  | wr (pin : Nat) (l : Bit)
  | rd (pin : Nat) (l : Bit)
  | delay (n : Nat)
  | csEnter
  | csExit
  deriving DecidableEq, Repr

/-- FREE VALUE (20_memory.md R53; assumption 3): the level that an unconstrained environment answers, which may
depend on which environment it is (`world`) and on every collaborator call issued so far. It has no body, so nothing can be proved of
any value of it. -/
opaque Config.freeDraw (world : Nat) (history : List WireEvent) : Bit

end Sys2Proof
end

