-- ==== Sys2Proof/Machine/State.lean ====
section
/-! DEFINITION. The state of one block: every register and hidden variable of 10_state.md, the wire trace of
20_memory.md rule R50, and the model's own fields for the host and the environment; the reasons a step
stops; and the state after block reset (10_state.md rule R39). -/

namespace Sys2Proof.Machine

/-- The register `MODE` (10_state.md R23): the mode in which the block last configured the pin. The
encoding 3 is never held. -/
inductive Mode where
  | unknown
  | openDrain
  | driven
  deriving DecidableEq, Repr

/-- The fault causes of 60_exceptions.md R201. -/
inductive FaultCode where
  | none
  | illegalCommand
  | badSearchState
  deriving DecidableEq, Repr

/-- The register `STATUS` (10_state.md R24); its other bits read 0. -/
structure Status where
  busy : Bool
  faulted : Bool
  deriving DecidableEq, Repr

/-- The register `FAULT` (10_state.md R25); its other bits read 0. -/
structure FaultReg where
  code : FaultCode
  opc : Byte
  deriving DecidableEq, Repr

/-- The result record `RES` (10_state.md R20). `none` is the spec's "no value". -/
structure Res where
  bit : Option Bit
  byte : Option Byte
  bytes : Option (List Byte)
  present : Option Bit
  crc8 : Option Byte
  crc16 : Option U16
  ok : Option Bit
  found : Option Bit
  addr : Option Addr
  ss : Option PackedSearch
  deriving DecidableEq, Repr

/-- Every field holds no value: the record after block reset and at the start of every command (10_state.md R20, R39). -/
def Res.empty : Res where
  bit := .none
  byte := .none
  bytes := .none
  present := .none
  crc8 := .none
  crc16 := .none
  ok := .none
  found := .none
  addr := .none
  ss := .none

/-- A Search State (10_state.md R31). The 8-byte ROM buffer is held as its `addr_of` (assumption 9): byte `i` is bits
`8i+7:8i`, and bit position `p` is bit `p - 1`. -/
structure SearchState where
  rom : Addr
  ld : Nat
  ldf : Bit
  deriving DecidableEq, Repr

/-- The variables of a SEARCH walk (10_state.md R36 (c), 42_search.md R152): the working Search State, the position,
the last zero and the abort flag. -/
structure Walk where
  s : SearchState
  pos : Nat
  lastZero : Nat
  aborted : Bit
  deriving DecidableEq, Repr

/-- The hidden state of a live command (10_state.md R36): the command, its position in the micro-program, counted in collaborator calls issued
(R21), the loop indices of byte and buffer commands, and the walk of a SEARCH. `entryMode` (MODE when the command began, which decides EnsureOD,
40_transport.md R110) and `heard` (the levels sampled so far, which decide the early exits) are what the position needs to name one call
(assumption 1). -/
structure Micro where
  instr : Instr
  entryMode : Mode
  calls : Nat
  heard : List Bit
  byteIx : Nat
  bitIx : Nat
  walk : Option Walk
  deriving DecidableEq, Repr

/-- The states of the reference bus's devices (20_memory.md R71 to R73): before any Reset slot, collecting command bits
(oldest first), in a search (position 1 to 64, sub-slot, devices still active), or anything else; and `lost`, after a slot that
these rules do not give the search, until the next Reset slot (assumption 12). -/
inductive BusPhase where
  | idle
  | cmd (bits : List Bit)
  | search (pos sub : Nat) (active : List Addr)
  | other
  | lost
  deriving DecidableEq, Repr

/-- The reference device bus `RB(A, script)` (20_memory.md R70), with what is left of its script. -/
structure RefBus where
  devices : List Addr
  script : List Bit
  phase : BusPhase
  deriving DecidableEq, Repr

/-- MODEL'S OWN (assumption 3): who answers the samples. `draws` answers from the list, and by free values when
the list has run out; the other two are the reference environments of 20_memory.md R70 and R73. -/
inductive Environment where
  | draws (ahead : List Bit)
  | refBus (b : RefBus)
  | stuckLow
  deriving DecidableEq, Repr

/-- The fields of `RES` by name, for a host read (10_state.md R20). -/
inductive ResField where
  | bit
  | byte
  | bytes
  | present
  | crc8
  | crc16
  | ok
  | found
  | addr
  | ss
  deriving DecidableEq, Repr

/-- The registers a host may read at any time (60_exceptions.md R218). -/
inductive HostReg where
  | mode
  | status
  | fault
  deriving DecidableEq, Repr

/-- What a host read delivers. -/
inductive HostValue where
  | bit (v : Bit)
  | byte (v : Byte)
  | bytes (v : List Byte)
  | half (v : U16)
  | addr (v : Addr)
  | packed (v : PackedSearch)
  | mode (v : BitVec 2)
  | word (v : Word32)
  deriving DecidableEq, Repr

/-- How the steps of the model cut a command (assumption 1): the whole command in one step, as a synchronous host sees it (20_memory.md R64), or one
collaborator call per step, as the timing engine runs it (10_state.md R21). -/
inductive Pace where
  | whole
  | byCall
  deriving DecidableEq, Repr

/-- What the host can do to the block (60_exceptions.md R218, 70_reset_and_hazards.md R230): issue a command, from inside its own
critical-section window or not (R243), to be run at a pace; apply block reset; read a result field; read a register. -/
inductive HostInput where
  | command (c : Command) (insideWindow : Bool) (pace : Pace)
  | blockReset
  | readRes (f : ResField)
  | readReg (r : HostReg)
  deriving DecidableEq, Repr

/-- The state of one block. -/
@[ext]
structure State where
  /-- The configuration, fixed at instantiation (10_state.md R26). -/
  cfg : Config
  /-- `MODE` (10_state.md R23). -/
  mode : Mode
  /-- `STATUS` (10_state.md R24). -/
  status : Status
  /-- `FAULT` (10_state.md R25). -/
  fault : FaultReg
  /-- `RES` (10_state.md R20). -/
  res : Res
  /-- Inside a critical-section window the block opened (10_state.md R36 (a)). -/
  inCs : Bit
  /-- The hidden state of the live command, if one is live (10_state.md R36). -/
  micro : Option Micro
  /-- The wire trace since block reset, oldest call first (20_memory.md R50). -/
  trace : List WireEvent
  /-- MODEL'S OWN: the calls before the last block reset, oldest first (assumption 6). -/
  earlier : List WireEvent
  /-- MODEL'S OWN: the host's inputs that the block has not taken yet, oldest first (assumption 2). -/
  inbox : List HostInput
  /-- MODEL'S OWN: what the last host read delivered (assumption 8). -/
  hostGot : Option HostValue
  /-- MODEL'S OWN: the environment of the line (assumption 3). -/
  environment : Environment
  /-- MODEL'S OWN: which unconstrained environment the free draws come from (assumption 3). -/
  world : Nat
  deriving DecidableEq, Repr

/-- Why the machine stops. Every one is an event that the spec gives no step (70_reset_and_hazards.md R236) or calls a
fault of the model (10_state.md R20). All are safe: the model goes no further where the spec says nothing follows. -/
inductive Fault where
  /-- Raised by `step`: a command presented while `STATUS.BUSY = 1` (20_memory.md R64). Safe: the host has no step there. -/
  | commandWhileBusy
  /-- Raised by `step`: a command presented to a faulted block (60_exceptions.md R200). Safe: such a command has no step. -/
  | commandToFaultedBlock
  /-- Raised by `step`: block reset while `STATUS.BUSY = 1` (70_reset_and_hazards.md R230). Safe: it has no step in a model. -/
  | blockResetWhileBusy
  /-- Raised by `step`: a command from inside the host's own window while the critical section does not nest
  (70_reset_and_hazards.md R243). Safe: it has no step. -/
  | commandInsideHostWindow
  /-- Raised by `step`: a host read of a `RES` field that holds no value (10_state.md R20). Safe: the spec asks for a fault. -/
  | readOfNoValue (f : ResField)
  deriving DecidableEq, Repr

/-- Why something has no meaning or is not admitted. -/
inductive Refusal where
  /-- Raised by an arm of `exec` whose instruction has no meaning yet. Safe: nothing is claimed of it. -/
  | notModelled (mnemonic : String)
  /-- Raised by `instantiate`: the timing record breaks a law of 00_scope.md R7. Safe: the spec refuses it. -/
  | configBreaksLaws
  /-- Raised by `instantiate`: another instance uses the same pin (60_exceptions.md R220). Safe: the spec refuses it. -/
  | pinInUse
  deriving DecidableEq, Repr

/-- A block right after block reset, with a given configuration (10_state.md R39). The environment is unconstrained and
the host has presented nothing (assumption 4). -/
def State.initial (cfg : Config) : State where
  cfg := cfg
  mode := .unknown
  status := { busy := false, faulted := false }
  fault := { code := .none, opc := 0 }
  res := Res.empty
  inCs := false
  micro := .none
  trace := []
  earlier := []
  inbox := []
  hostGot := .none
  environment := .draws []
  world := 0

/-- The configuration of `State.reset`: the nominal timing of 00_scope.md R6 and the model's own choices for the open
parameters (assumption 5). -/
def configAtReset : Config where
  t := Tcfg.nominal
  pin := 0
  csNestable := false
  crc8Impl := .bitwise

/-- The machine right after block reset (10_state.md R39, 70_reset_and_hazards.md R230). -/
def State.reset : State := State.initial configAtReset

end Sys2Proof.Machine
end

