-- ==== Sys2Proof/Machine/Operands.lean ====
section
/-! DEFINITION. Operand values and their conversions: bits of a byte in wire order (20_memory.md rule R54), `bytes_le` and
`addr_of` (00_scope.md rule R12), bit positions of a ROM buffer (10_state.md rule R31), and the packed Search
State (10_state.md rule R32). -/

namespace Sys2Proof.Machine

/-- `v` with bit `i` replaced by `l` (the assignment `r[i] <- l` of 40_transport.md R114). -/
def setBit {w : Nat} (v : BitVec w) (i : Nat) (l : Bit) : BitVec w :=
  if l then v ||| (1#w <<< i) else v &&& ~~~(1#w <<< i)

/-- The bits of a byte in the order they cross the wire, least significant first (20_memory.md R54). -/
def bitsLsbFirst (b : Byte) : List Bit :=
  (List.range 8).map fun i => b.getLsbD i

/-- `bytes_le(a)` (00_scope.md R12): the 8 bytes of an address, least significant first. -/
def bytesLe (a : Addr) : List Byte :=
  (List.range 8).map fun i => a.extractLsb' (8 * i) 8

/-- `addr_of(rom)` (00_scope.md R12): the address whose bytes, least significant first, are `rom`. -/
def addrOf (rom : List Byte) : Addr :=
  rom.foldr (fun b acc => (acc <<< 8) ||| b.setWidth 64) 0

/-- `romBit(rom, p)` for a position 1 to 64 (10_state.md R31). -/
def romBit (rom : Addr) (p : Nat) : Bit := rom.getLsbD (p - 1)

/-- The ROM buffer with position `p` set to `l` (42_search.md R152). -/
def setRomBit (rom : Addr) (p : Nat) (l : Bit) : Addr := setBit rom (p - 1) l

/-- Byte 0 of a ROM buffer, the family code (10_state.md R30). -/
def familyOf (rom : Addr) : Byte := rom.extractLsb' 0 8

/-- The initial Search State `S0` (10_state.md R34). -/
def SearchState.s0 : SearchState where
  rom := 0
  ld := 0
  ldf := false

/-- The Search State that TARGET_SEARCH returns for a family code (42_search.md R151). -/
def SearchState.seeded (fam : Byte) : SearchState where
  rom := addrOf [fam, 0, 0, 0, 0, 0, 0, 0]
  ld := 64
  ldf := false

/-- The packed form of a Search State (10_state.md R32): `P[63:0]` the ROM, `P[70:64]` the index, `P[71]` the flag. -/
def packSearch (s : SearchState) : PackedSearch :=
  (BitVec.ofBool s.ldf ++ BitVec.ofNat 7 s.ld ++ s.rom : BitVec 72)

/-- The Search State of a packed value (10_state.md R32). -/
def unpackSearch (p : PackedSearch) : SearchState where
  rom := p.extractLsb' 0 64
  ld := (p.extractLsb' 64 7).toNat
  ldf := p.getLsbD 71

end Sys2Proof.Machine
end

