-- ==== Sys2Proof/Machine/Environment.lean ====
section
/-! DEFINITION. The environment of the line: what each sample returns (20_memory.md rule R53), and the two reference
environments of 20_memory.md rules R70 to R73. No part of the block. -/

namespace Sys2Proof.Machine

/-- What a sample is taken for: an idle poll or the presence sample of a bus reset, or a read slot (20_memory.md R70). -/
inductive SampleKind where
  | idlePoll
  | presence
  | readSlot
  deriving DecidableEq, Repr

/-- The next answer of a script, 1 when it is exhausted (20_memory.md R73). -/
def RefBus.scripted (b : RefBus) : Bit × RefBus :=
  (b.script.headD true, { b with script := b.script.tail })

/-- The reference bus in another phase: its devices and its script stay. -/
def RefBus.moveTo (b : RefBus) (p : BusPhase) : RefBus := { b with phase := p }

/-- A read slot on the reference bus (20_memory.md R72, R73): the answer, none where the rules give none, and the bus after it. A read slot in the
place of a search's write slot has no answer, and neither has any from there to the next Reset slot (assumption 12). -/
def RefBus.onRead (b : RefBus) : Option Bit × RefBus :=
  match b.phase with
  | .idle => (some b.scripted.1, b.scripted.2)
  | .cmd _ => (some b.scripted.1, b.scripted.2)
  | .other => (some b.scripted.1, b.scripted.2)
  | .search pos 0 act => (some (act.all fun a => a.getLsbD (pos - 1)), b.moveTo (.search pos 1 act))
  | .search pos 1 act => (some (act.all fun a => !a.getLsbD (pos - 1)), b.moveTo (.search pos 2 act))
  | .search _ (_ + 2) _ => (none, b.moveTo .lost)
  | .lost => (none, b)

/-- A sample on the reference bus (20_memory.md R71): EVERY idle poll is 1 and every Reset slot, at its presence sample, puts the devices into `Cmd([])`,
whatever they did before; a read slot as `onRead` says. -/
def RefBus.onSample (b : RefBus) : SampleKind → Option Bit × RefBus
  | .idlePoll => (some true, b)
  | .presence => (some b.devices.isEmpty, b.moveTo (.cmd []))
  | .readSlot => b.onRead

/-- The state of the devices once a command byte's bits are extended by one (20_memory.md R71). -/
def RefBus.afterBit (devices : List Addr) (bits : List Bit) : BusPhase :=
  if bits.length < 8 then .cmd bits
  else if bits == bitsLsbFirst 0xF0 then .search 1 0 devices
  else .other

/-- The reference bus after a write slot of `v` (20_memory.md R71 to R73). A write slot in the place of a search's read slot loses the devices until the
next Reset slot (assumption 12). -/
def RefBus.onWrite (b : RefBus) (v : Bit) : RefBus :=
  match b.phase with
  | .idle => b
  | .other => b
  | .cmd bits => b.moveTo (RefBus.afterBit b.devices (bits ++ [v]))
  | .search pos 2 act =>
    b.moveTo
      (if pos < 64 then .search (pos + 1) 0 (act.filter fun a => a.getLsbD (pos - 1) == v) else .other)
  | .search _ _ _ => b.moveTo .lost
  | .lost => b

/-- The environment's answer to a sample: an explicit draw while there is one, the reference answer of a named bus, and a free value
where neither gives one (20_memory.md R53, R73; assumptions 3 and 12). -/
def Environment.answer (e : Environment) (k : SampleKind) (world : Nat) (history : List WireEvent) :
    Bit × Environment :=
  match e with
  | .draws [] => (Config.freeDraw world history, .draws [])
  | .draws (l :: ls) => (l, .draws ls)
  | .refBus b => ((b.onSample k).1.getD (Config.freeDraw world history), .refBus (b.onSample k).2)
  | .stuckLow => (false, .stuckLow)

/-- The environment after a write slot of `v` (20_memory.md R59, R71, R72). -/
def Environment.afterWrite (e : Environment) (v : Bit) : Environment :=
  match e with
  | .draws ls => .draws ls
  | .refBus b => .refBus (b.onWrite v)
  | .stuckLow => .stuckLow

/-- The environment after write slots of the bits, in order. -/
def Environment.afterWrites (e : Environment) (bits : List Bit) : Environment :=
  bits.foldl Environment.afterWrite e

/-- The reference bus with devices `A` and a script, before any Reset slot (20_memory.md R70). -/
def Environment.rb (devices : List Addr) (script : List Bit) : Environment :=
  .refBus { devices := devices, script := script, phase := .idle }

end Sys2Proof.Machine
end

