-- ==== Sys2Proof/Machine/Flags.lean ====
section
/-! DEFINITION. The three outcome bits of 10_state.md rule R27 (`present`, `ok`, `found`), and the flags of the Search State that a
walk computes (42_search.md rules R155 to R160). -/

namespace Sys2Proof.Machine

/-- `RES.present` from the presence sample: 1 exactly when the sample was 0 (10_state.md R27, 41_bus_control.md R130). -/
def presentOf (p : Bit) : Bit := !p

/-- `RES.ok` (43_crc.md R187): the inverted CRC's low byte against `RX[0]` and its high byte against `RX[1]`. -/
def okOf (c : U16) (rx0 rx1 : Byte) : Bit :=
  c.extractLsb' 0 8 == rx0 && c.extractLsb' 8 8 == rx1

/-- The direction taken at a position from the two samples (42_search.md R152, R160): the common bit where they differ;
at a discrepancy the replayed bit before `ld`, 1 at `ld`, 0 after it. -/
def directionOf (s : SearchState) (pos : Nat) (id cmp : Bit) : Bit :=
  if id != cmp then id
  else if pos < s.ld then romBit s.rom pos
  else pos == s.ld

/-- The new "last zero" candidate (42_search.md R152): the position, where a discrepancy took direction 0. -/
def lastZeroOf (old pos : Nat) (id cmp dir : Bit) : Nat :=
  if id == cmp && !dir then pos else old

/-- `RES.found` at the end of a walk (42_search.md R152 step 6, R156, R157): not aborted, and a family code that is not 0. -/
def foundOf (aborted : Bit) (rom : Addr) : Bit :=
  !aborted && familyOf rom != 0

/-- The update of a completed walk (42_search.md R155): `ld` is the last zero, and `ldf` is set if that is 0. -/
def completedState (s : SearchState) (lastZero : Nat) : SearchState :=
  { s with ld := lastZero, ldf := s.ldf || lastZero == 0 }

end Sys2Proof.Machine
end

