-- ==== Sys2Proof/Machine/Ops.lean ====
section
/-! DEFINITION. The named operations on the state: collaborator calls (00_scope.md rule R10), the beginning and the end of a
command (10_state.md rules R20, R24), command faults (60_exceptions.md rule R200), block reset
(70_reset_and_hazards.md rule R230), and what a host reads (60_exceptions.md rule R218). -/

namespace Sys2Proof.Machine

/-! ### Collaborator calls -/

/-- The micro-program's position advances by one call (10_state.md R21). -/
def Micro.advance (m : Micro) : Micro := { m with calls := m.calls + 1 }

/-- Every collaborator call appends one event to the wire trace (00_scope.md R10). -/
def issue (e : WireEvent) (s : State) : State :=
  { s with trace := s.trace ++ [e], micro := s.micro.map Micro.advance }

/-- `Cfg(m)`. -/
def cfgPin (m : PinMode) (s : State) : State := issue (.cfg s.cfg.pin m) s

/-- `Wr(l)`. -/
def wr (l : Bit) (s : State) : State := issue (.wr s.cfg.pin l) s

/-- `Delay(n)`. -/
def delay (n : Nat) (s : State) : State := issue (.delay n) s

/-- `CsEnter()` (10_state.md R36 (a)). -/
def csEnter (s : State) : State := { issue .csEnter s with inCs := true }

/-- `CsExit()` (10_state.md R36 (a)). -/
def csExit (s : State) : State := { issue .csExit s with inCs := false }

/-- The live command has heard one more level. -/
def Micro.hear (l : Bit) (m : Micro) : Micro := { m with heard := m.heard ++ [l] }

/-- The block has heard a level. -/
def hear (l : Bit) (s : State) : State := { s with micro := s.micro.map (Micro.hear l) }

/-- Everything issued on the wire so far, which the environment may have seen. -/
def State.history (s : State) : List WireEvent := s.earlier ++ s.trace

/-- `l <- Rd()` (00_scope.md R10): the level is the environment's (20_memory.md R53), and the event records it (R50). -/
def sample (k : SampleKind) (s : State) : Bit × State :=
  let a := s.environment.answer k s.world s.history
  (a.1, hear a.1 (issue (.rd s.cfg.pin a.1) { s with environment := a.2 }))

/-- A write slot of `v` has side effects on the devices (20_memory.md R59). -/
def tellWrite (v : Bit) (s : State) : State :=
  { s with environment := s.environment.afterWrite v }

/-- `MODE <- m` (10_state.md R23). -/
def setMode (m : Mode) (s : State) : State := { s with mode := m }

/-! ### Hidden state of a live command (10_state.md R36) -/

/-- The hidden state when a command begins with MODE at `m`: at the first call (10_state.md R21), nothing heard, no walk. -/
def Micro.start (i : Instr) (m : Mode) : Micro where
  instr := i
  entryMode := m
  calls := 0
  heard := []
  byteIx := 0
  bitIx := 0
  walk := none

/-- The loop of a byte command is at bit `i`. -/
def atBit (i : Nat) (s : State) : State :=
  { s with micro := s.micro.map fun m => { m with bitIx := i } }

/-- The loop of a buffer command is at byte `j`. -/
def atByte (j : Nat) (s : State) : State :=
  { s with micro := s.micro.map fun m => { m with byteIx := j } }

/-- The walk variables of a SEARCH are `w`. -/
def atWalk (w : Walk) (s : State) : State :=
  { s with micro := s.micro.map fun m => { m with walk := some w } }

/-! ### Beginning and end of a command -/

/-- The block accepts a command: BUSY is set (10_state.md R24), every `RES` field is set to no value (R20), and a micro-program is live
(R21). -/
def accept (i : Instr) (s : State) : State :=
  { s with status.busy := true, res := Res.empty, micro := some (Micro.start i s.mode) }

/-- The command's last call has returned: its results are written (10_state.md R20), BUSY is cleared (R24), and the hidden state is discarded
(R21, R36). -/
def complete (r : Res) (s : State) : State :=
  { s with status.busy := false, res := r, micro := none }

/-! ### Command faults and block reset -/

/-- The cause that a failed decode check reports (30_encoding.md R85, 60_exceptions.md R201). -/
def causeOf : DecodeError → FaultCode
  | .reservedOpcode => .illegalCommand
  | .nonZeroField => .illegalCommand
  | .operandShape => .illegalCommand
  | .searchStateRange => .badSearchState

/-- TAKING A COMMAND FAULT (60_exceptions.md R200): no call, no result, MODE unchanged, `FAULT` written with the cause and the opcode,
FAULTED set and BUSY cleared. There is no return from it (R209): only block reset leaves the faulted state. -/
def raiseFault (code : FaultCode) (opc : Byte) (s : State) : State :=
  { s with
    res := Res.empty
    fault := { code := code, opc := opc }
    status := { busy := false, faulted := true }
    micro := none }

/-- BLOCK RESET (70_reset_and_hazards.md R230, 10_state.md R39): every register and hidden variable at its reset value, no collaborator
call, the configuration unchanged. The trace counts from here (20_memory.md R50; assumption 6). -/
def blockReset (s : State) : State :=
  { s with
    mode := .unknown
    status := { busy := false, faulted := false }
    fault := { code := .none, opc := 0 }
    res := Res.empty
    inCs := false
    micro := none
    trace := []
    earlier := s.earlier ++ s.trace }

/-! ### What a host reads (60_exceptions.md R218) -/

/-- The encoding of `MODE` (10_state.md R23). -/
def Mode.encoding : Mode → BitVec 2
  | .unknown => 0
  | .openDrain => 1
  | .driven => 2

/-- The encoding of a fault cause (60_exceptions.md R201). -/
def FaultCode.encoding : FaultCode → Byte
  | .none => 0x00
  | .illegalCommand => 0x01
  | .badSearchState => 0x02

/-- `MODE` as the host reads it (10_state.md R23). -/
def State.modeReg (s : State) : BitVec 2 := s.mode.encoding

/-- `STATUS` as the host reads it (10_state.md R24): BUSY in bit 0, FAULTED in bit 1, the rest 0. -/
def State.statusReg (s : State) : Word32 :=
  (0#30 ++ BitVec.ofBool s.status.faulted ++ BitVec.ofBool s.status.busy : BitVec 32)

/-- `FAULT` as the host reads it (10_state.md R25): CODE in bits 7:0, OPC in bits 15:8, the rest 0. -/
def State.faultReg (s : State) : Word32 :=
  (0#16 ++ s.fault.opc ++ s.fault.code.encoding : BitVec 32)

/-- A field of `RES` as the host reads it; none where it holds no value (10_state.md R20). -/
def Res.read (r : Res) : ResField → Option HostValue
  | .bit => r.bit.map .bit
  | .byte => r.byte.map .byte
  | .bytes => r.bytes.map .bytes
  | .present => r.present.map .bit
  | .crc8 => r.crc8.map .byte
  | .crc16 => r.crc16.map .half
  | .ok => r.ok.map .bit
  | .found => r.found.map .bit
  | .addr => r.addr.map .addr
  | .ss => r.ss.map .packed

/-- A register as the host reads it. -/
def State.readReg (s : State) : HostReg → HostValue
  | .mode => .mode s.modeReg
  | .status => .word s.statusReg
  | .fault => .word s.faultReg

/-- A value is delivered to the host. -/
def deliver (v : HostValue) (s : State) : State := { s with hostGot := some v }

/-- A host read of `RES`: a field that holds no value is a fault, never zero (10_state.md R20). -/
def hostReadRes (f : ResField) (s : State) : Host.Outcome State Fault Refusal :=
  match s.res.read f with
  | some v => .next (deliver v s)
  | none => .fault (.readOfNoValue f)

/-- A host read of `MODE`, `STATUS` or `FAULT` (60_exceptions.md R218). -/
def hostReadReg (r : HostReg) (s : State) : Host.Outcome State Fault Refusal :=
  .next (deliver (s.readReg r) s)

/-- The block may accept a command: not busy (20_memory.md R64), not faulted (60_exceptions.md R200), and not inside the host's own
window unless the critical section nests (70_reset_and_hazards.md R243); otherwise the reason there is no step. DESIGN CHOICE (assumption 23; safe): where
several reasons hold, the first in this order is named. -/
def admission (insideWindow : Bool) (s : State) : Option Fault :=
  if s.status.busy then some .commandWhileBusy
  else if s.status.faulted then some .commandToFaultedBlock
  else if insideWindow && !s.cfg.csNestable then some .commandInsideHostWindow
  else none

/-- Block reset as a host input: only while BUSY = 0 (70_reset_and_hazards.md R230). -/
def hostBlockReset (s : State) : Host.Outcome State Fault Refusal :=
  if s.status.busy then .fault .blockResetWhileBusy else .next (blockReset s)

end Sys2Proof.Machine
end

