-- ==== Sys2Proof/Machine/Program.lean ====
section
/-! DEFINITION. Micro-programs (10_state.md rule R21): the sequence of collaborator calls of a command as data, with the loops and early
exits its rule states, and the two ways of running one: to its end, or from one call to the next. -/

namespace Sys2Proof.Machine

/-! ### Micro-programs -/

/-- A collaborator call that returns nothing to the block (00_scope.md R10), with the block's own registers that go with it. The block never issues
`Cfg(Input)` (20_memory.md R52 (c)). -/
inductive Call where
  | cfgOpenDrain
  | cfgDriven
  | wr (l : Bit)
  | delay (n : Nat)
  | csEnter
  | csExit
  deriving DecidableEq, Repr

/-- The call is issued; after `Cfg(m)`, `MODE <- m` (40_transport.md R110, 41_bus_control.md R133, R134). -/
def Call.perform : Call → State → State
  | .cfgOpenDrain, s => setMode .openDrain (cfgPin .openDrain s)
  | .cfgDriven, s => setMode .driven (cfgPin .driven s)
  | .wr l, s => Machine.wr l s
  | .delay n, s => Machine.delay n s
  | .csEnter, s => Machine.csEnter s
  | .csExit, s => Machine.csExit s

/-- What happens between two calls without a call: a hidden variable is written (10_state.md R36), or the devices learn of a write slot
(20_memory.md R59). -/
inductive Note where
  | bitIx (i : Nat)
  | byteIx (j : Nat)
  | walk (w : Walk)
  | wrote (v : Bit)
  deriving DecidableEq, Repr

/-- The effect of a note. -/
def Note.apply : Note → State → State
  | .bitIx i, s => atBit i s
  | .byteIx j, s => atByte j s
  | .walk w, s => atWalk w s
  | .wrote v, s => tellWrite v s

/-- A micro-program (10_state.md R21): it ends with the results of its command, or issues a call and goes on, or takes a sample and goes on by the level,
or notes something and goes on. It has no error outcome (60_exceptions.md R204) and is finite (70_reset_and_hazards.md R250). -/
inductive Program where
  | done (r : Res)
  | call (c : Call) (next : Program)
  | sample (k : SampleKind) (next : Bit → Program)
  | note (n : Note) (next : Program)

/-! ### To the end -/

/-- The micro-program runs to its end (10_state.md R21, R24). -/
def runToEnd : Program → State → State
  | .done r, s => complete r s
  | .call c next, s => runToEnd next (c.perform s)
  | .sample k next, s => runToEnd (next (sample k s).1) (sample k s).2
  | .note n next, s => runToEnd next (n.apply s)

/-- A whole command: accepted, and its micro-program run to its end (10_state.md R21, R24; 20_memory.md R64). -/
def runCommand (i : Instr) (p : Program) (s : State) : Host.Outcome State Fault Refusal :=
  .next (runToEnd p (accept i s))

/-! ### From one call to the next -/

/-- What stands before the next call takes effect; a program that has no call left ends (10_state.md R24: with its last call). -/
def settle : Program → State → State
  | .done r, s => complete r s
  | .call _ _, s => s
  | .sample _ _, s => s
  | .note n next, s => settle next (n.apply s)

/-- The program that is left at a position: after `calls` calls whose samples, in order, were `heard`; none where there is no such position. -/
def Program.rest : Program → Nat → List Bit → Option Program
  | .note _ next, n, heard => next.rest n heard
  | .done r, 0, [] => some (.done r)
  | .call c next, 0, [] => some (.call c next)
  | .sample k next, 0, [] => some (.sample k next)
  | .call _ next, n + 1, heard => next.rest n heard
  | .sample _ next, n + 1, l :: heard => (next l).rest n heard
  | .done _, _, _ => none
  | .call _ _, _, _ => none
  | .sample _ _, _, _ => none

/-- The program issues its next call, and what follows before the next takes effect. -/
def Program.advance : Program → State → State
  | .call c next, s => settle next (c.perform s)
  | .sample k next, s => settle (next (Machine.sample k s).1) (Machine.sample k s).2
  | .done r, s => settle (.done r) s
  | .note n next, s => settle (.note n next) s

/-! ### Pieces that every component uses -/

/-- The calls of a list, in order. -/
def calls (cs : List Call) (next : Program) : Program := cs.foldr .call next

/-- EnsureOD (40_transport.md R110), for a slot that begins with MODE at `m`: the latch first, then the mode, unless the pin is in open-drain
mode. -/
def ensureOD (m : Mode) (next : Program) : Program :=
  if m = .openDrain then next else calls [.wr true, .cfgOpenDrain] next

end Sys2Proof.Machine
end

