-- ==== Sys2Proof/Machine/Transport.lean ====
section
/-! DEFINITION. The Bit/Byte Transport (40_transport.md): the slot bodies that every other component uses, and the six
transport commands. Each body follows the pseudocode of its rule call by call; `next` is what follows it, `t` the timing record, and `m` is MODE
where the body begins (open-drain after any slot, 40_transport.md rule R110). -/

namespace Sys2Proof.Machine

/-! ### Slot and byte bodies -/

/-- The body of WRITE_BIT (40_transport.md R111): one write slot. -/
def writeBitBody (t : Tcfg) (m : Mode) (v : Bit) (next : Program) : Program :=
  ensureOD m <|
    calls
      [.csEnter, .wr false, .delay (if v then t.tW1Low else t.tW0Low), .wr true, .csExit,
        .delay (if v then t.tW1Rel else t.tW0Rel)] <|
    .note (.wrote v) next

/-- The body of READ_BIT (40_transport.md R112): one read slot; what follows gets the sampled level. -/
def readBitBody (t : Tcfg) (m : Mode) (next : Bit → Program) : Program :=
  ensureOD m <|
    calls [.csEnter, .wr false, .delay t.tRLow, .wr true, .delay (t.tRSample - t.tRLow)] <|
    .sample .readSlot fun l => calls [.csExit, .delay (t.tRSlot - t.tRSample)] (next l)

/-- The loop of WRITE_BYTE (40_transport.md R113) over bit indices. -/
def writeBits (t : Tcfg) (b : Byte) : Mode → List Nat → Program → Program
  | _, [], next => next
  | m, i :: is, next => .note (.bitIx i) (writeBitBody t m (b.getLsbD i) (writeBits t b .openDrain is next))

/-- The body of WRITE_BYTE (40_transport.md R113): `for i in 0..7`, bit `i` of `b`. -/
def writeByteBody (t : Tcfg) (m : Mode) (b : Byte) (next : Program) : Program :=
  writeBits t b m (List.range 8) next

/-- The loop of READ_BYTE (40_transport.md R114) over bit indices: `r[i] <- l`. -/
def readBits (t : Tcfg) : Mode → List Nat → Byte → (Byte → Program) → Program
  | _, [], r, next => next r
  | m, i :: is, r, next =>
    .note (.bitIx i) (readBitBody t m fun l => readBits t .openDrain is (setBit r i l) next)

/-- The body of READ_BYTE (40_transport.md R114): `for i in 0..7`, from `r = 0`. -/
def readByteBody (t : Tcfg) (m : Mode) (next : Byte → Program) : Program :=
  readBits t m (List.range 8) 0 next

/-- The loop of WRITE_BYTES (40_transport.md R115) over the bytes from index `j` on. -/
def writeBytesFrom (t : Tcfg) : Mode → Nat → List Byte → Program → Program
  | _, _, [], next => next
  | m, j, b :: rest, next =>
    .note (.byteIx j) (writeByteBody t m b (writeBytesFrom t .openDrain (j + 1) rest next))

/-- The body of WRITE_BYTES (40_transport.md R115). -/
def writeBytesBody (t : Tcfg) (m : Mode) (data : List Byte) (next : Program) : Program :=
  writeBytesFrom t m 0 data next

/-- The loop of READ_BYTES (40_transport.md R116): `n` bytes from index `j` on. -/
def readBytesFrom (t : Tcfg) : Mode → Nat → Nat → (List Byte → Program) → Program
  | _, _, 0, next => next []
  | m, j, n + 1, next =>
    .note (.byteIx j)
      (readByteBody t m fun r => readBytesFrom t .openDrain (j + 1) n fun rest => next (r :: rest))

/-- The body of READ_BYTES (40_transport.md R116). -/
def readBytesBody (t : Tcfg) (m : Mode) (n : Nat) (next : List Byte → Program) : Program :=
  readBytesFrom t m 0 n next

/-! ### The micro-programs of the commands -/

/-- WRITE_BIT (40_transport.md R111). -/
def writeBitProgram (t : Tcfg) (m : Mode) (v : Bit) : Program := writeBitBody t m v (.done Res.empty)

/-- READ_BIT (40_transport.md R112). -/
def readBitProgram (t : Tcfg) (m : Mode) : Program :=
  readBitBody t m fun l => .done { Res.empty with bit := some l }

/-- WRITE_BYTE (40_transport.md R113). -/
def writeByteProgram (t : Tcfg) (m : Mode) (b : Byte) : Program := writeByteBody t m b (.done Res.empty)

/-- READ_BYTE (40_transport.md R114). -/
def readByteProgram (t : Tcfg) (m : Mode) : Program :=
  readByteBody t m fun r => .done { Res.empty with byte := some r }

/-- WRITE_BYTES (40_transport.md R115). -/
def writeBytesProgram (t : Tcfg) (m : Mode) (data : List Byte) : Program :=
  writeBytesBody t m data (.done Res.empty)

/-- READ_BYTES (40_transport.md R116). -/
def readBytesProgram (t : Tcfg) (m : Mode) (n : U16) : Program :=
  readBytesBody t m n.toNat fun d => .done { Res.empty with bytes := some d }

/-! ### The commands -/

/-- WRITE_BIT (40_transport.md R111). -/
def execWriteBit (v : Bit) (s : State) : Host.Outcome State Fault Refusal :=
  runCommand (.writeBit v) (writeBitProgram s.cfg.t s.mode v) s

/-- READ_BIT (40_transport.md R112). -/
def execReadBit (s : State) : Host.Outcome State Fault Refusal :=
  runCommand .readBit (readBitProgram s.cfg.t s.mode) s

/-- WRITE_BYTE (40_transport.md R113). -/
def execWriteByte (b : Byte) (s : State) : Host.Outcome State Fault Refusal :=
  runCommand (.writeByte b) (writeByteProgram s.cfg.t s.mode b) s

/-- READ_BYTE (40_transport.md R114). -/
def execReadByte (s : State) : Host.Outcome State Fault Refusal :=
  runCommand .readByte (readByteProgram s.cfg.t s.mode) s

/-- WRITE_BYTES (40_transport.md R115). -/
def execWriteBytes (data : List Byte) (s : State) : Host.Outcome State Fault Refusal :=
  runCommand (.writeBytes data) (writeBytesProgram s.cfg.t s.mode data) s

/-- READ_BYTES (40_transport.md R116). -/
def execReadBytes (n : U16) (s : State) : Host.Outcome State Fault Refusal :=
  runCommand (.readBytes n) (readBytesProgram s.cfg.t s.mode n) s

end Sys2Proof.Machine
end

