-- ==== Sys2Proof/Machine/BusControl.lean ====
section
/-! DEFINITION. Bus Control (41_bus_control.md): bus reset with presence detect, the two ROM commands, and power and depower. -/

namespace Sys2Proof.Machine

/-! ### Bus reset -/

/-- The idle-wait of RESET (41_bus_control.md R130) with at most `n` polls left; what follows gets whether the line went high. -/
def idlePolls (t : Tcfg) : Nat → (Bit → Program) → Program
  | 0, next => next false
  | n + 1, next =>
    .call (.delay t.tIdlePoll) (.sample .idlePoll fun l => if l then next true else idlePolls t n next)

/-- The reset pulse, the presence sample and the recovery of RESET (41_bus_control.md R130, R136); what follows gets `present`. -/
def resetPulse (t : Tcfg) (next : Bit → Program) : Program :=
  calls [.wr false, .delay t.tRstLow, .csEnter, .wr true, .delay t.tPresence] <|
    .sample .presence fun p => calls [.csExit, .delay t.tRecovery] (next (presentOf p))

/-- The body of RESET (41_bus_control.md R130): `present`, 0 with no reset pulse where the line never idled. -/
def resetBody (t : Tcfg) (m : Mode) (next : Bit → Program) : Program :=
  ensureOD m <| .call (.wr true) <|
    idlePolls t t.nIdlePolls fun idle => if idle then resetPulse t next else next false

/-- The micro-program of RESET (41_bus_control.md R130). -/
def resetProgram (t : Tcfg) (m : Mode) : Program :=
  resetBody t m fun present => .done { Res.empty with present := some present }

/-- RESET (41_bus_control.md R130). -/
def execReset (s : State) : Host.Outcome State Fault Refusal :=
  runCommand .reset (resetProgram s.cfg.t s.mode) s

/-! ### ROM commands (30_encoding.md R97) -/

/-- Match ROM. -/
def matchRomByte : Byte := 0x55

/-- Skip ROM. -/
def skipRomByte : Byte := 0xCC

/-- Search ROM. -/
def searchRomByte : Byte := 0xF0

/-- The micro-program of SELECT (41_bus_control.md R131): Match ROM, then the address bytes, family code first. -/
def selectProgram (t : Tcfg) (m : Mode) (rom : Addr) : Program :=
  writeByteBody t m matchRomByte (writeBytesBody t .openDrain (bytesLe rom) (.done Res.empty))

/-- SELECT (41_bus_control.md R131). -/
def execSelect (rom : Addr) (s : State) : Host.Outcome State Fault Refusal :=
  runCommand (.select rom) (selectProgram s.cfg.t s.mode rom) s

/-- The micro-program of SKIP_ROM (41_bus_control.md R132). -/
def skipRomProgram (t : Tcfg) (m : Mode) : Program := writeByteBody t m skipRomByte (.done Res.empty)

/-- SKIP_ROM (41_bus_control.md R132). -/
def execSkipRom (s : State) : Host.Outcome State Fault Refusal :=
  runCommand .skipRom (skipRomProgram s.cfg.t s.mode) s

/-! ### Power and depower -/

/-- The micro-program of POWER (41_bus_control.md R133). -/
def powerProgram : Program := calls [.wr true, .cfgDriven] (.done Res.empty)

/-- POWER (41_bus_control.md R133). -/
def execPower (s : State) : Host.Outcome State Fault Refusal :=
  runCommand .power powerProgram s

/-- The micro-program of DEPOWER (41_bus_control.md R134). -/
def depowerProgram : Program := calls [.wr true, .cfgOpenDrain] (.done Res.empty)

/-- DEPOWER (41_bus_control.md R134). -/
def execDepower (s : State) : Host.Outcome State Fault Refusal :=
  runCommand .depower depowerProgram s

end Sys2Proof.Machine
end

