-- ==== Sys2Proof/Machine/Search.lean ====
section
/-! DEFINITION. The Device Search Engine (42_search.md): the creation of Search States and the search step. -/

namespace Sys2Proof.Machine

/-- The micro-program of RESET_SEARCH (42_search.md R150): no call. -/
def resetSearchProgram : Program := .done { Res.empty with ss := some (packSearch SearchState.s0) }

/-- RESET_SEARCH (42_search.md R150). -/
def execResetSearch (s : State) : Host.Outcome State Fault Refusal :=
  runCommand .resetSearch resetSearchProgram s

/-- The micro-program of TARGET_SEARCH (42_search.md R151): no call. -/
def targetSearchProgram (fam : Byte) : Program :=
  .done { Res.empty with ss := some (packSearch (SearchState.seeded fam)) }

/-- TARGET_SEARCH (42_search.md R151). -/
def execTargetSearch (fam : Byte) (s : State) : Host.Outcome State Fault Refusal :=
  runCommand (.targetSearch fam) (targetSearchProgram fam) s

/-- The walk variables before position 1 (42_search.md R152). -/
def Walk.start (ss : SearchState) : Walk where
  s := ss
  pos := 1
  lastZero := 0
  aborted := false

/-- The walk variables after a position whose samples did not abort: the direction recorded in the ROM buffer, and the last
zero (42_search.md R152). -/
def Walk.take (w : Walk) (id cmp : Bit) : Walk :=
  let dir := directionOf w.s w.pos id cmp
  { w with
    s := { w.s with rom := setRomBit w.s.rom w.pos dir }
    lastZero := lastZeroOf w.lastZero w.pos id cmp dir }

/-- The walk variables at the next position. -/
def Walk.forward (w : Walk) : Walk := { w with pos := w.pos + 1 }

/-- One position of the walk (42_search.md R152 step 4): two read slots, and unless both samples are 1 a write slot of the
direction taken, which is recorded first; what follows gets the walk variables. -/
def walkPosition (t : Tcfg) (w : Walk) (next : Walk → Program) : Program :=
  readBitBody t .openDrain fun id => readBitBody t .openDrain fun cmp =>
    if id && cmp then .note (.walk { w with aborted := true }) (next { w with aborted := true })
    else
      .note (.walk (w.take id cmp)) <|
        writeBitBody t .openDrain (directionOf w.s w.pos id cmp) (next (w.take id cmp))

/-- The walk with `n` positions left (42_search.md R152 step 4); it stops at an abort (R156). -/
def walkLoop (t : Tcfg) : Nat → Walk → (Walk → Program) → Program
  | 0, w, next => next w
  | n + 1, w, next =>
    .note (.walk w) (walkPosition t w fun w' => if w'.aborted then next w' else walkLoop t n w'.forward next)

/-- The results of a SEARCH with no device (42_search.md R152): `RES.found = 0`, and the Search State. -/
def noDeviceResult (p : PackedSearch) : Res := { Res.empty with found := some false, ss := some p }

/-- The results of a SEARCH whose walk ended with the variables `w` (42_search.md R152 steps 5 and 6, R155 to R157). -/
def walkResult (w : Walk) : Res :=
  if foundOf w.aborted w.s.rom then
    { Res.empty with
      found := some true
      addr := some w.s.rom
      ss := some (packSearch (completedState w.s w.lastZero)) }
  else noDeviceResult (packSearch SearchState.s0)

/-- The search step once presence was seen (42_search.md R152 steps 3 to 6): Search ROM, the walk, the result. -/
def searchWalk (t : Tcfg) (ss : SearchState) : Program :=
  writeByteBody t .openDrain searchRomByte (walkLoop t 64 (Walk.start ss) fun w => .done (walkResult w))

/-- The micro-program of SEARCH (42_search.md R152): exhausted (R153), no presence (R154), or a walk. -/
def searchProgram (t : Tcfg) (m : Mode) (p : PackedSearch) : Program :=
  if (unpackSearch p).ldf then .done (noDeviceResult p)
  else
    resetBody t m fun present =>
      if present then searchWalk t (unpackSearch p) else .done (noDeviceResult (packSearch SearchState.s0))

/-- SEARCH (42_search.md R152). -/
def execSearch (p : PackedSearch) (s : State) : Host.Outcome State Fault Refusal :=
  runCommand (.search p) (searchProgram s.cfg.t s.mode p) s

end Sys2Proof.Machine
end

