-- ==== Sys2Proof/Machine/Dispatch.lean ====
section
/-! DEFINITION. One arm per host command (30_encoding.md rule R84), each a direct call of its meaning. -/

namespace Sys2Proof.Machine

def exec (i : Instr) (s : State) : Host.Outcome State Fault Refusal :=
  match i with
  | .writeBit v => Sys2Proof.Machine.execWriteBit v s
  | .readBit => Sys2Proof.Machine.execReadBit s
  | .writeByte b => Sys2Proof.Machine.execWriteByte b s
  | .readByte => Sys2Proof.Machine.execReadByte s
  | .writeBytes data => Sys2Proof.Machine.execWriteBytes data s
  | .readBytes n => Sys2Proof.Machine.execReadBytes n s
  | .reset => Sys2Proof.Machine.execReset s
  | .select rom => Sys2Proof.Machine.execSelect rom s
  | .skipRom => Sys2Proof.Machine.execSkipRom s
  | .power => Sys2Proof.Machine.execPower s
  | .depower => Sys2Proof.Machine.execDepower s
  | .resetSearch => Sys2Proof.Machine.execResetSearch s
  | .targetSearch fam => Sys2Proof.Machine.execTargetSearch fam s
  | .search ss => Sys2Proof.Machine.execSearch ss s
  | .crc8 data => Sys2Proof.Machine.execCrc8 data s
  | .crc16 data seed => Sys2Proof.Machine.execCrc16 data seed s
  | .checkCrc16 data seed rx0 rx1 => Sys2Proof.Machine.execCheckCrc16 data seed rx0 rx1 s

end Sys2Proof.Machine
end

