-- ==== Sys2Proof/Machine/Engine.lean ====
section
/-! DEFINITION. The timing engine (10_state.md rule R21): it steps through the micro-program of the live command, one collaborator call
per step. -/

namespace Sys2Proof.Machine

/-- The micro-program of a command (10_state.md R21), for a configuration and MODE at the command's beginning. -/
def programOf (c : Config) (m : Mode) : Instr → Program
  | .writeBit v => writeBitProgram c.t m v
  | .readBit => readBitProgram c.t m
  | .writeByte b => writeByteProgram c.t m b
  | .readByte => readByteProgram c.t m
  | .writeBytes data => writeBytesProgram c.t m data
  | .readBytes n => readBytesProgram c.t m n
  | .reset => resetProgram c.t m
  | .select rom => selectProgram c.t m rom
  | .skipRom => skipRomProgram c.t m
  | .power => powerProgram
  | .depower => depowerProgram
  | .resetSearch => resetSearchProgram
  | .targetSearch fam => targetSearchProgram fam
  | .search p => searchProgram c.t m p
  | .crc8 data => crc8Program c.crc8Impl data
  | .crc16 data seed => crc16Program data seed
  | .checkCrc16 data seed rx0 rx1 => checkCrc16Program data seed rx0 rx1

/-- What is left of the live command's micro-program at its position (10_state.md R21); none if no command is live. -/
def State.rest (s : State) : Option Program :=
  s.micro.bind fun m => (programOf s.cfg m.entryMode m.instr).rest m.calls m.heard

/-- A command begins (10_state.md R21, R24): it is accepted and stands before its first call; a command without a call ends at once. -/
def start (i : Instr) (s : State) : State := settle (programOf s.cfg s.mode i) (accept i s)

/-- One step of the timing engine (10_state.md R21): the live command issues its next collaborator call, and ends with its last. Between commands the
block is idle and keeps all its state (60_exceptions.md R222). -/
def engineStep (s : State) : State :=
  match s.rest with
  | some p => p.advance s
  | none => s

/-- The live command runs to its end from where it stands; between commands, nothing. -/
def finishCommand (s : State) : State :=
  match s.rest with
  | some p => runToEnd p s
  | none => s

end Sys2Proof.Machine
end

