-- ==== Sys2Proof/Machine/HostPort.lean ====
section
/-! DEFINITION. What one host input does (60_exceptions.md rule R218): a command is admitted, decoded and run or faulted; block reset and
host reads take effect (10_state.md rule R21, 70_reset_and_hazards.md rule R236). -/

namespace Sys2Proof.Machine

/-- A decoded command runs whole, or begins and leaves its calls to the steps that follow (10_state.md R21; assumption 1). -/
def runAt (pace : Pace) (i : Instr) (s : State) : Host.Outcome State Fault Refusal :=
  match pace with
  | .whole => exec i s
  | .byCall => .next (start i s)

/-- The host's next command is presented: admitted or not, decoded, and run or faulted (30_encoding.md R85, 60_exceptions.md R200). -/
def stepCommand (c : Command) (insideWindow : Bool) (pace : Pace) (s : State) : Host.Outcome State Fault Refusal :=
  match admission insideWindow s with
  | some f => .fault f
  | none =>
    match decode c with
    | .error e => .next (raiseFault (causeOf e) (opField c.cw) s)
    | .ok i => runAt pace i s

/-- The host's next input takes effect (60_exceptions.md R218). -/
def stepInput (h : HostInput) (s : State) : Host.Outcome State Fault Refusal :=
  match h with
  | .command c insideWindow pace => stepCommand c insideWindow pace s
  | .blockReset => hostBlockReset s
  | .readRes f => hostReadRes f s
  | .readReg r => hostReadReg r s

/-- The host reads. -/
def HostInput.isRead : HostInput → Bool
  | .command _ _ _ => false
  | .blockReset => false
  | .readRes _ => true
  | .readReg _ => true

/-- A host read waits while a command is live: the host has no step on the instance there, and the block's own progress lifts the hold
(20_memory.md R64). -/
def held (h : HostInput) (s : State) : Bool := h.isRead && s.micro.isSome

end Sys2Proof.Machine
end

