-- ==== Sys2Proof/Machine/Step.lean ====
section
/-! DEFINITION. One step of the block: it takes the host's next input, or the timing engine issues the live command's next call, or the block
idles (10_state.md rule R21, 70_reset_and_hazards.md rules R231 and R236; assumptions 1 and 2). -/

namespace Sys2Proof.Machine

/-- One step: the oldest host input is taken; with none, or a read that waits, the timing engine takes a step (10_state.md R21), which between commands
changes nothing (60_exceptions.md R222). -/
def step (s : State) : Host.Outcome State Fault Refusal :=
  match s.inbox with
  | [] => .next (engineStep s)
  | h :: rest => if held h s then .next (engineStep s) else stepInput h { s with inbox := rest }

/-- The state in which the host presents, as its next input, the command of an opcode-table word (assumption 15). -/
def State.withFetchWord (s : State) (nbits w : Nat) : State :=
  { s with inbox := .command (tableCommand nbits w) false .whole :: s.inbox }

end Sys2Proof.Machine
end

