-- ==== Sys2Proof/Machine/Wire.lean ====
section
/-! DEFINITION. Views of a wire trace (20_memory.md rules R50 to R58, 30_encoding.md rules R95 and R96): the master's drive
state, the slots, requested delays, critical-section windows and timelines. No step reads them; statements do. -/

namespace Sys2Proof.Machine

/-! ### The master's drive state (20_memory.md R51) -/

/-- The pair `(mode, latch)` of 20_memory.md R51; `none` is Unknown, and unknown. -/
structure Drive where
  mode : Option PinMode
  latch : Option Bit
  deriving DecidableEq, Repr

/-- Before any call. -/
def Drive.start : Drive where
  mode := none
  latch := none

/-- The drive state after one more event. -/
def Drive.after (d : Drive) : WireEvent → Drive
  | .cfg _ m => { d with mode := some m }
  | .wr _ l => { d with latch := some l }
  | .rd _ _ => d
  | .delay _ => d
  | .csEnter => d
  | .csExit => d

/-- The drive state at the end of a trace (20_memory.md R51). -/
def driveOf (tr : List WireEvent) : Drive := tr.foldl Drive.after Drive.start

/-- The master pulls the line low (20_memory.md R51). -/
def Drive.pullsLow (d : Drive) : Bool :=
  (d.mode == some .openDrain || d.mode == some .driven) && d.latch == some false

/-- The master drives the line high (20_memory.md R51). -/
def Drive.drivesHigh (d : Drive) : Bool :=
  d.mode == some .driven && d.latch == some true

/-- Otherwise the line is released (20_memory.md R51). -/
def Drive.released (d : Drive) : Bool := !d.pullsLow && !d.drivesHigh

/-- What is remembered to judge samples: the drive state, and whether the last `Wr` was a `Wr(1)` in open-drain mode. -/
structure SampleScan where
  drive : Drive
  freed : Bool
  fine : Bool
  deriving DecidableEq, Repr

/-- One event of the scan of 20_memory.md R52 (b): at each sample the line must have been let go by a `Wr(1)` in open-drain mode with
no `Wr(0)` since, and the master must be released. -/
def SampleScan.after (c : SampleScan) (e : WireEvent) : SampleScan :=
  match e with
  | .wr _ true =>
    { c with drive := c.drive.after e, freed := c.drive.mode == some .openDrain }
  | .wr _ false => { c with drive := c.drive.after e, freed := false }
  | .rd _ _ => { c with fine := c.fine && c.freed && c.drive.released }
  | .cfg _ _ => { c with drive := c.drive.after e }
  | .delay _ => c
  | .csEnter => c
  | .csExit => c

/-- The scan of a whole trace (20_memory.md R52 (b)). -/
def sampleScan (tr : List WireEvent) : SampleScan :=
  tr.foldl SampleScan.after { drive := Drive.start, freed := false, fine := true }

/-- Every sample of the trace is taken with the line released (20_memory.md R52 (b)). -/
def samplesReleased (tr : List WireEvent) : Bool := (sampleScan tr).fine

/-- The event configures the pin as an input. -/
def isInput : WireEvent → Bool
  | .cfg _ m => m == .input
  | .wr _ _ => false
  | .rd _ _ => false
  | .delay _ => false
  | .csEnter => false
  | .csExit => false

/-- The trace holds no `Cfg(Input)` (20_memory.md R52 (c)). -/
def neverInput (tr : List WireEvent) : Bool := tr.all fun e => !isInput e

/-! ### Requested delays (70_reset_and_hazards.md R252) -/

/-- The delay an event requests. -/
def requestedBy : WireEvent → Nat
  | .delay n => n
  | .cfg _ _ => 0
  | .wr _ _ => 0
  | .rd _ _ => 0
  | .csEnter => 0
  | .csExit => 0

/-- The sum of the requested delays of a trace. -/
def totalDelay (tr : List WireEvent) : Nat := (tr.map requestedBy).sum

/-- The timeline of a trace (30_encoding.md R96): each event with the requested time at which it is issued, from `t` on. -/
def timeline (t : Nat) : List WireEvent → List (Nat × WireEvent)
  | [] => []
  | e :: rest => (t, e) :: timeline (t + requestedBy e) rest

/-! ### Critical-section windows (20_memory.md R58, R65; 70_reset_and_hazards.md R240) -/

/-- One event of the window scan: `some b` says whether a window is open, `none` that the pairing is broken. -/
def windowAfter (w : Option Bool) (e : WireEvent) : Option Bool :=
  match w, e with
  | some false, .csEnter => some true
  | some true, .csExit => some false
  | some _, .csEnter => none
  | some _, .csExit => none
  | w, _ => w

/-- The window scan of a trace, none open at its start. -/
def windowScan (tr : List WireEvent) : Option Bool := tr.foldl windowAfter (some false)

/-- Every `CsEnter` is followed by exactly one `CsExit` before the next `CsEnter` and before the end, and no `CsExit`
stands alone (70_reset_and_hazards.md R240). -/
def windowsBalanced (tr : List WireEvent) : Bool := windowScan tr == some false

/-- The delays requested inside windows (70_reset_and_hazards.md R241); `inside` says whether one is open. -/
def windowDelays (inside : Bool) : List WireEvent → List Nat
  | [] => []
  | .csEnter :: rest => windowDelays true rest
  | .csExit :: rest => windowDelays false rest
  | .delay n :: rest => if inside then n :: windowDelays inside rest else windowDelays inside rest
  | .cfg _ _ :: rest => windowDelays inside rest
  | .wr _ _ :: rest => windowDelays inside rest
  | .rd _ _ :: rest => windowDelays inside rest

/-- The longest delay a window may hold (70_reset_and_hazards.md R241). -/
def longestWindowDelay (t : Tcfg) : Nat :=
  max (max t.tW0Low t.tW1Low) (max (t.tRSample - t.tRLow) t.tPresence)

/-! ### Slots (30_encoding.md R95) -/

/-- A slot of the wire encoding (30_encoding.md R95): a write slot of a bit, a read slot that sampled a level, and a bus reset with
`lows` idle samples of 0, then either the end of the polls, or an idle sample of 1 and a presence sample. -/
inductive Slot where
  | write (v : Bit)
  | read (l : Bit)
  | reset (lows : Nat) (presence : Option Bit)
  deriving DecidableEq, Repr

/-- One idle poll that sampled `l`. -/
def pollEvents (c : Config) (l : Bit) : List WireEvent := [.delay c.t.tIdlePoll, .rd c.pin l]

/-- The reset pulse with presence sample `p` (30_encoding.md R95). -/
def pulseEvents (c : Config) (p : Bit) : List WireEvent :=
  [.wr c.pin false, .delay c.t.tRstLow, .csEnter, .wr c.pin true, .delay c.t.tPresence, .rd c.pin p, .csExit,
    .delay c.t.tRecovery]

/-- The events of a slot after the ensure-open-drain step (30_encoding.md R95). -/
def Slot.events (c : Config) : Slot → List WireEvent
  | .write true =>
    [.csEnter, .wr c.pin false, .delay c.t.tW1Low, .wr c.pin true, .csExit, .delay c.t.tW1Rel]
  | .write false =>
    [.csEnter, .wr c.pin false, .delay c.t.tW0Low, .wr c.pin true, .csExit, .delay c.t.tW0Rel]
  | .read l =>
    [.csEnter, .wr c.pin false, .delay c.t.tRLow, .wr c.pin true, .delay (c.t.tRSample - c.t.tRLow), .rd c.pin l,
      .csExit, .delay (c.t.tRSlot - c.t.tRSample)]
  | .reset lows presence =>
    .wr c.pin true :: (List.replicate lows (pollEvents c false)).flatten ++
      (match presence with
        | none => []
        | some p => pollEvents c true ++ pulseEvents c p)

/-- The events of a sequence of slots. -/
def slotEvents (c : Config) (slots : List Slot) : List WireEvent := slots.flatMap (Slot.events c)

/-- The write slots of a byte, least significant bit first (20_memory.md R54). -/
def byteSlots (b : Byte) : List Slot := (bitsLsbFirst b).map .write

/-- The write slots of a byte sequence, in order (20_memory.md R55). -/
def bytesSlots (data : List Byte) : List Slot := data.flatMap byteSlots

/-- The events of EnsureOD (40_transport.md R110): none in open-drain mode. -/
def ensureEvents (c : Config) (m : Mode) : List WireEvent :=
  if m = .openDrain then [] else [.wr c.pin true, .cfg c.pin .openDrain]

/-- The trace of a command that issues slots: EnsureOD's events, if there is a slot at all, then the slots (40_transport.md R110: at most
once per command, at the first slot). -/
def busEvents (c : Config) (m : Mode) (slots : List Slot) : List WireEvent :=
  if slots = [] then [] else ensureEvents c m ++ slotEvents c slots

/-- `MODE` after a command that issues slots. -/
def modeAfter (m : Mode) (slots : List Slot) : Mode := if slots = [] then m else .openDrain

/-- The slot opens a critical-section window: every slot but a bus reset that never idled (70_reset_and_hazards.md R240). -/
def Slot.opensWindow : Slot → Bool
  | .write _ => true
  | .read _ => true
  | .reset _ presence => presence.isSome

/-- `inCs` after the slots: their windows are closed again (40_transport.md R119), and without a window it is as before. -/
def inCsAfter (b : Bit) (slots : List Slot) : Bit := if slots.any Slot.opensWindow then false else b

/-- The byte whose bits, least significant first, are `bits` (20_memory.md R54). -/
def byteOfBits (bits : List Bit) : Byte :=
  bits.zipIdx.foldl (fun acc p => setBit acc p.2 p.1) 0

/-- The `n` bytes that `8 * n` bits spell, in order (20_memory.md R55). -/
def bytesOfBits : Nat → List Bit → List Byte
  | 0, _ => []
  | n + 1, bits => byteOfBits (bits.take 8) :: bytesOfBits n (bits.drop 8)

/-- What a pair of search samples means (30_encoding.md R99). -/
inductive PairMeaning where
  | nobody
  | all (bit : Bit)
  | discrepancy
  deriving DecidableEq, Repr

/-- The table of 30_encoding.md R99. -/
def pairMeaning : Bit → Bit → PairMeaning
  | true, true => .nobody
  | true, false => .all true
  | false, true => .all false
  | false, false => .discrepancy

end Sys2Proof.Machine
end

