-- ==== Sys2Proof/Machine/SearchView.lean ====
section
/-! DEFINITION. A walk as a function of its sample pairs alone (42_search.md rules R152, R156, R165): the walk variables it ends with and
the slots it issues. No step reads it; statements do. -/

namespace Sys2Proof.Machine

/-- The walk variables at the next position, after a pair of samples that did not abort (42_search.md R152). -/
def Walk.next (w : Walk) (id cmp : Bit) : Walk := (w.take id cmp).forward

/-- The walk variables after a list of sample pairs; a pair of ones aborts the walk (42_search.md R156). -/
def walkOver (w : Walk) : List (Bit × Bit) → Walk
  | [] => w
  | (id, cmp) :: rest => if id && cmp then { w with aborted := true } else walkOver (w.next id cmp) rest

/-- The slots of a walk over a list of sample pairs (42_search.md R165): two read slots and a write slot of the direction at each position, and no
write slot after a pair that aborts. -/
def walkSlots (w : Walk) : List (Bit × Bit) → List Slot
  | [] => []
  | (id, cmp) :: rest =>
    if id && cmp then [.read id, .read cmp]
    else [.read id, .read cmp, .write (directionOf w.s w.pos id cmp)] ++ walkSlots (w.next id cmp) rest

/-- The samples of a walk in time order. -/
def walkSamples (pairs : List (Bit × Bit)) : List Bit := pairs.flatMap fun p => [p.1, p.2]

/-- The pairs form a walk of at most `n` positions: `n` pairs of which none aborts, or fewer and then one that does. -/
def IsWalk (n : Nat) (pairs : List (Bit × Bit)) : Prop :=
  (pairs.length = n ∧ ∀ p ∈ pairs, (p.1 && p.2) = false) ∨
  (∃ before : List (Bit × Bit), pairs = before ++ [(true, true)] ∧ before.length < n ∧
    ∀ p ∈ before, (p.1 && p.2) = false)

/-- The results of a SEARCH that found no presence (42_search.md R154). -/
def noPresenceResult : Res := noDeviceResult (packSearch SearchState.s0)

end Sys2Proof.Machine
end

