-- ==== Sys2Proof/Machine/Instances.lean ====
section
/-! DEFINITION. Instantiation of blocks and systems of several blocks (00_scope.md rule R7, 10_state.md rule R40, 20_memory.md rule R63,
60_exceptions.md rule R220). -/

namespace Sys2Proof.Machine

/-- Instantiation of a block beside others (70_reset_and_hazards.md R234 steps 3 and 4): refused for a timing record that breaks
00_scope.md R7 and for a pin in use (60_exceptions.md R220); otherwise the block after block reset. DESIGN CHOICE (assumption 23; safe): where both
hold, the laws are checked first and the refusal is `configBreaksLaws`. -/
def instantiate (others : List State) (cfg : Config) : Host.Outcome State Fault Refusal :=
  if ¬cfg.t.Lawful then .refused .configBreaksLaws
  else if others.any fun s => s.cfg.pin == cfg.pin then .refused .pinInUse
  else .next (State.initial cfg)

/-- A system is a list of instances; the instance at `k` takes a step and no event of it affects another (20_memory.md R63,
60_exceptions.md R220). An index with no instance changes nothing. -/
def stepAt (k : Nat) (sys : List State) : Host.Outcome (List State) Fault Refusal :=
  match sys[k]? with
  | none => .next sys
  | some s =>
    match step s with
    | .next t => .next (sys.set k t)
    | .fault r => .fault r
    | .refused r => .refused r

/-- The instances of a system have distinct pins (60_exceptions.md R220). -/
def pinsDistinct (sys : List State) : Bool := decide (sys.map fun s => s.cfg.pin).Nodup

end Sys2Proof.Machine
end

