-- ==== Sys2Proof/Machine/Run.lean ====
section
/-! DEFINITION. A run of one block, its end, and its observation (70_reset_and_hazards.md rule R236): a block reset followed by a finite
sequence of host commands, and the Search States the host keeps (10_state.md rule R31, 70_reset_and_hazards.md rule R233). -/

namespace Sys2Proof.Machine

/-! ### The host's side -/

/-- The Search States a host holds, each under a name of its own (10_state.md R31; the host variables of 30_encoding.md R88). -/
abbrev HeldStates := List (List Char × PackedSearch)

/-- One command of a run: what the host presents, whether from inside a critical-section window of its own (R243), and the name under which it keeps the
command's `RES.ss`, if it keeps it. -/
structure HostCommand where
  command : Command
  insideWindow : Bool := false
  keepAs : Option (List Char) := none
  deriving DecidableEq, Repr

/-- The value kept under a name; an earlier one under that name is replaced. -/
def holdAs (name : List Char) (p : PackedSearch) (held : HeldStates) : HeldStates :=
  (name, p) :: held.filter fun h => h.1 != name

/-- What the host holds after a command with results `res`: nothing new if it keeps nothing or the command returned no Search State. -/
def keepResult (name : Option (List Char)) (res : Res) (held : HeldStates) : HeldStates :=
  match name, res.ss with
  | some n, some p => holdAs n p held
  | _, _ => held

/-- The host does one thing next. -/
def State.present (s : State) (h : HostInput) : State := { s with inbox := h :: s.inbox }

/-! ### Runs -/

/-- How far a run has come: the block, the `RES` of each command so far in order, and what the host holds. -/
structure RunState where
  state : State
  results : List Res
  held : HeldStates
  deriving DecidableEq, Repr

/-- The run after one more command that left the block in `t`. -/
def RunState.advance (r : RunState) (h : HostCommand) (t : State) : RunState where
  state := t
  results := r.results ++ [t.res]
  held := keepResult h.keepAs t.res r.held

/-- The host issues one command; an event without a step (R236) stops the run. -/
def RunState.issue (r : RunState) (h : HostCommand) : Host.Outcome RunState Fault Refusal :=
  match step (r.state.present (.command h.command h.insideWindow .whole)) with
  | .next t => .next (r.advance h t)
  | .fault f => .fault f
  | .refused f => .refused f

/-- The host issues commands one after the other. -/
def RunState.issueAll : List HostCommand → RunState → Host.Outcome RunState Fault Refusal
  | [], r => .next r
  | h :: rest, r =>
    match r.issue h with
    | .next r' => issueAll rest r'
    | .fault f => .fault f
    | .refused f => .refused f

/-- A run (70_reset_and_hazards.md R236) from any state of the block: block reset, then the commands. The host may hold Search States from before
(R233). -/
def run (held : HeldStates) (commands : List HostCommand) (s : State) : Host.Outcome RunState Fault Refusal :=
  match step (s.present .blockReset) with
  | .next t => RunState.issueAll commands { state := t, results := [], held := held }
  | .fault f => .fault f
  | .refused f => .refused f

/-- The run is at its end: the last command has completed (70_reset_and_hazards.md R236). -/
abbrev RunState.Ended (r : RunState) : Prop := r.state.status.busy = false

/-- The run is clean (70_reset_and_hazards.md R236). -/
abbrev RunState.Clean (r : RunState) : Prop := r.state.status.faulted = false

/-- What is observed of a run at its end (70_reset_and_hazards.md R236): the wire trace, the `RES` fields of each command, `MODE`, and the `RES.ss` values
the host kept. -/
structure Observation where
  trace : List WireEvent
  results : List Res
  mode : Mode
  held : HeldStates
  deriving DecidableEq, Repr

/-- The observation of a run. -/
def RunState.observe (r : RunState) : Observation where
  trace := r.state.trace
  results := r.results
  mode := r.state.mode
  held := r.held

end Sys2Proof.Machine
end

