-- ==== Sys2Proof/Safety.lean ====
section
/-! DEFINITION. The invariant of a block, the state at the end of a command, and the host's enumeration loop
(42_search.md rule R162). Runs and clean runs stand in Machine/Run.lean. -/

namespace Sys2Proof.Machine

/-! ### The invariant -/

/-- The block is idle (10_state.md R24, R36): not busy, no hidden state live, no window open. -/
abbrev State.Idle (s : State) : Prop :=
  s.status.busy = false ∧ s.micro = none ∧ s.inCs = false

/-- `FAULT` and FAULTED agree (10_state.md R24, R25; 60_exceptions.md R200): without a fault `FAULT` is 0; after one it holds a cause, and every
`RES` field holds no value. -/
abbrev State.FaultAgrees (s : State) : Prop :=
  (s.status.faulted = false → s.fault = { code := .none, opc := 0 }) ∧
  (s.status.faulted = true → s.fault.code ≠ .none ∧ s.res = Res.empty)

/-- The pin mode a value of `MODE` stands for (10_state.md R23, 20_memory.md R51). -/
def pinModeOf : Mode → Option PinMode
  | .unknown => none
  | .openDrain => some .openDrain
  | .driven => some .driven

/-- `MODE` is the mode of the trace's last `Cfg` (10_state.md R23, 20_memory.md R51). After a block reset this rests on the trace starting anew
there (assumption 6). -/
abbrev State.TracksPin (s : State) : Prop := (driveOf s.trace).mode = pinModeOf s.mode

/-- The result record is one a command can leave (10_state.md R20, R33 (a)): an address only with `found = 1`, and a Search State whose
index is at most 64. -/
abbrev State.ResultsFit (s : State) : Prop :=
  (s.res.addr.isSome = true → s.res.found = some true) ∧
  (s.res.ss.all fun p => decide ((unpackSearch p).ld ≤ 64)) = true

/-- The trace obeys the bus rules of 20_memory.md R52 (b) and R52 (c), and its windows open and close in turn, one being open exactly while `inCs` is 1
(10_state.md R36 (a), 70_reset_and_hazards.md R240). -/
abbrev State.WireFine (s : State) : Prop :=
  windowScan s.trace = some s.inCs ∧ samplesReleased s.trace = true ∧ neverInput s.trace = true

/-- What holds of a block at every moment, inside a command too. -/
abbrev State.Steady (s : State) : Prop :=
  s.cfg.t.Lawful ∧ s.FaultAgrees ∧ s.TracksPin ∧ s.WireFine ∧ s.ResultsFit

/-- What holds between two commands besides: idle, nothing issued while MODE is Unknown (assumption 6), and the latch at 1 otherwise
(20_memory.md R52 (a)). -/
abbrev State.AtRest (s : State) : Prop :=
  s.Idle ∧ (s.mode = .unknown → s.trace = []) ∧ (s.mode ≠ .unknown → (driveOf s.trace).latch = some true)

/-- What holds between two calls of a command besides: busy and not faulted (10_state.md R24), no result yet (R20), the position is one of the command's
micro-program (R21), and from there the command runs to an end at rest (60_exceptions.md R204). -/
abbrev State.Live (s : State) : Prop :=
  s.status = { busy := true, faulted := false } ∧ s.res = Res.empty ∧ s.rest.isSome = true ∧
  (finishCommand s).Steady ∧ (finishCommand s).AtRest

/-- The invariant of a block. -/
abbrev State.Inv (s : State) : Prop :=
  s.Steady ∧ (s.micro = none → s.AtRest) ∧ (s.micro.isSome = true → s.Live)

/-! ### The end of a command -/

/-- The state after a command from `s` that issued the slots `slots`, left the results `res`, and left the environment as `env`: the slots'
events are appended to the trace (30_encoding.md R95), `MODE` is open-drain if there was a slot (40_transport.md R110), its windows are
closed (40_transport.md R119), the hidden state is discarded (10_state.md R36), and everything else is as in `s`. -/
def finished (s : State) (slots : List Slot) (res : Res) (env : Environment) : State :=
  { s with
    mode := modeAfter s.mode slots
    status := { busy := false, faulted := s.status.faulted }
    res := res
    inCs := inCsAfter s.inCs slots
    micro := none
    trace := s.trace ++ busEvents s.cfg s.mode slots
    environment := env }

/-- The state after POWER or DEPOWER from `s` (41_bus_control.md R133, R134): the latch is written, then the mode, and everything but
the trace, `MODE` and the record is as in `s`. -/
def repowered (s : State) (m : Mode) (p : PinMode) : State :=
  { s with
    mode := m
    status := { busy := false, faulted := s.status.faulted }
    res := Res.empty
    micro := none
    trace := s.trace ++ [.wr s.cfg.pin true, .cfg s.cfg.pin p] }

/-- The commands of a list one after the other (20_memory.md R62): the state at the end, none if one has no next state. -/
def execAll : List Instr → State → Option State
  | [], s => some s
  | i :: rest, s =>
    match exec i s with
    | .next t => execAll rest t
    | .fault _ => none
    | .refused _ => none

/-- The command requests a total delay that only the timing record decides (40_transport.md R117), whatever the state it runs from. -/
def RequestsDelay (i : Instr) (total : Tcfg → Nat) : Prop :=
  ∀ s t : State, s.cfg.t.Lawful → exec i s = .next t →
    ∃ evs, t.trace = s.trace ++ evs ∧ totalDelay evs = total s.cfg.t

/-- Two command sequences complete with the same trace from every state (30_encoding.md R89). -/
def SameTrace (a b : List Instr) : Prop :=
  ∀ s : State, ∃ t u, execAll a s = some t ∧ execAll b s = some u ∧ t.trace = u.trace

/-- The number of polls of a bus reset and its presence sample fit together (41_bus_control.md R135): never idle after `nIdlePolls` samples
of 0, or fewer of them and then the pulse. -/
abbrev ResetShape (t : Tcfg) (lows : Nat) (presence : Option Bit) : Prop :=
  (presence = none ∧ lows = t.nIdlePolls) ∨ (presence.isSome = true ∧ lows < t.nIdlePolls)

/-- The events that EnsureOD issues first (40_transport.md R110): two, unless MODE is OpenDrain. -/
def ensureSize (m : Mode) : Nat := if m = .openDrain then 0 else 2

/-- The slots of a SEARCH whose bus reset saw presence after `lows` samples of 0, and whose walk had the given sample pairs (42_search.md R152, R165). -/
def walkSearchSlots (p : PackedSearch) (lows : Nat) (pairs : List (Bit × Bit)) : List Slot :=
  .reset lows (some false) :: byteSlots 0xF0 ++ walkSlots (Walk.start (unpackSearch p)) pairs

/-- The size of such a SEARCH (42_search.md R165), `e` events of EnsureOD included: its number of events and its requested delay, for a completed walk and
for one that aborts at its last pair. -/
def WalkSearchSize (t : Tcfg) (e lows : Nat) (pairs : List (Bit × Bit)) (evs : List WireEvent) : Prop :=
  let pulse := (lows + 1) * t.tIdlePoll + t.tRstLow + t.tPresence + t.tRecovery + 8 * t.tWSlot
  ((true, true) ∉ pairs → evs.length = e + (9 + 2 * (lows + 1) + 48 + 64 * 22) ∧
    totalDelay evs = pulse + 64 * (2 * t.tRSlot + t.tWSlot)) ∧
  ((true, true) ∈ pairs → evs.length = e + (9 + 2 * (lows + 1) + 48 + (pairs.length - 1) * 22 + 16) ∧
    totalDelay evs = pulse + (pairs.length - 1) * (2 * t.tRSlot + t.tWSlot) + 2 * t.tRSlot)

/-- The size of a bus reset alone (41_bus_control.md R135, 42_search.md R165), `e` events of EnsureOD included. -/
def ResetSize (t : Tcfg) (e lows : Nat) (presence : Option Bit) (evs : List WireEvent) : Prop :=
  if presence = none then evs.length = e + (1 + 2 * lows) ∧ totalDelay evs = lows * t.tIdlePoll
  else
    evs.length = e + (9 + 2 * (lows + 1)) ∧
      totalDelay evs = (lows + 1) * t.tIdlePoll + t.tRstLow + t.tPresence + t.tRecovery

/-- The block accepts a command presented inside the host's window or not (20_memory.md R64, 60_exceptions.md R200, 70_reset_and_hazards.md R243). -/
abbrev State.Accepts (s : State) (insideWindow : Bool) : Prop :=
  s.status.busy = false ∧ s.status.faulted = false ∧ (insideWindow = false ∨ s.cfg.csNestable = true)

/-- The state after a command fault with a cause and an opcode (60_exceptions.md R200). -/
def faultedState (s : State) (code : FaultCode) (opc : Byte) : State :=
  { s with
    res := Res.empty
    fault := { code := code, opc := opc }
    status := { busy := false, faulted := true }
    micro := none }

/-- The fields of `RES` that a command may write (the table of 10_state.md R20). -/
def mayWrite : Instr → List ResField
  | .writeBit _ => []
  | .readBit => [.bit]
  | .writeByte _ => []
  | .readByte => [.byte]
  | .writeBytes _ => []
  | .readBytes _ => [.bytes]
  | .reset => [.present]
  | .select _ => []
  | .skipRom => []
  | .power => []
  | .depower => []
  | .resetSearch => [.ss]
  | .targetSearch _ => [.ss]
  | .search _ => [.found, .addr, .ss]
  | .crc8 _ => [.crc8]
  | .crc16 _ _ => [.crc16]
  | .checkCrc16 _ _ _ _ => [.ok]

/-- The fields of `RES` in which every run of the command leaves a value (the table of 10_state.md R20); SEARCH leaves one in `addr` only with
`found = 1`. -/
def mustWrite : Instr → List ResField
  | .writeBit _ => []
  | .readBit => [.bit]
  | .writeByte _ => []
  | .readByte => [.byte]
  | .writeBytes _ => []
  | .readBytes _ => [.bytes]
  | .reset => [.present]
  | .select _ => []
  | .skipRom => []
  | .power => []
  | .depower => []
  | .resetSearch => [.ss]
  | .targetSearch _ => [.ss]
  | .search _ => [.found, .ss]
  | .crc8 _ => [.crc8]
  | .crc16 _ _ => [.crc16]
  | .checkCrc16 _ _ _ _ => [.ok]

/-- The most collaborator calls a command issues (the table of 70_reset_and_hazards.md R250; RESET's and SEARCH's bounds are its 261 and 1717
for the nominal 125 polls). -/
def callBound (t : Tcfg) : Instr → Nat
  | .writeBit _ => 8
  | .readBit => 10
  | .writeByte _ => 50
  | .readByte => 66
  | .writeBytes data => if data = [] then 0 else 2 + 48 * data.length
  | .readBytes n => if n = 0 then 0 else 2 + 64 * n.toNat
  | .reset => 11 + 2 * t.nIdlePolls
  | .select _ => 434
  | .skipRom => 50
  | .power => 2
  | .depower => 2
  | .resetSearch => 0
  | .targetSearch _ => 0
  | .search _ => 11 + 2 * t.nIdlePolls + 48 + 64 * 22
  | .crc8 _ => 0
  | .crc16 _ _ => 0
  | .checkCrc16 _ _ _ _ => 0

/-- The operation codes that 30_encoding.md R86 reserves. -/
abbrev ReservedCode (code : Byte) : Prop :=
  code = 0x00 ∨ (0x07 ≤ code ∧ code ≤ 0x0F) ∨ (0x15 ≤ code ∧ code ≤ 0x1F) ∨ (0x23 ≤ code ∧ code ≤ 0x2F) ∨ 0x33 ≤ code

/-! ### What the environment has seen at a sample -/

/-- What the environment has seen when a read slot from `s` takes its sample (30_encoding.md R95). -/
def readHistory (s : State) : List WireEvent :=
  s.history ++ ensureEvents s.cfg s.mode ++
    [.csEnter, .wr s.cfg.pin false, .delay s.cfg.t.tRLow, .wr s.cfg.pin true,
      .delay (s.cfg.t.tRSample - s.cfg.t.tRLow)]

/-! ### The host's enumeration loop -/

/-- At most `n` SEARCH commands, each given the `RES.ss` of the one before (70_reset_and_hazards.md R246), until one returns no device: the
addresses returned, the last Search State, and the state of the block. -/
def enumerate : Nat → PackedSearch → State → List Addr × PackedSearch × State
  | 0, p, s => ([], p, s)
  | n + 1, p, s =>
    match exec (.search p) s with
    | .next t =>
      match t.res.addr, t.res.ss with
      | some a, some q =>
        let r := enumerate n q t
        (a :: r.1, r.2)
      | none, some q => ([], q, t)
      | _, none => ([], p, t)
    | .fault _ => ([], p, s)
    | .refused _ => ([], p, s)

end Sys2Proof.Machine
end

