-- ==== Sys2Proof/Certificates/Slice0/Obligations.lean ====
section
/-! DEFINITION. The statements about the model, each from numbered rules of the spec; OBLIGATIONS.json lists them with the rules they
formalise. -/

open Sys2Proof Sys2Proof.Machine

/-! ### Encoding and decoding (30_encoding.md) -/

/-- Decoding the encoding of a well-formed command gives it back, with every operand at every value (R80 to R85). -/
def Obligations.DecodeOfEncodeIsTheCommand : Prop :=
  ∀ i : Instr, i.wellFormed = true → decode (encode i) = .ok i

/-- What decodes is well-formed, and only its own encoding decodes to it: no bit of a word and no operand is ignored (R85). -/
def Obligations.EncodeOfDecodeIsTheWord : Prop :=
  ∀ (c : Command) (i : Instr), decode c = .ok i → i.wellFormed = true ∧ encode i = c

/-- The match and mask words of R85: their values, that a word matches a row exactly when it has the row's code and its must-be-zero fields are zero, and that no word matches two
rows. -/
def Obligations.MatchAndMaskOfEveryRow : Prop :=
  opcodeMap.map (fun r => (r.matchWord, r.maskWord)) =
    [(0x01, 0xFFFFFEFF), (0x02, 0xFFFFFFFF), (0x03, 0xFFFF00FF), (0x04, 0xFFFFFFFF), (0x05, 0x0000FFFF),
      (0x06, 0x0000FFFF), (0x10, 0xFFFFFFFF), (0x11, 0xFFFFFFFF), (0x12, 0xFFFFFFFF), (0x13, 0xFFFFFFFF),
      (0x14, 0xFFFFFFFF), (0x20, 0xFFFFFFFF), (0x21, 0xFFFF00FF), (0x22, 0xFFFFFFFF), (0x30, 0x0000FFFF),
      (0x31, 0x0000FFFF), (0x32, 0x0000FFFF)] ∧
  (∀ r ∈ opcodeMap, ∀ cw : CommandWord,
    cw &&& r.maskWord = r.matchWord ↔ rowOf (opField cw) = some r ∧ fieldsFit r cw = true) ∧
  (∀ r ∈ opcodeMap, ∀ r' ∈ opcodeMap, ∀ cw : CommandWord,
    cw &&& r.maskWord = r.matchWord → cw &&& r'.maskWord = r'.matchWord → r = r')

/-- Six words that the spec writes out (95_test_vectors.md V-D1) decode to the commands they stand for. -/
def Obligations.VectorWordsDecode : Prop :=
  decode { cw := 0x00000101 } = .ok (.writeBit true) ∧
  decode { cw := 0x0000BE03 } = .ok (.writeByte 0xBE) ∧
  decode { cw := 0x00020005, dataIn := some [0x55, 0x01] } = .ok (.writeBytes [0x55, 0x01]) ∧
  decode { cw := 0x00000011, romIn := some 0x9E06050403020128 } = .ok (.select 0x9E06050403020128) ∧
  decode { cw := 0x00002821 } = .ok (.targetSearch 0x28) ∧
  decode
      { cw := 0x00090032
        dataIn := some [0x31, 0x32, 0x33, 0x34, 0x35, 0x36, 0x37, 0x38, 0x39]
        seed := some 0
        rx := some (0xC2, 0x44) } =
    .ok (.checkCrc16 [0x31, 0x32, 0x33, 0x34, 0x35, 0x36, 0x37, 0x38, 0x39] 0 0xC2 0x44)

/-- R86: the codes without a row are exactly the reserved ones, and a command word with one raises ILLEGAL_COMMAND and does nothing
else. -/
def Obligations.ReservedOpcodeRaisesIllegalCommand : Prop :=
  (∀ code : Byte, rowOf code = none ↔ ReservedCode code) ∧
  ∀ (s : State) (c : Command) (w : Bool) (p : Pace) (rest : List HostInput),
    s.inbox = .command c w p :: rest → s.Accepts w → ReservedCode (opField c.cw) →
      step s = .next (faultedState { s with inbox := rest } .illegalCommand (opField c.cw))

/-! ### Steps, faults and block reset (60_exceptions.md, 70_reset_and_hazards.md) -/

/-- When the host's next command is accepted and decodes to `i`, the step is `exec i` on the state with that input taken, or, at the pace of one call a step,
the beginning of `i`, after which each step with no host input is one step of the timing engine (R21); between commands, with no host input, the block is
idle and keeps all its state (R222, R231). The rules say that an accepted command runs to completion (R21, R64). That a step may also run a whole
command, and that the host's input names the pace, is the model's choice (assumption 1); so is that host inputs wait in an inbox, of which each step takes
the oldest (assumption 2). -/
def Obligations.StepRunsTheDecodedCommand : Prop :=
  ∀ (s : State) (c : Command) (w : Bool) (rest : List HostInput) (i : Instr),
    (s.inbox = .command c w .whole :: rest → s.Accepts w → decode c = .ok i →
      step s = exec i { s with inbox := rest }) ∧
    (s.inbox = .command c w .byCall :: rest → s.Accepts w → decode c = .ok i →
      step s = .next (start i { s with inbox := rest })) ∧
    (s.inbox = [] → step s = .next (engineStep s)) ∧
    (s.inbox = [] → s.micro = none → step s = .next s)

/-- R200: a command that does not decode leaves trace, MODE and everything else as it was, RES without a value, and FAULT and STATUS written; after
that every command has no step. -/
def Obligations.MalformedCommandTakesTheFault : Prop :=
  ∀ (s : State) (c : Command) (w : Bool) (p : Pace) (rest : List HostInput) (e : DecodeError),
    s.inbox = .command c w p :: rest → s.Accepts w → decode c = .error e →
      step s = .next (faultedState { s with inbox := rest } (causeOf e) (opField c.cw)) ∧
      causeOf e ≠ .none ∧
      ∀ (c' : Command) (w' : Bool) (p' : Pace) (rest' : List HostInput),
        step { faultedState s (causeOf e) (opField c.cw) with inbox := .command c' w' p' :: rest' } =
          .fault .commandToFaultedBlock

/-- R203, R201: a command reports BAD_SEARCH_STATE exactly when it is SEARCH with every earlier check passed and an index above 64; every other
failing command reports ILLEGAL_COMMAND. -/
def Obligations.BadSearchStateOnlyAfterEveryOtherCheck : Prop :=
  ∀ (c : Command) (e : DecodeError), decode c = .error e →
    (causeOf e = .badSearchState ∨ causeOf e = .illegalCommand) ∧
    (causeOf e = .badSearchState ↔
      ∃ p : PackedSearch, c = { cw := 0x00000022, ssIn := some p } ∧ 64 < (p.extractLsb' 64 7).toNat)

/-- R204: once decoded, a command runs to its end whatever the state: it has a next state, not busy, with no live hidden state and no new fault; and it returns
its results: every field of RES that R20's table gives it holds a value, `addr` exactly with `found = 1`. -/
def Obligations.NoFaultAfterDecode : Prop :=
  ∀ (i : Instr) (s : State), ∃ t, exec i s = .next t ∧ t.status.busy = false ∧ t.micro = none ∧
    t.status.faulted = s.status.faulted ∧ t.fault = s.fault ∧
    (∀ f ∈ mustWrite i, (t.res.read f).isSome = true) ∧
    (∀ p, i = .search p → (t.res.addr.isSome = true ↔ t.res.found = some true)) ∧
    ∀ n, i = .readBytes n → t.res.bytes.map List.length = some n.toNat

/-- R202: FAULTED and FAULT are cleared by block reset and by no other input. -/
def Obligations.FaultIsStickyUntilBlockReset : Prop :=
  (∀ s t : State, step s = .next t → s.status.faulted = true →
    (t.status.faulted = true ∧ t.fault = s.fault) ∨ ∃ rest, s.inbox = .blockReset :: rest) ∧
  (∀ (s : State) (rest : List HostInput), s.inbox = .blockReset :: rest → s.status.busy = false →
    ∃ t, step s = .next t ∧ t.status.faulted = false ∧ t.fault = { code := .none, opc := 0 })

/-- R230: block reset, while not busy, sets every register and hidden variable to the value of R39, issues no collaborator call and keeps the configuration; while busy
it has no step. That the trace starts anew and its past is kept in `earlier` is the model's reading (assumption 6). -/
def Obligations.BlockResetSetsTheResetValues : Prop :=
  ∀ (s : State) (rest : List HostInput), s.inbox = .blockReset :: rest →
    (s.status.busy = true → step s = .fault .blockResetWhileBusy) ∧
    (s.status.busy = false →
      step s = .next
        { s with
          mode := .unknown, status := { busy := false, faulted := false }, fault := { code := .none, opc := 0 }
          res := Res.empty, inCs := false, micro := none
          trace := [], earlier := s.earlier ++ s.trace, inbox := rest })

/-- R39: what the registers read and hold right after block reset, and the constant tables' sizes. -/
def Obligations.ResetStateHoldsTheResetValues : Prop :=
  State.reset.modeReg = 0 ∧ State.reset.statusReg = 0x00000000 ∧ State.reset.faultReg = 0x00000000 ∧
  (∀ f : ResField, State.reset.res.read f = none) ∧ State.reset.inCs = false ∧ State.reset.micro = none ∧
  State.reset.trace = [] ∧ crc8Table.length = 256 ∧ oddParity.length = 16

/-- R236, R243: the events that have no step: a command while busy, to a faulted block, or from inside the host's window where the critical section does not
nest; and block reset while busy. That each is a fault of the model under a name of its own is the model's (assumption 7), and so is which
name it has where several reasons hold (assumption 23). And what a run without one
is: block reset, then each command's step in order, with the RES of each and the Search States the host keeps; at its end it is not busy, and it is clean
exactly if all its commands decode. These run clauses rest on the model's choices: a run's commands are taken whole (assumption 1), the trace starts anew at
the block reset (assumption 6), the host keeps Search States under names, and a run stops with the fault of the model at an event without a step
(assumptions 21 and 7). Of a run that holds such an event R236 makes no claim; the last clause says only what the model's `run` answers there. -/
def Obligations.EventsWithoutAStep : Prop :=
  (∀ (s : State) (rest : List HostInput),
    (∀ (c : Command) (w : Bool) (p : Pace), s.inbox = .command c w p :: rest →
      (s.status.busy = true → step s = .fault .commandWhileBusy) ∧
      (s.status.busy = false → s.status.faulted = true → step s = .fault .commandToFaultedBlock) ∧
      (s.status.busy = false → s.status.faulted = false → w = true → s.cfg.csNestable = false →
        step s = .fault .commandInsideHostWindow)) ∧
    (s.inbox = .blockReset :: rest → s.status.busy = true → step s = .fault .blockResetWhileBusy)) ∧
  ∀ (held : HeldStates) (s : State),
    (s.status.busy = false → run held [] s = .next { state := blockReset s, results := [], held := held }) ∧
    ∀ (cmds : List HostCommand) (r : RunState), run held cmds s = .next r →
      r.Ended ∧ r.results.length = cmds.length ∧ (r.Clean ↔ ∀ h ∈ cmds, ∃ i, decode h.command = .ok i) ∧
      r.observe = { trace := r.state.trace, results := r.results, mode := r.state.mode, held := r.held } ∧
      ∀ h : HostCommand,
        (∀ t, step (r.state.present (.command h.command h.insideWindow .whole)) = .next t →
          run held (cmds ++ [h]) s =
            .next { state := t, results := r.results ++ [t.res], held := keepResult h.keepAs t.res r.held }) ∧
        ∀ f, step (r.state.present (.command h.command h.insideWindow .whole)) = .fault f →
          run held (cmds ++ [h]) s = .fault f

/-- R20, R218: between commands a host read delivers the value and changes nothing else, and a read of a RES field that holds no value is a fault; each name
reads the field or register of that name. While a command is live a read waits and the timing engine goes on (R64). Where the value goes is the model's
port, and that a read waits is its reading of R64 (assumption 8). -/
def Obligations.HostReadDeliversOrFaults : Prop :=
  (∀ r : Res,
    r.read .bit = r.bit.map .bit ∧ r.read .byte = r.byte.map .byte ∧ r.read .bytes = r.bytes.map .bytes ∧
    r.read .present = r.present.map .bit ∧ r.read .crc8 = r.crc8.map .byte ∧ r.read .crc16 = r.crc16.map .half ∧
    r.read .ok = r.ok.map .bit ∧ r.read .found = r.found.map .bit ∧ r.read .addr = r.addr.map .addr ∧
    r.read .ss = r.ss.map .packed) ∧
  (∀ s : State,
    s.readReg .mode = .mode s.modeReg ∧ s.readReg .status = .word s.statusReg ∧
    s.readReg .fault = .word s.faultReg) ∧
  ∀ (s : State) (rest : List HostInput),
    (∀ f : ResField, s.inbox = .readRes f :: rest → s.micro = none →
      (s.res.read f = none → step s = .fault (.readOfNoValue f)) ∧
      (∀ v, s.res.read f = some v → step s = .next { s with inbox := rest, hostGot := some v })) ∧
    (∀ r : HostReg, s.inbox = .readReg r :: rest → s.micro = none →
      step s = .next { s with inbox := rest, hostGot := some (s.readReg r) }) ∧
    (s.micro.isSome = true →
      (∀ f : ResField, s.inbox = .readRes f :: rest → step s = .next (engineStep s)) ∧
      ∀ r : HostReg, s.inbox = .readReg r :: rest → step s = .next (engineStep s))

/-- R23, R24, R25, R201: the bits of MODE, STATUS and FAULT as the host reads them, with the values of the fault causes; reserved bits read 0 and MODE is
never 3. -/
def Obligations.RegisterBitsAsRead : Prop :=
  (FaultCode.encoding .none = 0x00 ∧ FaultCode.encoding .illegalCommand = 0x01 ∧
    FaultCode.encoding .badSearchState = 0x02) ∧
  ∀ s : State,
    (s.statusReg.getLsbD 0 = s.status.busy ∧ s.statusReg.getLsbD 1 = s.status.faulted ∧
      ∀ k, 2 ≤ k → s.statusReg.getLsbD k = false) ∧
    (s.faultReg.extractLsb' 0 8 = s.fault.code.encoding ∧ s.faultReg.extractLsb' 8 8 = s.fault.opc ∧
      ∀ k, 16 ≤ k → s.faultReg.getLsbD k = false) ∧
    (s.modeReg = 0 ↔ s.mode = .unknown) ∧ (s.modeReg = 1 ↔ s.mode = .openDrain) ∧
    (s.modeReg = 2 ↔ s.mode = .driven) ∧ s.modeReg ≠ 3

/-! ### Transport (40_transport.md) -/

/-- R111 with R110: WRITE_BIT's calls, one by one, after EnsureOD's; MODE ends open-drain, RES holds no value, and everything else but the environment is
as before. -/
def Obligations.WriteBitIssuesOneWriteSlot : Prop :=
  ∀ (v : Bit) (s : State),
    exec (.writeBit v) s = .next
      { s with
        mode := .openDrain
        status := { busy := false, faulted := s.status.faulted }
        res := Res.empty
        inCs := false
        micro := none
        trace := s.trace ++
          (if s.mode = .openDrain then [] else [.wr s.cfg.pin true, .cfg s.cfg.pin .openDrain]) ++
          [.csEnter, .wr s.cfg.pin false, .delay (if v then s.cfg.t.tW1Low else s.cfg.t.tW0Low),
            .wr s.cfg.pin true, .csExit, .delay (if v then s.cfg.t.tW1Rel else s.cfg.t.tW0Rel)]
        environment := s.environment.afterWrite v }

/-- R112 with R110: READ_BIT's calls, one by one; `RES.bit` is exactly the level the environment answers, and the trace records it. -/
def Obligations.ReadBitIssuesOneReadSlot : Prop :=
  ∀ (s : State) (l : Bit) (env : Environment),
    s.environment.answer .readSlot s.world (readHistory s) = (l, env) →
    exec .readBit s = .next
      { s with
        mode := .openDrain
        status := { busy := false, faulted := s.status.faulted }
        res := { Res.empty with bit := some l }
        inCs := false
        micro := none
        trace := s.trace ++
          (if s.mode = .openDrain then [] else [.wr s.cfg.pin true, .cfg s.cfg.pin .openDrain]) ++
          [.csEnter, .wr s.cfg.pin false, .delay s.cfg.t.tRLow, .wr s.cfg.pin true,
            .delay (s.cfg.t.tRSample - s.cfg.t.tRLow), .rd s.cfg.pin l, .csExit,
            .delay (s.cfg.t.tRSlot - s.cfg.t.tRSample)]
        environment := env }

/-- R113, R54: WRITE_BYTE is eight write slots, bit 0 first; EnsureOD's events come once, and nothing else changes. -/
def Obligations.WriteByteSendsBitZeroFirst : Prop :=
  ∀ (b : Byte) (s : State),
    exec (.writeByte b) s = .next (finished s
      [.write (b.getLsbD 0), .write (b.getLsbD 1), .write (b.getLsbD 2), .write (b.getLsbD 3),
        .write (b.getLsbD 4), .write (b.getLsbD 5), .write (b.getLsbD 6), .write (b.getLsbD 7)]
      Res.empty (s.environment.afterWrites (bitsLsbFirst b)))

/-- R114, R54: READ_BYTE is eight read slots, the first sample in bit 0, whatever the environment answers; with the draws of any byte given in time
order it reads that byte. -/
def Obligations.ReadByteStoresFirstSampleInBitZero : Prop :=
  (∀ s : State, ∃ (b : Byte) (env : Environment),
    exec .readByte s = .next (finished s
      [.read (b.getLsbD 0), .read (b.getLsbD 1), .read (b.getLsbD 2), .read (b.getLsbD 3),
        .read (b.getLsbD 4), .read (b.getLsbD 5), .read (b.getLsbD 6), .read (b.getLsbD 7)]
      { Res.empty with byte := some b } env)) ∧
  ∀ (s : State) (b : Byte) (rest : List Bit), s.environment = .draws (bitsLsbFirst b ++ rest) →
    exec .readByte s = .next
      (finished s ((bitsLsbFirst b).map .read) { Res.empty with byte := some b } (.draws rest))

/-- R115: WRITE_BYTES sends its bytes in buffer order; with no byte it issues no call and leaves MODE. -/
def Obligations.WriteBytesSendsInOrder : Prop :=
  (∀ (data : List Byte) (s : State),
    exec (.writeBytes data) s = .next
      (finished s (bytesSlots data) Res.empty (s.environment.afterWrites (data.flatMap bitsLsbFirst)))) ∧
  ∀ (s t : State), exec (.writeBytes []) s = .next t → t.trace = s.trace ∧ t.mode = s.mode

/-- R116: READ_BYTES reads `LEN` bytes in order, byte `j` from slots `8j` to `8j + 7`, whatever the environment answers; with the draws of any sequence of that length it
reads that sequence. -/
def Obligations.ReadBytesReadsInOrder : Prop :=
  (∀ (n : U16) (s : State), ∃ (d : List Byte) (env : Environment), d.length = n.toNat ∧
    exec (.readBytes n) s = .next
      (finished s ((d.flatMap bitsLsbFirst).map .read) { Res.empty with bytes := some d } env)) ∧
  ∀ (n : U16) (s : State) (d : List Byte) (rest : List Bit), d.length = n.toNat →
    s.environment = .draws (d.flatMap bitsLsbFirst ++ rest) →
    exec (.readBytes n) s = .next
      (finished s ((d.flatMap bitsLsbFirst).map .read) { Res.empty with bytes := some d } (.draws rest))

/-- R117: the total delay each transport command requests depends only on its opcode and `LEN`. -/
def Obligations.TransportDelaysAreFixed : Prop :=
  (∀ v, RequestsDelay (.writeBit v) fun t => t.tWSlot) ∧
  RequestsDelay .readBit (fun t => t.tRSlot) ∧
  (∀ b, RequestsDelay (.writeByte b) fun t => 8 * t.tWSlot) ∧
  RequestsDelay .readByte (fun t => 8 * t.tRSlot) ∧
  (∀ data : List Byte, RequestsDelay (.writeBytes data) fun t => 8 * data.length * t.tWSlot) ∧
  ∀ n : U16, RequestsDelay (.readBytes n) fun t => 8 * n.toNat * t.tRSlot

/-- R89: the derived trace equivalences of SELECT, SKIP_ROM, WRITE_BYTE and READ_BYTE. -/
def Obligations.TraceEquivalences : Prop :=
  (∀ rom : Addr, SameTrace [.select rom] [.writeByte 0x55, .writeBytes (bytesLe rom)]) ∧
  SameTrace [.skipRom] [.writeByte 0xCC] ∧
  (∀ b : Byte, SameTrace [.writeByte b] ((bitsLsbFirst b).map .writeBit)) ∧
  SameTrace [.readByte] (List.replicate 8 .readBit)

/-! ### Bus control (41_bus_control.md) -/

/-- R130, R135: RESET is one bus reset with one of three outcomes; its `present`, its requested delay and its pulse are those of the table, and each outcome comes about under the draws
that call for it. -/
def Obligations.ResetHasThreeOutcomes : Prop :=
  (∀ s : State, ∃ (lows : Nat) (presence : Option Bit) (env : Environment),
    ResetShape s.cfg.t lows presence ∧
    exec .reset s = .next
      (finished s [.reset lows presence] { Res.empty with present := some (presence == some false) } env) ∧
    totalDelay (slotEvents s.cfg [.reset lows presence]) =
      (if presence = none then s.cfg.t.nIdlePolls * s.cfg.t.tIdlePoll
        else (lows + 1) * s.cfg.t.tIdlePoll + s.cfg.t.tRstLow + s.cfg.t.tPresence + s.cfg.t.tRecovery)) ∧
  (∀ (s : State) (rest : List Bit),
    s.environment = .draws (List.replicate s.cfg.t.nIdlePolls false ++ rest) →
    exec .reset s = .next
      (finished s [.reset s.cfg.t.nIdlePolls none] { Res.empty with present := some false } (.draws rest))) ∧
  ∀ (s : State) (lows : Nat) (p : Bit) (rest : List Bit), lows < s.cfg.t.nIdlePolls →
    s.environment = .draws (List.replicate lows false ++ true :: p :: rest) →
    exec .reset s = .next
      (finished s [.reset lows (some p)] { Res.empty with present := some (!p) } (.draws rest))

/-- R136: every path of RESET that sends the pulse ends with the pulse outside the window, the window, and the full recovery delay; a path without the pulse opens no
window and reports no presence. -/
def Obligations.ResetPulseIsFollowedByRecovery : Prop :=
  ∀ (s t : State) (evs : List WireEvent), exec .reset s = .next t → t.trace = s.trace ++ evs →
    (.wr s.cfg.pin false ∈ evs →
      ∃ (before : List WireEvent) (p : Bit), .csEnter ∉ before ∧ t.res.present = some (!p) ∧
        evs = before ++
          [.wr s.cfg.pin false, .delay s.cfg.t.tRstLow, .csEnter, .wr s.cfg.pin true, .delay s.cfg.t.tPresence,
            .rd s.cfg.pin p, .csExit, .delay s.cfg.t.tRecovery]) ∧
    (.wr s.cfg.pin false ∉ evs → .csEnter ∉ evs ∧ t.res.present = some false)

/-- R131, R55: SELECT sends Match ROM and then the address bytes, family code first, and nothing else changes. -/
def Obligations.SelectSendsMatchRomAndTheAddress : Prop :=
  ∀ (rom : Addr) (s : State),
    exec (.select rom) s = .next (finished s
      (bytesSlots [0x55, rom.extractLsb' 0 8, rom.extractLsb' 8 8, rom.extractLsb' 16 8, rom.extractLsb' 24 8,
        rom.extractLsb' 32 8, rom.extractLsb' 40 8, rom.extractLsb' 48 8, rom.extractLsb' 56 8])
      Res.empty (s.environment.afterWrites ((0x55 :: bytesLe rom : List Byte).flatMap bitsLsbFirst)))

/-- R132, R97: SKIP_ROM sends the slots of 0xCC. -/
def Obligations.SkipRomSendsItsByte : Prop :=
  ∀ s : State,
    exec .skipRom s = .next (finished s
      [.write false, .write false, .write true, .write true, .write false, .write false, .write true, .write true]
      Res.empty (s.environment.afterWrites (bitsLsbFirst 0xCC)))

/-- R133, R134: POWER and DEPOWER write the latch, then the mode, from every MODE, and change nothing else but MODE and RES; a slot after POWER returns the
pin to open-drain mode first (R110). -/
def Obligations.PowerAndDepowerSetTheMode : Prop :=
  ∀ s : State,
    exec .power s = .next (repowered s .driven .driven) ∧
    exec .depower s = .next (repowered s .openDrain .openDrain) ∧
    ∀ v : Bit, ∃ t, execAll [.power, .writeBit v] s = some t ∧ t.mode = .openDrain ∧
      t.trace = s.trace ++
        [.wr s.cfg.pin true, .cfg s.cfg.pin .driven, .wr s.cfg.pin true, .cfg s.cfg.pin .openDrain] ++
        slotEvents s.cfg [.write v]

/-- R150, R151: the packed Search States that RESET_SEARCH and TARGET_SEARCH return, with no call and nothing else changed. -/
def Obligations.FreshSearchStates : Prop :=
  ∀ s : State,
    exec .resetSearch s = .next (finished s [] { Res.empty with ss := some 0 } s.environment) ∧
    ∀ fam : Byte,
      exec (.targetSearch fam) s = .next
        (finished s [] { Res.empty with ss := some (0x40#8 ++ 0#56 ++ fam : BitVec 72) } s.environment)

/-- R153: an exhausted Search State gives no device and comes back unchanged, with no call. -/
def Obligations.ExhaustedSearchTouchesNothing : Prop :=
  ∀ (p : PackedSearch) (s : State), p.getLsbD 71 = true →
    exec (.search p) s = .next
      (finished s [] { Res.empty with found := some false, ss := some p } s.environment)

/-- R154: where the bus reset gives no presence, SEARCH is that bus reset alone, with no device and the initial Search State. -/
def Obligations.SearchWithoutPresenceIsTheResetAlone : Prop :=
  ∀ (p : PackedSearch) (s t : State), p.getLsbD 71 = false → exec .reset s = .next t → t.res.present = some false →
    exec (.search p) s = .next { t with res := { Res.empty with found := some false, ss := some 0 } }

/-- R152: whatever the environment answers, SEARCH is its bus reset, and with presence the Search ROM byte and the walk of its sample pairs, with that walk's
result. -/
def Obligations.SearchIsTheWalkOfItsSamples : Prop :=
  ∀ (p : PackedSearch) (s : State), p.getLsbD 71 = false →
    ∃ (lows : Nat) (presence : Option Bit) (env : Environment), ResetShape s.cfg.t lows presence ∧
      ((presence ≠ some false ∧
          exec (.search p) s = .next (finished s [.reset lows presence] noPresenceResult env)) ∨
        (presence = some false ∧ ∃ pairs : List (Bit × Bit), IsWalk 64 pairs ∧
          exec (.search p) s = .next
            (finished s
              (.reset lows presence :: byteSlots 0xF0 ++ walkSlots (Walk.start (unpackSearch p)) pairs)
              (walkResult (walkOver (Walk.start (unpackSearch p)) pairs)) env)))

/-- R152: under explicit draws SEARCH takes exactly the walk that they spell. -/
def Obligations.SearchFollowsExplicitDraws : Prop :=
  ∀ (p : PackedSearch) (s : State) (lows : Nat) (pairs : List (Bit × Bit)) (rest : List Bit),
    p.getLsbD 71 = false → lows < s.cfg.t.nIdlePolls → IsWalk 64 pairs →
    s.environment = .draws (List.replicate lows false ++ true :: false :: (walkSamples pairs ++ rest)) →
    exec (.search p) s = .next
      (finished s
        (.reset lows (some false) :: byteSlots 0xF0 ++ walkSlots (Walk.start (unpackSearch p)) pairs)
        (walkResult (walkOver (Walk.start (unpackSearch p)) pairs)) (.draws rest))

/-- R152, R155: after a walk of 64 positions, bit `pos` of the ROM buffer is the direction its pair gives, and the last zero is the last position at which a discrepancy took 0, or
0 if there was none. -/
def Obligations.CompletedWalkBitsAndLastZero : Prop :=
  ∀ (ss : SearchState) (pairs : List (Bit × Bit)), pairs.length = 64 → (true, true) ∉ pairs →
    let w := walkOver (Walk.start ss) pairs
    (∀ (pos : Nat) (id cmp : Bit), 1 ≤ pos → pairs[pos - 1]? = some (id, cmp) →
      romBit w.s.rom pos = if id ≠ cmp then id else if pos < ss.ld then romBit ss.rom pos else decide (pos = ss.ld)) ∧
    (w.lastZero ≠ 0 → pairs[w.lastZero - 1]? = some (false, false) ∧ romBit w.s.rom w.lastZero = false) ∧
    w.lastZero ≤ 64 ∧
    ∀ pos : Nat, w.lastZero < pos → pairs[pos - 1]? = some (false, false) → romBit w.s.rom pos = true

/-- R155, R156, R157: the result of a walk: an abort and a zero family code give no device and the initial state; otherwise the address, with the last zero as the new index and the flag set exactly
if it is 0. -/
def Obligations.WalkOutcomes : Prop :=
  ∀ (ss : SearchState) (pairs : List (Bit × Bit)), ss.ldf = false → IsWalk 64 pairs →
    let w := walkOver (Walk.start ss) pairs
    ((true, true) ∈ pairs → walkResult w = { Res.empty with found := some false, ss := some 0 }) ∧
    ((true, true) ∉ pairs → w.s.rom.extractLsb' 0 8 = 0 →
      walkResult w = { Res.empty with found := some false, ss := some 0 }) ∧
    ((true, true) ∉ pairs → w.s.rom.extractLsb' 0 8 ≠ 0 →
      walkResult w =
        { Res.empty with
          found := some true
          addr := some w.s.rom
          ss := some (packSearch { rom := w.s.rom, ld := w.lastZero, ldf := decide (w.lastZero = 0) }) })

/-- R33: from a Search State with an index of at most 64 (and index 0 if exhausted), SEARCH returns one with an index of at most 64, and index 0 if
exhausted. -/
def Obligations.SearchKeepsTheIndexInRange : Prop :=
  ∀ (p : PackedSearch) (s t : State), (unpackSearch p).ld ≤ 64 →
    ((unpackSearch p).ldf = true → (unpackSearch p).ld = 0) → exec (.search p) s = .next t →
    ∃ q, t.res.ss = some q ∧ (unpackSearch q).ld ≤ 64 ∧ ((unpackSearch q).ldf = true → (unpackSearch q).ld = 0)

/-- R159: with index 0, the ROM buffer of a Search State that is not exhausted has no effect on SEARCH, whatever the environment. -/
def Obligations.RomBufferUnobservableAtIndexZero : Prop :=
  ∀ (p p' : PackedSearch) (s : State), (unpackSearch p).ld = 0 → (unpackSearch p').ld = 0 →
    (unpackSearch p).ldf = false → (unpackSearch p').ldf = false → exec (.search p) s = exec (.search p') s

/-- R165: what SEARCH adds to the trace from every state with a lawful timing, in number of calls and requested delay: nothing on the exhausted path; EnsureOD's
calls and the bus reset alone without presence; with presence EnsureOD's calls (two unless MODE is OpenDrain, V-S16), the bus reset, 0xF0 and its walk, completed
or aborted at position `q = pairs.length`. The sizes hold of the slots of every walk, whatever SEARCH it belongs to. -/
def Obligations.SearchTraceSizes : Prop :=
  (∀ (p : PackedSearch) (s : State), s.cfg.t.Lawful →
    ∃ t evs, exec (.search p) s = .next t ∧ t.trace = s.trace ++ evs ∧
      (p.getLsbD 71 = true → evs = []) ∧
      (p.getLsbD 71 = false → ∃ (lows : Nat) (presence : Option Bit), ResetShape s.cfg.t lows presence ∧
        (presence ≠ some false →
          evs = ensureEvents s.cfg s.mode ++ slotEvents s.cfg [.reset lows presence] ∧
            ResetSize s.cfg.t (ensureSize s.mode) lows presence evs) ∧
        (presence = some false → ∃ pairs : List (Bit × Bit), IsWalk 64 pairs ∧
          evs = ensureEvents s.cfg s.mode ++ slotEvents s.cfg (walkSearchSlots p lows pairs) ∧
            WalkSearchSize s.cfg.t (ensureSize s.mode) lows pairs evs))) ∧
  ∀ (c : Config) (p : PackedSearch) (lows : Nat) (pairs : List (Bit × Bit)), c.t.Lawful → IsWalk 64 pairs →
    WalkSearchSize c.t 0 lows pairs (slotEvents c (walkSearchSlots p lows pairs))

/-- R157, R162 for one device: on the reference bus with one device of non-zero family code, SEARCH from the initial state finds it and is then exhausted, and
the next SEARCH finds none. -/
def Obligations.LoneDeviceIsFoundOnce : Prop :=
  ∀ (a : Addr) (script : List Bit) (phase : BusPhase) (s : State), 1 ≤ s.cfg.t.nIdlePolls → a.extractLsb' 0 8 ≠ 0 →
    s.environment = .refBus { devices := [a], script := script, phase := phase } →
    ∃ t, exec (.search 0) s = .next t ∧
      t.res = { Res.empty with found := some true, addr := some a, ss := some (0x80#8 ++ a : BitVec 72) } ∧
      ∃ u, exec (.search (0x80#8 ++ a : BitVec 72)) t = .next u ∧ u.res.found = some false ∧ u.trace = t.trace

/-- R162: on the reference bus with a non-empty set of distinct devices of non-zero family codes, the enumeration from the initial state returns every address exactly once, in ascending order of the
bit-reversed addresses, then no device, and is exhausted. -/
def Obligations.EnumerationReturnsEveryDeviceOnce : Prop :=
  ∀ (devices : List Addr) (script : List Bit) (phase : BusPhase) (s : State), s.cfg.t.Lawful →
    s.environment = .refBus { devices := devices, script := script, phase := phase } →
    devices ≠ [] → devices.Nodup → (∀ a ∈ devices, a.extractLsb' 0 8 ≠ 0) →
    ∃ (found : List Addr) (q : PackedSearch) (t : State),
      enumerate (devices.length + 1) 0 s = (found, q, t) ∧
      found.Perm devices ∧ found.Pairwise (fun a b => a.reverse.toNat < b.reverse.toNat) ∧
      t.res.found = some false ∧ (unpackSearch q).ldf = true

/-- R247: an enumeration need not end: for every number of steps there are draws under which each of them returns the device of
95_test_vectors.md V-S14. -/
def Obligations.EnumerationNeedNotEnd : Prop :=
  ∀ (n : Nat), ∃ ahead : List Bit, ∀ s : State, s.cfg.t.Lawful → s.environment = .draws ahead →
    (enumerate n 0x400000000000000002 s).1 = List.replicate n 0x0000000000000002

/-! ### Integrity codecs (43_crc.md) -/

/-- R185, R182: CRC8 returns the CRC-8 of its data by either method, with no call and nothing else changed. -/
def Obligations.Crc8CommandByEitherMethod : Prop :=
  ∀ (data : List Byte) (s : State),
    exec (.crc8 data) s = .next (finished s [] { Res.empty with crc8 := some (crc8 data) } s.environment)

/-- R186, R187: CRC16 returns the CRC-16 from the seed; CHECK_CRC16 returns 1 exactly if the two bytes, low byte first, are the inverted CRC; no call, and nothing else
changed. -/
def Obligations.Crc16CommandsCompleteWithTheirResults : Prop :=
  ∀ (data : List Byte) (seed : U16) (s : State),
    exec (.crc16 data seed) s = .next
      (finished s [] { Res.empty with crc16 := some (crc16 data seed) } s.environment) ∧
    ∀ rx0 rx1 : Byte,
      exec (.checkCrc16 data seed rx0 rx1) s = .next
        (finished s [] { Res.empty with ok := some (decide (~~~crc16 data seed = (rx1 ++ rx0 : BitVec 16))) }
          s.environment)

/-- R181, R184: the constant tables are what their rules define them to be. -/
def Obligations.ConstantTablesMeetTheirRules : Prop :=
  crc8Table.length = 256 ∧ oddParity.length = 16 ∧ (∀ k < 256, crc8Table[k]? = some (crc8 [BitVec.ofNat 8 k])) ∧
  ∀ k < 16, oddParity[k]? = some (decide ((List.range 4).countP (fun i => k.testBit i) % 2 = 1))

/-- R182: one byte of the bitwise method is one table lookup, for every accumulator and byte, so the two methods agree on every sequence and the configured
method does not show. -/
def Obligations.TableMethodEqualsBitwise : Prop :=
  (∀ crc b : Byte, crc8Table[(crc ^^^ b).toNat]? = some (step8 crc b)) ∧
  (∀ d : List Byte, crc8ByTable d = crc8 d) ∧ ∀ (m m' : Crc8Impl) (d : List Byte), crc8With m d = crc8With m' d

/-- R188: one byte of CRC-16 is eight rounds of the reflected polynomial 0xA001, for every accumulator and byte. -/
def Obligations.Crc16ByteIsTheReflectedCrc : Prop :=
  ∀ (crc : U16) (b : Byte),
    step16 crc b =
      (fun c : U16 => if c.getLsbD 0 then (c >>> 1) ^^^ 0xA001 else c >>> 1)^[8] (crc ^^^ b.setWidth 16)

/-- R189: the CRC-8 of no byte is 0, a sequence followed by its CRC-8 has CRC-8 0, and a ROM address is valid exactly if all its eight bytes have CRC-8 0. -/
def Obligations.Crc8SelfCheck : Prop :=
  crc8 [] = 0x00 ∧ (∀ d : List Byte, crc8 (d ++ [crc8 d]) = 0x00) ∧
  ∀ a : Addr, validRom a = true ↔ crc8 (bytesLe a) = 0x00

/-- R190 (a) to (d): CRC-16 of no byte, of a concatenation, of zeros, and that CHECK_CRC16 accepts the inverted CRC. -/
def Obligations.Crc16Laws : Prop :=
  (∀ s : U16, crc16 [] s = s) ∧
  (∀ (d e : List Byte) (s : U16), crc16 (d ++ e) s = crc16 e (crc16 d s)) ∧
  (∀ n : Nat, crc16 (List.replicate n 0x00) 0x0000 = 0x0000) ∧
  ∀ (d : List Byte) (seed : U16) (s : State), ∃ t,
    exec (.checkCrc16 d seed ((~~~crc16 d seed).extractLsb' 0 8) ((~~~crc16 d seed).extractLsb' 8 8)) s = .next t ∧
      t.res.ok = some true

/-- R190 (e): flipping any single bit of the data while keeping the received bytes makes CHECK_CRC16 return 0. -/
def Obligations.Crc16DetectsEverySingleBitError : Prop :=
  ∀ (d e : List Byte) (b : Byte) (k : Nat) (seed : U16) (s : State), k < 8 →
    let c := ~~~crc16 (d ++ b :: e) seed
    ∃ t, exec (.checkCrc16 (d ++ (b ^^^ (1#8 <<< k)) :: e) seed (c.extractLsb' 0 8) (c.extractLsb' 8 8)) s = .next t ∧
      t.res.ok = some false

/-- R191: the codecs never fault, issue no call, and their results depend on their operands alone, not on the state, its configuration or its trace. A command
fault is a next state in this model, so that none is raised is said of FAULTED and FAULT. -/
def Obligations.CodecsDependOnOperandsAlone : Prop :=
  ∀ (data : List Byte) (seed : U16) (rx0 rx1 : Byte),
    ∀ i ∈ [Instr.crc8 data, .crc16 data seed, .checkCrc16 data seed rx0 rx1], ∀ s s' : State,
      ∃ t t', exec i s = .next t ∧ exec i s' = .next t' ∧ t.res = t'.res ∧
        t.status.faulted = s.status.faulted ∧ t.fault = s.fault ∧
        t.trace = s.trace ∧ t.mode = s.mode ∧ t.environment = s.environment

/-! ### The whole machine -/

/-- The invariant of a block holds after block reset (R39), for every configuration that instantiation admits (R7), and so in
`State.reset`, whose configuration is the model's choice (assumption 5). -/
def Obligations.InvariantHoldsAtReset : Prop :=
  (∀ cfg : Config, cfg.t.Lawful → (State.initial cfg).Inv) ∧ State.reset.Inv

/-- Every step keeps the invariant, a step inside a command too: at every moment the configuration's laws (R7), the fault registers (R24, R25, R200), MODE
as the trace's pin mode (R23, R51), samples and no input mode (R52), windows that open and close in turn with `inCs` (R36, R240), and results (R20, R33);
between commands idleness (R24, R36, R240) and the latch at 1 (R52); inside a command BUSY, no fault, no result yet, a position of the command's
micro-program (R21), and an end that is at rest (R204). Two clauses rest on the model's own choice: that nothing is issued while MODE is Unknown, and that
MODE is the trace's pin mode, hold after a block reset because the trace starts anew there (assumption 6; program P5 of 95_test_vectors.md reads
otherwise). That a step may run a whole command is assumption 1. -/
def Obligations.EveryStepKeepsTheInvariant : Prop :=
  ∀ s t : State, s.Inv → step s = .next t → t.Inv

/-- R240, R119: on every path of every command from every state, the windows it opens are closed, one at a time, and it is outside one at its end if it was at its start. -/
def Obligations.EveryCommandClosesItsWindows : Prop :=
  ∀ (i : Instr) (s t : State), exec i s = .next t →
    (∃ evs, t.trace = s.trace ++ evs ∧ windowsBalanced evs = true) ∧ (s.inCs = false → t.inCs = false)

/-- R241: no delay a command requests inside a window is longer than the longest of R241's four or the read slot's low time, which R241 does not list
(assumption 20); with the nominal timing that is 70. -/
def Obligations.WindowDelaysAreBounded : Prop :=
  (∀ (i : Instr) (s t : State), exec i s = .next t →
    ∃ evs, t.trace = s.trace ++ evs ∧
      ∀ n ∈ windowDelays false evs, n ≤ max (longestWindowDelay s.cfg.t) s.cfg.t.tRLow) ∧
  max (longestWindowDelay Tcfg.nominal) Tcfg.nominal.tRLow = 70

/-- R21, R250, R24: every command issues at most the table's number of calls, and begun at the pace of one call a step it takes exactly that many steps of the
timing engine, each issuing the next of its calls with the position counting them, BUSY set and no result until the last, and then it is where the whole
command is. The two paces are the model's (assumption 1). -/
def Obligations.CallsAreBounded : Prop :=
  ∀ (i : Instr) (s t : State), exec i s = .next t →
    ∃ evs, t.trace = s.trace ++ evs ∧ evs.length ≤ callBound s.cfg.t i ∧
      engineStep^[evs.length] (start i s) = t ∧
      ∀ k < evs.length, (engineStep^[k] (start i s)).status.busy = true ∧
        (engineStep^[k] (start i s)).res = Res.empty ∧
        (engineStep^[k] (start i s)).trace = s.trace ++ evs.take k ∧
        (engineStep^[k] (start i s)).micro.map Micro.calls = some k

/-- R23, R52 (a): MODE after a command: as before if it issued no call, Driven after POWER, open-drain otherwise. -/
def Obligations.ModeAfterEveryCommand : Prop :=
  ∀ (i : Instr) (s t : State), exec i s = .next t →
    t.mode = if t.trace = s.trace then s.mode else if i = .power then .driven else .openDrain

/-- R20: a command leaves no value in any field of RES but those the table gives it, whatever they held before. -/
def Obligations.OnlyTheTablesResultFieldsAreWritten : Prop :=
  ∀ (i : Instr) (s t : State) (f : ResField), exec i s = .next t → f ∉ mayWrite i → t.res.read f = none

/-- R66, R26: no command changes the configuration, the fault registers, what the host has presented or got, or the calls before the last block
reset. -/
def Obligations.CommandsLeaveTheRest : Prop :=
  ∀ (i : Instr) (s t : State), exec i s = .next t →
    t.cfg = s.cfg ∧ t.fault = s.fault ∧ t.status.faulted = s.status.faulted ∧ t.earlier = s.earlier ∧
    t.inbox = s.inbox ∧ t.hostGot = s.hostGot ∧ t.world = s.world

/-- R62, R26: no step takes back or changes a call already issued, and none changes the configuration. -/
def Obligations.WireHistoryOnlyGrows : Prop :=
  ∀ s t : State, step s = .next t →
    t.cfg = s.cfg ∧ ∃ evs, t.earlier ++ t.trace = s.earlier ++ s.trace ++ evs

/-- R7, R220, R40, R234: instantiation admits exactly the lawful configurations on a pin of their own, the others are refused by name, and the block it gives is the one after
block reset (R39), which meets the invariant; a step of one instance changes no other and keeps the pins distinct. That an unlawful configuration on a pin in use is
refused as unlawful is the model's order (assumption 23). -/
def Obligations.InstancesAreSeparate : Prop :=
  (∀ (others : List State) (cfg : Config),
    ((∃ s, instantiate others cfg = .next s) ↔ cfg.t.Lawful ∧ ∀ o ∈ others, o.cfg.pin ≠ cfg.pin) ∧
    (∀ s, instantiate others cfg = .next s → s = State.initial cfg ∧ s.Inv) ∧
    (¬cfg.t.Lawful → instantiate others cfg = .refused .configBreaksLaws) ∧
    (cfg.t.Lawful → (∃ o ∈ others, o.cfg.pin = cfg.pin) → instantiate others cfg = .refused .pinInUse)) ∧
  ∀ (sys sys' : List State) (k : Nat), stepAt k sys = .next sys' →
    (∀ j, j ≠ k → sys'[j]? = sys[j]?) ∧ (pinsDistinct sys = true → pinsDistinct sys' = true)
end

