-- ==== Sys2Proof/Laws/State.lean ====
section
/-! SUPPORT. One lemma per field of `State` per named operation on it, each true by definition, so that no proof unfolds a record
update. -/

namespace Sys2Proof.Machine

variable (s : State)

@[simp] theorem issue_cfg (e : WireEvent) : (issue e s).cfg = s.cfg := rfl
@[simp] theorem issue_mode (e : WireEvent) : (issue e s).mode = s.mode := rfl
@[simp] theorem issue_status (e : WireEvent) : (issue e s).status = s.status := rfl
@[simp] theorem issue_fault (e : WireEvent) : (issue e s).fault = s.fault := rfl
@[simp] theorem issue_res (e : WireEvent) : (issue e s).res = s.res := rfl
@[simp] theorem issue_inCs (e : WireEvent) : (issue e s).inCs = s.inCs := rfl
@[simp] theorem issue_micro (e : WireEvent) : (issue e s).micro = s.micro.map Micro.advance := rfl
@[simp] theorem issue_trace (e : WireEvent) : (issue e s).trace = s.trace ++ [e] := rfl
@[simp] theorem issue_earlier (e : WireEvent) : (issue e s).earlier = s.earlier := rfl
@[simp] theorem issue_inbox (e : WireEvent) : (issue e s).inbox = s.inbox := rfl
@[simp] theorem issue_hostGot (e : WireEvent) : (issue e s).hostGot = s.hostGot := rfl
@[simp] theorem issue_environment (e : WireEvent) : (issue e s).environment = s.environment := rfl
@[simp] theorem issue_world (e : WireEvent) : (issue e s).world = s.world := rfl

@[simp] theorem cfgPin_cfg (m : PinMode) : (cfgPin m s).cfg = s.cfg := rfl
@[simp] theorem cfgPin_mode (m : PinMode) : (cfgPin m s).mode = s.mode := rfl
@[simp] theorem cfgPin_status (m : PinMode) : (cfgPin m s).status = s.status := rfl
@[simp] theorem cfgPin_fault (m : PinMode) : (cfgPin m s).fault = s.fault := rfl
@[simp] theorem cfgPin_res (m : PinMode) : (cfgPin m s).res = s.res := rfl
@[simp] theorem cfgPin_inCs (m : PinMode) : (cfgPin m s).inCs = s.inCs := rfl
@[simp] theorem cfgPin_micro (m : PinMode) : (cfgPin m s).micro = s.micro.map Micro.advance := rfl
@[simp] theorem cfgPin_trace (m : PinMode) : (cfgPin m s).trace = s.trace ++ [.cfg s.cfg.pin m] := rfl
@[simp] theorem cfgPin_earlier (m : PinMode) : (cfgPin m s).earlier = s.earlier := rfl
@[simp] theorem cfgPin_inbox (m : PinMode) : (cfgPin m s).inbox = s.inbox := rfl
@[simp] theorem cfgPin_hostGot (m : PinMode) : (cfgPin m s).hostGot = s.hostGot := rfl
@[simp] theorem cfgPin_environment (m : PinMode) : (cfgPin m s).environment = s.environment := rfl
@[simp] theorem cfgPin_world (m : PinMode) : (cfgPin m s).world = s.world := rfl

@[simp] theorem wr_cfg (l : Bit) : (wr l s).cfg = s.cfg := rfl
@[simp] theorem wr_mode (l : Bit) : (wr l s).mode = s.mode := rfl
@[simp] theorem wr_status (l : Bit) : (wr l s).status = s.status := rfl
@[simp] theorem wr_fault (l : Bit) : (wr l s).fault = s.fault := rfl
@[simp] theorem wr_res (l : Bit) : (wr l s).res = s.res := rfl
@[simp] theorem wr_inCs (l : Bit) : (wr l s).inCs = s.inCs := rfl
@[simp] theorem wr_micro (l : Bit) : (wr l s).micro = s.micro.map Micro.advance := rfl
@[simp] theorem wr_trace (l : Bit) : (wr l s).trace = s.trace ++ [.wr s.cfg.pin l] := rfl
@[simp] theorem wr_earlier (l : Bit) : (wr l s).earlier = s.earlier := rfl
@[simp] theorem wr_inbox (l : Bit) : (wr l s).inbox = s.inbox := rfl
@[simp] theorem wr_hostGot (l : Bit) : (wr l s).hostGot = s.hostGot := rfl
@[simp] theorem wr_environment (l : Bit) : (wr l s).environment = s.environment := rfl
@[simp] theorem wr_world (l : Bit) : (wr l s).world = s.world := rfl

@[simp] theorem delay_cfg (n : Nat) : (delay n s).cfg = s.cfg := rfl
@[simp] theorem delay_mode (n : Nat) : (delay n s).mode = s.mode := rfl
@[simp] theorem delay_status (n : Nat) : (delay n s).status = s.status := rfl
@[simp] theorem delay_fault (n : Nat) : (delay n s).fault = s.fault := rfl
@[simp] theorem delay_res (n : Nat) : (delay n s).res = s.res := rfl
@[simp] theorem delay_inCs (n : Nat) : (delay n s).inCs = s.inCs := rfl
@[simp] theorem delay_micro (n : Nat) : (delay n s).micro = s.micro.map Micro.advance := rfl
@[simp] theorem delay_trace (n : Nat) : (delay n s).trace = s.trace ++ [.delay n] := rfl
@[simp] theorem delay_earlier (n : Nat) : (delay n s).earlier = s.earlier := rfl
@[simp] theorem delay_inbox (n : Nat) : (delay n s).inbox = s.inbox := rfl
@[simp] theorem delay_hostGot (n : Nat) : (delay n s).hostGot = s.hostGot := rfl
@[simp] theorem delay_environment (n : Nat) : (delay n s).environment = s.environment := rfl
@[simp] theorem delay_world (n : Nat) : (delay n s).world = s.world := rfl

@[simp] theorem csEnter_cfg : (csEnter s).cfg = s.cfg := rfl
@[simp] theorem csEnter_mode : (csEnter s).mode = s.mode := rfl
@[simp] theorem csEnter_status : (csEnter s).status = s.status := rfl
@[simp] theorem csEnter_fault : (csEnter s).fault = s.fault := rfl
@[simp] theorem csEnter_res : (csEnter s).res = s.res := rfl
@[simp] theorem csEnter_inCs : (csEnter s).inCs = true := rfl
@[simp] theorem csEnter_micro : (csEnter s).micro = s.micro.map Micro.advance := rfl
@[simp] theorem csEnter_trace : (csEnter s).trace = s.trace ++ [.csEnter] := rfl
@[simp] theorem csEnter_earlier : (csEnter s).earlier = s.earlier := rfl
@[simp] theorem csEnter_inbox : (csEnter s).inbox = s.inbox := rfl
@[simp] theorem csEnter_hostGot : (csEnter s).hostGot = s.hostGot := rfl
@[simp] theorem csEnter_environment : (csEnter s).environment = s.environment := rfl
@[simp] theorem csEnter_world : (csEnter s).world = s.world := rfl

@[simp] theorem csExit_cfg : (csExit s).cfg = s.cfg := rfl
@[simp] theorem csExit_mode : (csExit s).mode = s.mode := rfl
@[simp] theorem csExit_status : (csExit s).status = s.status := rfl
@[simp] theorem csExit_fault : (csExit s).fault = s.fault := rfl
@[simp] theorem csExit_res : (csExit s).res = s.res := rfl
@[simp] theorem csExit_inCs : (csExit s).inCs = false := rfl
@[simp] theorem csExit_micro : (csExit s).micro = s.micro.map Micro.advance := rfl
@[simp] theorem csExit_trace : (csExit s).trace = s.trace ++ [.csExit] := rfl
@[simp] theorem csExit_earlier : (csExit s).earlier = s.earlier := rfl
@[simp] theorem csExit_inbox : (csExit s).inbox = s.inbox := rfl
@[simp] theorem csExit_hostGot : (csExit s).hostGot = s.hostGot := rfl
@[simp] theorem csExit_environment : (csExit s).environment = s.environment := rfl
@[simp] theorem csExit_world : (csExit s).world = s.world := rfl

@[simp] theorem hear_cfg (l : Bit) : (hear l s).cfg = s.cfg := rfl
@[simp] theorem hear_mode (l : Bit) : (hear l s).mode = s.mode := rfl
@[simp] theorem hear_status (l : Bit) : (hear l s).status = s.status := rfl
@[simp] theorem hear_fault (l : Bit) : (hear l s).fault = s.fault := rfl
@[simp] theorem hear_res (l : Bit) : (hear l s).res = s.res := rfl
@[simp] theorem hear_inCs (l : Bit) : (hear l s).inCs = s.inCs := rfl
@[simp] theorem hear_micro (l : Bit) : (hear l s).micro = s.micro.map (Micro.hear l) := rfl
@[simp] theorem hear_trace (l : Bit) : (hear l s).trace = s.trace := rfl
@[simp] theorem hear_earlier (l : Bit) : (hear l s).earlier = s.earlier := rfl
@[simp] theorem hear_inbox (l : Bit) : (hear l s).inbox = s.inbox := rfl
@[simp] theorem hear_hostGot (l : Bit) : (hear l s).hostGot = s.hostGot := rfl
@[simp] theorem hear_environment (l : Bit) : (hear l s).environment = s.environment := rfl
@[simp] theorem hear_world (l : Bit) : (hear l s).world = s.world := rfl

@[simp] theorem tellWrite_cfg (v : Bit) : (tellWrite v s).cfg = s.cfg := rfl
@[simp] theorem tellWrite_mode (v : Bit) : (tellWrite v s).mode = s.mode := rfl
@[simp] theorem tellWrite_status (v : Bit) : (tellWrite v s).status = s.status := rfl
@[simp] theorem tellWrite_fault (v : Bit) : (tellWrite v s).fault = s.fault := rfl
@[simp] theorem tellWrite_res (v : Bit) : (tellWrite v s).res = s.res := rfl
@[simp] theorem tellWrite_inCs (v : Bit) : (tellWrite v s).inCs = s.inCs := rfl
@[simp] theorem tellWrite_micro (v : Bit) : (tellWrite v s).micro = s.micro := rfl
@[simp] theorem tellWrite_trace (v : Bit) : (tellWrite v s).trace = s.trace := rfl
@[simp] theorem tellWrite_earlier (v : Bit) : (tellWrite v s).earlier = s.earlier := rfl
@[simp] theorem tellWrite_inbox (v : Bit) : (tellWrite v s).inbox = s.inbox := rfl
@[simp] theorem tellWrite_hostGot (v : Bit) : (tellWrite v s).hostGot = s.hostGot := rfl
@[simp] theorem tellWrite_environment (v : Bit) : (tellWrite v s).environment = s.environment.afterWrite v := rfl
@[simp] theorem tellWrite_world (v : Bit) : (tellWrite v s).world = s.world := rfl

@[simp] theorem setMode_cfg (m : Mode) : (setMode m s).cfg = s.cfg := rfl
@[simp] theorem setMode_mode (m : Mode) : (setMode m s).mode = m := rfl
@[simp] theorem setMode_status (m : Mode) : (setMode m s).status = s.status := rfl
@[simp] theorem setMode_fault (m : Mode) : (setMode m s).fault = s.fault := rfl
@[simp] theorem setMode_res (m : Mode) : (setMode m s).res = s.res := rfl
@[simp] theorem setMode_inCs (m : Mode) : (setMode m s).inCs = s.inCs := rfl
@[simp] theorem setMode_micro (m : Mode) : (setMode m s).micro = s.micro := rfl
@[simp] theorem setMode_trace (m : Mode) : (setMode m s).trace = s.trace := rfl
@[simp] theorem setMode_earlier (m : Mode) : (setMode m s).earlier = s.earlier := rfl
@[simp] theorem setMode_inbox (m : Mode) : (setMode m s).inbox = s.inbox := rfl
@[simp] theorem setMode_hostGot (m : Mode) : (setMode m s).hostGot = s.hostGot := rfl
@[simp] theorem setMode_environment (m : Mode) : (setMode m s).environment = s.environment := rfl
@[simp] theorem setMode_world (m : Mode) : (setMode m s).world = s.world := rfl

@[simp] theorem atBit_cfg (i : Nat) : (atBit i s).cfg = s.cfg := rfl
@[simp] theorem atBit_mode (i : Nat) : (atBit i s).mode = s.mode := rfl
@[simp] theorem atBit_status (i : Nat) : (atBit i s).status = s.status := rfl
@[simp] theorem atBit_fault (i : Nat) : (atBit i s).fault = s.fault := rfl
@[simp] theorem atBit_res (i : Nat) : (atBit i s).res = s.res := rfl
@[simp] theorem atBit_inCs (i : Nat) : (atBit i s).inCs = s.inCs := rfl
@[simp] theorem atBit_micro (i : Nat) : (atBit i s).micro = s.micro.map fun m => { m with bitIx := i } := rfl
@[simp] theorem atBit_trace (i : Nat) : (atBit i s).trace = s.trace := rfl
@[simp] theorem atBit_earlier (i : Nat) : (atBit i s).earlier = s.earlier := rfl
@[simp] theorem atBit_inbox (i : Nat) : (atBit i s).inbox = s.inbox := rfl
@[simp] theorem atBit_hostGot (i : Nat) : (atBit i s).hostGot = s.hostGot := rfl
@[simp] theorem atBit_environment (i : Nat) : (atBit i s).environment = s.environment := rfl
@[simp] theorem atBit_world (i : Nat) : (atBit i s).world = s.world := rfl

@[simp] theorem atByte_cfg (j : Nat) : (atByte j s).cfg = s.cfg := rfl
@[simp] theorem atByte_mode (j : Nat) : (atByte j s).mode = s.mode := rfl
@[simp] theorem atByte_status (j : Nat) : (atByte j s).status = s.status := rfl
@[simp] theorem atByte_fault (j : Nat) : (atByte j s).fault = s.fault := rfl
@[simp] theorem atByte_res (j : Nat) : (atByte j s).res = s.res := rfl
@[simp] theorem atByte_inCs (j : Nat) : (atByte j s).inCs = s.inCs := rfl
@[simp] theorem atByte_micro (j : Nat) : (atByte j s).micro = s.micro.map fun m => { m with byteIx := j } := rfl
@[simp] theorem atByte_trace (j : Nat) : (atByte j s).trace = s.trace := rfl
@[simp] theorem atByte_earlier (j : Nat) : (atByte j s).earlier = s.earlier := rfl
@[simp] theorem atByte_inbox (j : Nat) : (atByte j s).inbox = s.inbox := rfl
@[simp] theorem atByte_hostGot (j : Nat) : (atByte j s).hostGot = s.hostGot := rfl
@[simp] theorem atByte_environment (j : Nat) : (atByte j s).environment = s.environment := rfl
@[simp] theorem atByte_world (j : Nat) : (atByte j s).world = s.world := rfl

@[simp] theorem atWalk_cfg (w : Walk) : (atWalk w s).cfg = s.cfg := rfl
@[simp] theorem atWalk_mode (w : Walk) : (atWalk w s).mode = s.mode := rfl
@[simp] theorem atWalk_status (w : Walk) : (atWalk w s).status = s.status := rfl
@[simp] theorem atWalk_fault (w : Walk) : (atWalk w s).fault = s.fault := rfl
@[simp] theorem atWalk_res (w : Walk) : (atWalk w s).res = s.res := rfl
@[simp] theorem atWalk_inCs (w : Walk) : (atWalk w s).inCs = s.inCs := rfl
@[simp] theorem atWalk_micro (w : Walk) : (atWalk w s).micro = s.micro.map fun m => { m with walk := some w } := rfl
@[simp] theorem atWalk_trace (w : Walk) : (atWalk w s).trace = s.trace := rfl
@[simp] theorem atWalk_earlier (w : Walk) : (atWalk w s).earlier = s.earlier := rfl
@[simp] theorem atWalk_inbox (w : Walk) : (atWalk w s).inbox = s.inbox := rfl
@[simp] theorem atWalk_hostGot (w : Walk) : (atWalk w s).hostGot = s.hostGot := rfl
@[simp] theorem atWalk_environment (w : Walk) : (atWalk w s).environment = s.environment := rfl
@[simp] theorem atWalk_world (w : Walk) : (atWalk w s).world = s.world := rfl

@[simp] theorem accept_cfg (i : Instr) : (accept i s).cfg = s.cfg := rfl
@[simp] theorem accept_mode (i : Instr) : (accept i s).mode = s.mode := rfl
@[simp] theorem accept_status (i : Instr) : (accept i s).status = { busy := true, faulted := s.status.faulted } := rfl
@[simp] theorem accept_fault (i : Instr) : (accept i s).fault = s.fault := rfl
@[simp] theorem accept_res (i : Instr) : (accept i s).res = Res.empty := rfl
@[simp] theorem accept_inCs (i : Instr) : (accept i s).inCs = s.inCs := rfl
@[simp] theorem accept_micro (i : Instr) : (accept i s).micro = some (Micro.start i s.mode) := rfl
@[simp] theorem accept_trace (i : Instr) : (accept i s).trace = s.trace := rfl
@[simp] theorem accept_earlier (i : Instr) : (accept i s).earlier = s.earlier := rfl
@[simp] theorem accept_inbox (i : Instr) : (accept i s).inbox = s.inbox := rfl
@[simp] theorem accept_hostGot (i : Instr) : (accept i s).hostGot = s.hostGot := rfl
@[simp] theorem accept_environment (i : Instr) : (accept i s).environment = s.environment := rfl
@[simp] theorem accept_world (i : Instr) : (accept i s).world = s.world := rfl

@[simp] theorem complete_cfg (r : Res) : (complete r s).cfg = s.cfg := rfl
@[simp] theorem complete_mode (r : Res) : (complete r s).mode = s.mode := rfl
@[simp] theorem complete_status (r : Res) : (complete r s).status = { busy := false, faulted := s.status.faulted } := rfl
@[simp] theorem complete_fault (r : Res) : (complete r s).fault = s.fault := rfl
@[simp] theorem complete_res (r : Res) : (complete r s).res = r := rfl
@[simp] theorem complete_inCs (r : Res) : (complete r s).inCs = s.inCs := rfl
@[simp] theorem complete_micro (r : Res) : (complete r s).micro = none := rfl
@[simp] theorem complete_trace (r : Res) : (complete r s).trace = s.trace := rfl
@[simp] theorem complete_earlier (r : Res) : (complete r s).earlier = s.earlier := rfl
@[simp] theorem complete_inbox (r : Res) : (complete r s).inbox = s.inbox := rfl
@[simp] theorem complete_hostGot (r : Res) : (complete r s).hostGot = s.hostGot := rfl
@[simp] theorem complete_environment (r : Res) : (complete r s).environment = s.environment := rfl
@[simp] theorem complete_world (r : Res) : (complete r s).world = s.world := rfl

@[simp] theorem raiseFault_cfg (code : FaultCode) (opc : Byte) : (raiseFault code opc s).cfg = s.cfg := rfl
@[simp] theorem raiseFault_mode (code : FaultCode) (opc : Byte) : (raiseFault code opc s).mode = s.mode := rfl
@[simp] theorem raiseFault_status (code : FaultCode) (opc : Byte) : (raiseFault code opc s).status = { busy := false, faulted := true } := rfl
@[simp] theorem raiseFault_fault (code : FaultCode) (opc : Byte) : (raiseFault code opc s).fault = { code := code, opc := opc } := rfl
@[simp] theorem raiseFault_res (code : FaultCode) (opc : Byte) : (raiseFault code opc s).res = Res.empty := rfl
@[simp] theorem raiseFault_inCs (code : FaultCode) (opc : Byte) : (raiseFault code opc s).inCs = s.inCs := rfl
@[simp] theorem raiseFault_micro (code : FaultCode) (opc : Byte) : (raiseFault code opc s).micro = none := rfl
@[simp] theorem raiseFault_trace (code : FaultCode) (opc : Byte) : (raiseFault code opc s).trace = s.trace := rfl
@[simp] theorem raiseFault_earlier (code : FaultCode) (opc : Byte) : (raiseFault code opc s).earlier = s.earlier := rfl
@[simp] theorem raiseFault_inbox (code : FaultCode) (opc : Byte) : (raiseFault code opc s).inbox = s.inbox := rfl
@[simp] theorem raiseFault_hostGot (code : FaultCode) (opc : Byte) : (raiseFault code opc s).hostGot = s.hostGot := rfl
@[simp] theorem raiseFault_environment (code : FaultCode) (opc : Byte) : (raiseFault code opc s).environment = s.environment := rfl
@[simp] theorem raiseFault_world (code : FaultCode) (opc : Byte) : (raiseFault code opc s).world = s.world := rfl

@[simp] theorem blockReset_cfg : (blockReset s).cfg = s.cfg := rfl
@[simp] theorem blockReset_mode : (blockReset s).mode = .unknown := rfl
@[simp] theorem blockReset_status : (blockReset s).status = { busy := false, faulted := false } := rfl
@[simp] theorem blockReset_fault : (blockReset s).fault = { code := .none, opc := 0 } := rfl
@[simp] theorem blockReset_res : (blockReset s).res = Res.empty := rfl
@[simp] theorem blockReset_inCs : (blockReset s).inCs = false := rfl
@[simp] theorem blockReset_micro : (blockReset s).micro = none := rfl
@[simp] theorem blockReset_trace : (blockReset s).trace = [] := rfl
@[simp] theorem blockReset_earlier : (blockReset s).earlier = s.earlier ++ s.trace := rfl
@[simp] theorem blockReset_inbox : (blockReset s).inbox = s.inbox := rfl
@[simp] theorem blockReset_hostGot : (blockReset s).hostGot = s.hostGot := rfl
@[simp] theorem blockReset_environment : (blockReset s).environment = s.environment := rfl
@[simp] theorem blockReset_world : (blockReset s).world = s.world := rfl

@[simp] theorem deliver_cfg (v : HostValue) : (deliver v s).cfg = s.cfg := rfl
@[simp] theorem deliver_mode (v : HostValue) : (deliver v s).mode = s.mode := rfl
@[simp] theorem deliver_status (v : HostValue) : (deliver v s).status = s.status := rfl
@[simp] theorem deliver_fault (v : HostValue) : (deliver v s).fault = s.fault := rfl
@[simp] theorem deliver_res (v : HostValue) : (deliver v s).res = s.res := rfl
@[simp] theorem deliver_inCs (v : HostValue) : (deliver v s).inCs = s.inCs := rfl
@[simp] theorem deliver_micro (v : HostValue) : (deliver v s).micro = s.micro := rfl
@[simp] theorem deliver_trace (v : HostValue) : (deliver v s).trace = s.trace := rfl
@[simp] theorem deliver_earlier (v : HostValue) : (deliver v s).earlier = s.earlier := rfl
@[simp] theorem deliver_inbox (v : HostValue) : (deliver v s).inbox = s.inbox := rfl
@[simp] theorem deliver_hostGot (v : HostValue) : (deliver v s).hostGot = some v := rfl
@[simp] theorem deliver_environment (v : HostValue) : (deliver v s).environment = s.environment := rfl
@[simp] theorem deliver_world (v : HostValue) : (deliver v s).world = s.world := rfl

/-! ### Calls, notes and the ends of micro-programs -/

@[simp] theorem perform_cfgOpenDrain : Call.cfgOpenDrain.perform s = setMode .openDrain (cfgPin .openDrain s) := rfl
@[simp] theorem perform_cfgDriven : Call.cfgDriven.perform s = setMode .driven (cfgPin .driven s) := rfl
@[simp] theorem perform_wr (l : Bit) : (Call.wr l).perform s = wr l s := rfl
@[simp] theorem perform_delay (n : Nat) : (Call.delay n).perform s = delay n s := rfl
@[simp] theorem perform_csEnter : Call.csEnter.perform s = csEnter s := rfl
@[simp] theorem perform_csExit : Call.csExit.perform s = csExit s := rfl

@[simp] theorem apply_bitIx (i : Nat) : (Note.bitIx i).apply s = atBit i s := rfl
@[simp] theorem apply_byteIx (j : Nat) : (Note.byteIx j).apply s = atByte j s := rfl
@[simp] theorem apply_walk (w : Walk) : (Note.walk w).apply s = atWalk w s := rfl
@[simp] theorem apply_wrote (v : Bit) : (Note.wrote v).apply s = tellWrite v s := rfl

@[simp] theorem runToEnd_done (r : Res) : runToEnd (.done r) s = complete r s := rfl
@[simp] theorem runToEnd_call (c : Call) (next : Program) :
    runToEnd (.call c next) s = runToEnd next (c.perform s) := rfl
@[simp] theorem runToEnd_sample (k : SampleKind) (next : Bit → Program) :
    runToEnd (.sample k next) s = runToEnd (next (sample k s).1) (sample k s).2 := rfl
@[simp] theorem runToEnd_note (n : Note) (next : Program) :
    runToEnd (.note n next) s = runToEnd next (n.apply s) := rfl

/-- A list of calls is issued in order. -/
@[simp] theorem runToEnd_calls (cs : List Call) (next : Program) :
    runToEnd (calls cs next) s = runToEnd next (cs.foldl (fun s c => c.perform s) s) := by
  induction cs generalizing s with
  | nil => rfl
  | cons c cs ih => exact ih (c.perform s)

end Sys2Proof.Machine
end

