-- ==== Sys2Proof/Laws/Bus.lean ====
section
/-! SUPPORT. What a command body does to the state, said once: it issues a sequence of slots (30_encoding.md rule R95), and nothing
outside the bus fields changes. Callers cite `bus` and its composition, and never unfold a slot again. -/

namespace Sys2Proof.Machine

/-- The state after a body issued `slots` from `s`, with environment `env` and hidden state `m`. -/
def bus (s : State) (slots : List Slot) (env : Environment) (m : Option Micro) : State :=
  { s with
    mode := modeAfter s.mode slots
    inCs := inCsAfter s.inCs slots
    micro := m
    trace := s.trace ++ busEvents s.cfg s.mode slots
    environment := env }

section fields
variable (s : State) (slots : List Slot) (env : Environment) (m : Option Micro)

@[simp] theorem bus_cfg : (bus s slots env m).cfg = s.cfg := rfl
@[simp] theorem bus_mode : (bus s slots env m).mode = modeAfter s.mode slots := rfl
@[simp] theorem bus_status : (bus s slots env m).status = s.status := rfl
@[simp] theorem bus_fault : (bus s slots env m).fault = s.fault := rfl
@[simp] theorem bus_res : (bus s slots env m).res = s.res := rfl
@[simp] theorem bus_inCs : (bus s slots env m).inCs = inCsAfter s.inCs slots := rfl
@[simp] theorem bus_micro : (bus s slots env m).micro = m := rfl
@[simp] theorem bus_trace :
    (bus s slots env m).trace = s.trace ++ busEvents s.cfg s.mode slots := rfl
@[simp] theorem bus_earlier : (bus s slots env m).earlier = s.earlier := rfl
@[simp] theorem bus_inbox : (bus s slots env m).inbox = s.inbox := rfl
@[simp] theorem bus_hostGot : (bus s slots env m).hostGot = s.hostGot := rfl
@[simp] theorem bus_environment : (bus s slots env m).environment = env := rfl
@[simp] theorem bus_world : (bus s slots env m).world = s.world := rfl
end fields

@[simp] theorem slotEvents_nil (c : Config) : slotEvents c [] = [] := rfl

@[simp] theorem slotEvents_append (c : Config) (a b : List Slot) :
    slotEvents c (a ++ b) = slotEvents c a ++ slotEvents c b := List.flatMap_append

@[simp] theorem modeAfter_nil (m : Mode) : modeAfter m [] = m := rfl

@[simp] theorem modeAfter_cons (m : Mode) (a : Slot) (l : List Slot) : modeAfter m (a :: l) = .openDrain := rfl

@[simp] theorem busEvents_nil (c : Config) (m : Mode) : busEvents c m [] = [] := rfl

theorem busEvents_cons (c : Config) (m : Mode) (a : Slot) (l : List Slot) :
    busEvents c m (a :: l) = ensureEvents c m ++ slotEvents c (a :: l) := rfl

@[simp] theorem inCsAfter_nil (b : Bit) : inCsAfter b [] = b := rfl

theorem inCsAfter_append (b : Bit) (x y : List Slot) :
    inCsAfter (inCsAfter b x) y = inCsAfter b (x ++ y) := by
  unfold inCsAfter
  rw [List.any_append]
  cases x.any Slot.opensWindow <;> cases y.any Slot.opensWindow <;> rfl

@[simp] theorem ensureEvents_openDrain (c : Config) : ensureEvents c .openDrain = [] := rfl

/-- No slot leaves the state as it is, but for the environment and the hidden state. -/
theorem bus_nil (s : State) : bus s [] s.environment s.micro = s := by
  simp [bus]

/-- EnsureOD's events come once, at the first slot (40_transport.md R110), so the traces of two slot sequences join. -/
theorem busEvents_append (c : Config) (m : Mode) (a b : List Slot) :
    busEvents c m a ++ busEvents c (modeAfter m a) b = busEvents c m (a ++ b) := by
  cases a with
  | nil => rfl
  | cons x l =>
    cases b with
    | nil => simp
    | cons y k =>
      rw [List.cons_append, busEvents_cons, busEvents_cons c m x (l ++ y :: k), ← List.cons_append, slotEvents_append]
      simp [busEvents_cons]

/-- Two slot sequences one after the other are one slot sequence. -/
@[simp] theorem bus_bus (s : State) (a b : List Slot) (e e' : Environment) (m m' : Option Micro) :
    bus (bus s a e m) b e' m' = bus s (a ++ b) e' m' := by
  refine State.ext rfl ?_ rfl rfl rfl ?_ rfl ?_ rfl rfl rfl rfl rfl
  · cases a <;> cases b <;> rfl
  · exact inCsAfter_append s.inCs a b
  · show s.trace ++ busEvents s.cfg s.mode a ++ busEvents s.cfg (modeAfter s.mode a) b = _
    rw [List.append_assoc, busEvents_append]; rfl

/-- A command whose micro-program has issued slots ends as `finished` (60_exceptions.md R204). -/
theorem complete_bus (i : Instr) (s : State) (slots : List Slot) (env : Environment) (m : Option Micro) (r : Res) :
    complete r (bus (accept i s) slots env m) = finished s slots r env := rfl

/-- A micro-program whose calls are slots, run as a command, leaves `finished`. -/
theorem runCommand_bus {i : Instr} {p : Program} {s : State} {slots : List Slot} {env : Environment} {m : Option Micro}
    {r : Res} (h : runToEnd p (accept i s) = complete r (bus (accept i s) slots env m)) :
    runCommand i p s = .next (finished s slots r env) := congrArg Host.Outcome.next h

/-! ### Hidden state only -/

theorem bitIx_eq (i : Nat) (s : State) :
    ∃ m, ∀ next, runToEnd (.note (.bitIx i) next) s = runToEnd next (bus s [] s.environment m) :=
  ⟨(atBit i s).micro, fun next => by rw [runToEnd_note]; congr 1; ext1 <;> simp⟩

theorem byteIx_eq (j : Nat) (s : State) :
    ∃ m, ∀ next, runToEnd (.note (.byteIx j) next) s = runToEnd next (bus s [] s.environment m) :=
  ⟨(atByte j s).micro, fun next => by rw [runToEnd_note]; congr 1; ext1 <;> simp⟩

theorem walk_eq (w : Walk) (s : State) :
    ∃ m, ∀ next, runToEnd (.note (.walk w) next) s = runToEnd next (bus s [] s.environment m) :=
  ⟨(atWalk w s).micro, fun next => by rw [runToEnd_note]; congr 1; ext1 <;> simp⟩

/-! ### Slots -/

/-- EnsureOD (40_transport.md R110) leaves open-drain mode, with its events only where it was not the mode. -/
theorem ensureOD_eq (s : State) :
    ∃ m, ∀ next, runToEnd (ensureOD s.mode next) s =
      runToEnd next { s with mode := .openDrain, trace := s.trace ++ ensureEvents s.cfg s.mode, micro := m } := by
  by_cases h : s.mode = .openDrain
  · refine ⟨s.micro, fun next => ?_⟩
    rw [ensureOD, if_pos h]
    congr 1
    ext1 <;> simp [h]
  · refine ⟨(s.micro.map Micro.advance).map Micro.advance, fun next => ?_⟩
    rw [ensureOD, if_neg h, runToEnd_calls]
    congr 1
    ext1 <;> simp [ensureEvents, h]

/-- WRITE_BIT's body is one write slot (40_transport.md R111). -/
theorem writeBitBody_eq (v : Bit) (s : State) :
    ∃ m, ∀ next, runToEnd (writeBitBody s.cfg.t s.mode v next) s =
      runToEnd next (bus s [.write v] (s.environment.afterWrite v) m) := by
  obtain ⟨m₀, h⟩ := ensureOD_eq s
  refine ⟨(Option.map Micro.advance)^[6] m₀, fun next => ?_⟩
  rw [writeBitBody, h, runToEnd_calls, runToEnd_note]
  congr 1
  cases v <;> ext1 <;> simp [busEvents, slotEvents, Slot.events, inCsAfter, Slot.opensWindow, Function.comp_assoc]

/-- READ_BIT's body is one read slot of the level the environment answers (40_transport.md R112). -/
theorem readBitBody_eq (s : State) :
    ∃ m, ∀ next, runToEnd (readBitBody s.cfg.t s.mode next) s =
      runToEnd (next (s.environment.answer .readSlot s.world (readHistory s)).1)
        (bus s [.read (s.environment.answer .readSlot s.world (readHistory s)).1]
          (s.environment.answer .readSlot s.world (readHistory s)).2 m) := by
  obtain ⟨m₀, h⟩ := ensureOD_eq s
  refine ⟨(Option.map Micro.advance)^[2] (((Option.map Micro.advance)^[6] m₀).map
    (Micro.hear (s.environment.answer .readSlot s.world (readHistory s)).1)), fun next => ?_⟩
  rw [readBitBody, h, runToEnd_calls, runToEnd_sample, runToEnd_calls]
  congr 1
  · simp [sample, readHistory, State.history]
  · ext1 <;> simp [sample, busEvents, slotEvents, Slot.events, readHistory, State.history, inCsAfter, Slot.opensWindow, Function.comp_assoc]

/-- A read slot under explicit draws samples the first of them. -/
theorem readBitBody_draws {s : State} {l : Bit} {ls : List Bit} (h : s.environment = .draws (l :: ls)) :
    ∃ m, ∀ next, runToEnd (readBitBody s.cfg.t s.mode next) s = runToEnd (next l) (bus s [.read l] (.draws ls) m) := by
  simpa [h, Environment.answer] using readBitBody_eq s

/-- A read slot, whatever the environment. -/
theorem readBitBody_some (s : State) :
    ∃ l env m, ∀ next, runToEnd (readBitBody s.cfg.t s.mode next) s = runToEnd (next l) (bus s [.read l] env m) :=
  let ⟨m, h⟩ := readBitBody_eq s
  ⟨_, _, m, h⟩

end Sys2Proof.Machine
end

