-- ==== Sys2Proof/Laws/Transport.lean ====
section
/-! SUPPORT. One lemma per transport body (40_transport.md): the slots it issues, what it returns, and that nothing but the bus fields
changes. -/

namespace Sys2Proof.Machine

@[simp] theorem afterWrites_nil (e : Environment) : e.afterWrites [] = e := rfl

@[simp] theorem afterWrites_cons (e : Environment) (v : Bit) (vs : List Bit) :
    e.afterWrites (v :: vs) = (e.afterWrite v).afterWrites vs := rfl

theorem afterWrites_append (e : Environment) (a b : List Bit) :
    e.afterWrites (a ++ b) = (e.afterWrites a).afterWrites b := List.foldl_append

/-- Explicit draws are not consumed by write slots. -/
@[simp] theorem afterWrites_draws (ls : List Bit) (vs : List Bit) :
    (Environment.draws ls).afterWrites vs = .draws ls := by
  induction vs with
  | nil => rfl
  | cons v vs ih => exact ih

/-- The loop of WRITE_BYTE over any list of bit indices. -/
theorem writeBits_eq (b : Byte) (is : List Nat) (s : State) :
    ∃ m, ∀ next, runToEnd (writeBits s.cfg.t b s.mode is next) s =
      runToEnd next (bus s (is.map fun i => .write (b.getLsbD i)) (s.environment.afterWrites (is.map b.getLsbD)) m) := by
  induction is generalizing s with
  | nil => exact ⟨s.micro, fun next => by rw [List.map_nil, List.map_nil, afterWrites_nil, bus_nil]; rfl⟩
  | cons i is ih =>
    obtain ⟨m₁, h₁⟩ := bitIx_eq i s
    obtain ⟨m₂, h₂⟩ := writeBitBody_eq (b.getLsbD i) (bus s [] s.environment m₁)
    rw [bus_bus] at h₂
    obtain ⟨m₃, h₃⟩ := ih (bus s [.write (b.getLsbD i)] (s.environment.afterWrite (b.getLsbD i)) m₂)
    rw [bus_bus] at h₃
    exact ⟨m₃, fun next => (h₁ _).trans ((h₂ _).trans (h₃ next))⟩

/-- WRITE_BYTE's body is the eight write slots of the byte (40_transport.md R113). -/
theorem writeByteBody_eq (b : Byte) (s : State) :
    ∃ m, ∀ next, runToEnd (writeByteBody s.cfg.t s.mode b next) s =
      runToEnd next (bus s (byteSlots b) (s.environment.afterWrites (bitsLsbFirst b)) m) := by
  simpa [writeByteBody, byteSlots, bitsLsbFirst, Function.comp_def] using writeBits_eq b (List.range 8) s

/-- The loop of WRITE_BYTES issues the bytes' write slots in order (40_transport.md R115). -/
theorem writeBytesFrom_eq (j : Nat) (data : List Byte) (s : State) :
    ∃ m, ∀ next, runToEnd (writeBytesFrom s.cfg.t s.mode j data next) s =
      runToEnd next (bus s (bytesSlots data) (s.environment.afterWrites (data.flatMap bitsLsbFirst)) m) := by
  induction data generalizing j s with
  | nil => exact ⟨s.micro, fun next => by
      rw [List.flatMap_nil, afterWrites_nil, show bytesSlots [] = [] from rfl, bus_nil]; rfl⟩
  | cons b rest ih =>
    obtain ⟨m₁, h₁⟩ := byteIx_eq j s
    obtain ⟨m₂, h₂⟩ := writeByteBody_eq b (bus s [] s.environment m₁)
    rw [bus_bus] at h₂
    obtain ⟨m₃, h₃⟩ := ih (j + 1) (bus s (byteSlots b) (s.environment.afterWrites (bitsLsbFirst b)) m₂)
    rw [bus_bus, bus_environment, ← afterWrites_append] at h₃
    exact ⟨m₃, fun next => (h₁ _).trans ((h₂ _).trans (h₃ next))⟩

/-- WRITE_BYTES's body (40_transport.md R115). -/
theorem writeBytesBody_eq (data : List Byte) (s : State) :
    ∃ m, ∀ next, runToEnd (writeBytesBody s.cfg.t s.mode data next) s =
      runToEnd next (bus s (bytesSlots data) (s.environment.afterWrites (data.flatMap bitsLsbFirst)) m) :=
  writeBytesFrom_eq 0 data s

/-- The loop of READ_BYTE over any list of bit indices: one read slot each, its level put at the index. -/
theorem readBits_eq (is : List Nat) (r : Byte) (s : State) :
    ∃ ls env m, ls.length = is.length ∧ ∀ next,
      runToEnd (readBits s.cfg.t s.mode is r next) s =
        runToEnd (next ((is.zip ls).foldl (fun acc p => setBit acc p.1 p.2) r)) (bus s (ls.map .read) env m) := by
  induction is generalizing r s with
  | nil => exact ⟨[], s.environment, s.micro, rfl, fun next => by rw [List.map_nil, bus_nil]; rfl⟩
  | cons i is ih =>
    obtain ⟨m₁, h₁⟩ := bitIx_eq i s
    obtain ⟨l, e₂, m₂, h₂⟩ := readBitBody_some (bus s [] s.environment m₁)
    rw [bus_bus] at h₂
    obtain ⟨ls, env, m, hlen, h⟩ := ih (setBit r i l) (bus s [.read l] e₂ m₂)
    rw [bus_bus] at h
    exact ⟨l :: ls, env, m, congrArg Nat.succ hlen, fun next => (h₁ _).trans ((h₂ _).trans (h next))⟩

/-- The same under explicit draws: the levels are the draws. -/
theorem readBits_draws (is : List Nat) (r : Byte) (ls rest : List Bit) (s : State)
    (hs : s.environment = .draws (ls ++ rest)) (hlen : ls.length = is.length) :
    ∃ m, ∀ next,
      runToEnd (readBits s.cfg.t s.mode is r next) s =
        runToEnd (next ((is.zip ls).foldl (fun acc p => setBit acc p.1 p.2) r)) (bus s (ls.map .read) (.draws rest) m) := by
  induction is generalizing r s ls with
  | nil =>
    obtain rfl : ls = [] := List.length_eq_zero_iff.mp hlen
    exact ⟨s.micro, fun next => by
      rw [List.map_nil, ← show s.environment = .draws rest from hs, bus_nil]; rfl⟩
  | cons i is ih =>
    cases ls with
    | nil => simp at hlen
    | cons l ls =>
      obtain ⟨m₁, h₁⟩ := bitIx_eq i s
      obtain ⟨m₂, h₂⟩ := readBitBody_draws (s := bus s [] s.environment m₁) (l := l) (ls := ls ++ rest) hs
      rw [bus_bus] at h₂
      obtain ⟨m, h⟩ := ih (setBit r i l) ls (bus s [.read l] (.draws (ls ++ rest)) m₂) rfl (Nat.succ.inj hlen)
      rw [bus_bus] at h
      exact ⟨m, fun next => (h₁ _).trans ((h₂ _).trans (h next))⟩

theorem zip_range_eight (ls : List Bit) (h : ls.length = 8) :
    ((List.range 8).zip ls).foldl (fun acc p => setBit acc p.1 p.2) 0 = byteOfBits ls := by
  match ls, h with
  | [_, _, _, _, _, _, _, _], _ => rfl

/-- READ_BYTE's body is eight read slots, and its byte is their levels, first in bit 0 (40_transport.md R114). -/
theorem readByteBody_eq (s : State) :
    ∃ ls env m, ls.length = 8 ∧ ∀ next,
      runToEnd (readByteBody s.cfg.t s.mode next) s = runToEnd (next (byteOfBits ls)) (bus s (ls.map .read) env m) := by
  obtain ⟨ls, env, m, hlen, h⟩ := readBits_eq (List.range 8) 0 s
  exact ⟨ls, env, m, hlen, by rw [← zip_range_eight ls hlen]; exact h⟩

/-- READ_BYTE's body under explicit draws. -/
theorem readByteBody_draws (ls rest : List Bit) (s : State) (hs : s.environment = .draws (ls ++ rest))
    (hlen : ls.length = 8) :
    ∃ m, ∀ next, runToEnd (readByteBody s.cfg.t s.mode next) s =
      runToEnd (next (byteOfBits ls)) (bus s (ls.map .read) (.draws rest) m) := by
  obtain ⟨m, h⟩ := readBits_draws (List.range 8) 0 ls rest s hs hlen
  exact ⟨m, by rw [← zip_range_eight ls hlen]; exact h⟩

/-- MODE after the eight read slots of a byte. -/
theorem modeAfter_reads (m : Mode) (ls : List Bit) (h : ls.length = 8) : modeAfter m (ls.map Slot.read) = .openDrain := by
  cases ls with
  | nil => simp at h
  | cons => rfl

/-- The loop of READ_BYTES: eight read slots a byte, in order (40_transport.md R116). -/
theorem readBytesFrom_eq (j n : Nat) (s : State) :
    ∃ ls env m, ls.length = 8 * n ∧ ∀ next,
      runToEnd (readBytesFrom s.cfg.t s.mode j n next) s = runToEnd (next (bytesOfBits n ls)) (bus s (ls.map .read) env m) := by
  induction n generalizing j s with
  | zero => exact ⟨[], s.environment, s.micro, rfl, fun next => by rw [List.map_nil, bus_nil]; rfl⟩
  | succ n ih =>
    obtain ⟨m₁, h₁⟩ := byteIx_eq j s
    obtain ⟨ls₂, e₂, m₂, hlen₂, h₂⟩ := readByteBody_eq (bus s [] s.environment m₁)
    obtain ⟨ls, env, m, hlen, h⟩ := ih (j + 1) (bus s (ls₂.map .read) e₂ m₂)
    rw [bus_mode, modeAfter_reads _ _ hlen₂] at h
    refine ⟨ls₂ ++ ls, env, m, by rw [List.length_append, hlen₂, hlen]; omega, fun next => ?_⟩
    refine (h₁ _).trans ((h₂ _).trans ?_)
    rw [bus_bus, List.nil_append]
    refine (h _).trans ?_
    simp [bytesOfBits, ← hlen₂]

/-- The loop of READ_BYTES under explicit draws. -/
theorem readBytesFrom_draws (j n : Nat) (ls rest : List Bit) (s : State)
    (hs : s.environment = .draws (ls ++ rest)) (hlen : ls.length = 8 * n) :
    ∃ m, ∀ next, runToEnd (readBytesFrom s.cfg.t s.mode j n next) s =
      runToEnd (next (bytesOfBits n ls)) (bus s (ls.map .read) (.draws rest) m) := by
  induction n generalizing j s ls with
  | zero =>
    obtain rfl : ls = [] := List.length_eq_zero_iff.mp hlen
    exact ⟨s.micro, fun next => by
      rw [List.map_nil, ← show s.environment = .draws rest from hs, bus_nil]; rfl⟩
  | succ n ih =>
    obtain ⟨m₁, h₁⟩ := byteIx_eq j s
    have hl : (ls.take 8).length = 8 := by simp; omega
    obtain ⟨m₂, h₂⟩ := readByteBody_draws (ls.take 8) (ls.drop 8 ++ rest) (bus s [] s.environment m₁)
      (by rw [← List.append_assoc, List.take_append_drop]; exact hs) hl
    obtain ⟨m, h⟩ := ih (j + 1) (ls.drop 8) (bus s ((ls.take 8).map .read) (.draws (ls.drop 8 ++ rest)) m₂)
      rfl (by simp; omega)
    rw [bus_mode, modeAfter_reads _ _ hl] at h
    refine ⟨m, fun next => ?_⟩
    refine (h₁ _).trans ((h₂ _).trans ?_)
    rw [bus_bus, List.nil_append]
    refine (h _).trans ?_
    rw [bus_bus, ← List.map_append, List.take_append_drop]; rfl

end Sys2Proof.Machine
end

