-- ==== Sys2Proof/Laws/BusControl.lean ====
section
/-! SUPPORT. One lemma per body of Bus Control (41_bus_control.md): the slots it issues and what it returns. -/

namespace Sys2Proof.Machine

/-- The state after issuing `evs` with nothing but the environment and the hidden state changed besides. -/
def issued (s : State) (evs : List WireEvent) (env : Environment) (m : Option Micro) : State :=
  { s with trace := s.trace ++ evs, environment := env, micro := m }

theorem issued_issued (s : State) (a b : List WireEvent) (e e' : Environment) (m m' : Option Micro) :
    issued (issued s a e m) b e' m' = issued s (a ++ b) e' m' := by
  simp [issued]

theorem issued_nil (s : State) : issued s [] s.environment s.micro = s := by
  simp [issued]

@[simp] theorem issued_cfg (s : State) (evs : List WireEvent) (env : Environment) (m : Option Micro) :
    (issued s evs env m).cfg = s.cfg := rfl

@[simp] theorem issued_environment (s : State) (evs : List WireEvent) (env : Environment) (m : Option Micro) :
    (issued s evs env m).environment = env := rfl

/-- A sample (00_scope.md R10): some level, and the event that records it. -/
theorem sample_eq (k : SampleKind) (s : State) :
    ∃ l env m, sample k s = (l, issued s [.rd s.cfg.pin l] env m) :=
  ⟨(sample k s).1, (sample k s).2.environment, (sample k s).2.micro, rfl⟩

/-- A sample under explicit draws is the first of them. -/
theorem sample_draws {k : SampleKind} {s : State} {l : Bit} {ls : List Bit} (h : s.environment = .draws (l :: ls)) :
    ∃ m, sample k s = (l, issued s [.rd s.cfg.pin l] (.draws ls) m) :=
  ⟨(sample k s).2.micro, by simp [sample, h, Environment.answer, issued, issue, hear]⟩

/-- One idle poll: the delay, then the sample. -/
theorem poll_eq (s : State) :
    ∃ l env m, sample .idlePoll (delay s.cfg.t.tIdlePoll s) = (l, issued s (pollEvents s.cfg l) env m) := by
  obtain ⟨l, env, m, h⟩ := sample_eq .idlePoll (delay s.cfg.t.tIdlePoll s)
  exact ⟨l, env, m, by rw [h]; simp [issued, pollEvents]⟩

theorem poll_draws {s : State} {l : Bit} {ls : List Bit} (h : s.environment = .draws (l :: ls)) :
    ∃ m, sample .idlePoll (delay s.cfg.t.tIdlePoll s) = (l, issued s (pollEvents s.cfg l) (.draws ls) m) := by
  obtain ⟨m, h⟩ := sample_draws (k := .idlePoll) (s := delay s.cfg.t.tIdlePoll s) h
  exact ⟨m, by rw [h]; simp [issued, pollEvents]⟩

/-- The events of `lows` polls that sampled 0. -/
def lowPolls (c : Config) (lows : Nat) : List WireEvent := (List.replicate lows (pollEvents c false)).flatten

theorem lowPolls_succ (c : Config) (n : Nat) : lowPolls c (n + 1) = pollEvents c false ++ lowPolls c n := rfl

/-- One poll of the idle-wait. -/
theorem idlePolls_step {s : State} {l : Bit} {env : Environment} {m : Option Micro}
    (h : sample .idlePoll (delay s.cfg.t.tIdlePoll s) = (l, issued s (pollEvents s.cfg l) env m)) (n : Nat)
    (next : Bit → Program) :
    runToEnd (idlePolls s.cfg.t (n + 1) next) s =
      runToEnd (if l then next true else idlePolls s.cfg.t n next) (issued s (pollEvents s.cfg l) env m) := by
  rw [idlePolls, runToEnd_call, runToEnd_sample, perform_delay, h]

/-- The idle-wait: some polls that read 0 and one that reads 1, or all polls read 0 (41_bus_control.md R130). -/
theorem idlePolls_eq (n : Nat) (s : State) :
    (∃ lows env m, lows < n ∧ ∀ next,
      runToEnd (idlePolls s.cfg.t n next) s =
        runToEnd (next true) (issued s (lowPolls s.cfg lows ++ pollEvents s.cfg true) env m)) ∨
    (∃ env m, ∀ next,
      runToEnd (idlePolls s.cfg.t n next) s = runToEnd (next false) (issued s (lowPolls s.cfg n) env m)) := by
  induction n generalizing s with
  | zero => exact .inr ⟨s.environment, s.micro, fun next => by
      rw [show lowPolls s.cfg 0 = [] from rfl, issued_nil]; rfl⟩
  | succ n ih =>
    obtain ⟨l, e, m, h⟩ := poll_eq s
    cases l with
    | true => exact .inl ⟨0, e, m, Nat.succ_pos n, fun next => idlePolls_step h n next⟩
    | false =>
      rcases ih (issued s (pollEvents s.cfg false) e m) with ⟨lows, e', m', hlt, h'⟩ | ⟨e', m', h'⟩
      · refine .inl ⟨lows + 1, e', m', Nat.succ_lt_succ hlt, fun next => ((idlePolls_step h n next).trans (h' next)).trans ?_⟩
        rw [issued_issued, lowPolls_succ, List.append_assoc]; rfl
      · refine .inr ⟨e', m', fun next => ((idlePolls_step h n next).trans (h' next)).trans ?_⟩
        rw [issued_issued, lowPolls_succ]; rfl

/-- The idle-wait under explicit draws that go high after `lows` zeros. -/
theorem idlePolls_draws_high (n lows : Nat) (rest : List Bit) (s : State) (hlt : lows < n)
    (hs : s.environment = .draws (List.replicate lows false ++ true :: rest)) :
    ∃ m, ∀ next, runToEnd (idlePolls s.cfg.t n next) s =
      runToEnd (next true) (issued s (lowPolls s.cfg lows ++ pollEvents s.cfg true) (.draws rest) m) := by
  induction n generalizing s lows with
  | zero => omega
  | succ n ih =>
    cases lows with
    | zero =>
      obtain ⟨m, h⟩ := poll_draws (s := s) (l := true) (ls := rest) hs
      exact ⟨m, fun next => idlePolls_step h n next⟩
    | succ k =>
      obtain ⟨m, h⟩ := poll_draws (s := s) (l := false) (ls := List.replicate k false ++ true :: rest) hs
      obtain ⟨m', h'⟩ := ih k (issued s (pollEvents s.cfg false) (.draws (List.replicate k false ++ true :: rest)) m)
        (by omega) rfl
      refine ⟨m', fun next => ((idlePolls_step h n next).trans (h' next)).trans ?_⟩
      rw [issued_issued, lowPolls_succ, List.append_assoc]; rfl

/-- The idle-wait under explicit draws that stay low. -/
theorem idlePolls_draws_low (n : Nat) (rest : List Bit) (s : State)
    (hs : s.environment = .draws (List.replicate n false ++ rest)) :
    ∃ m, ∀ next, runToEnd (idlePolls s.cfg.t n next) s =
      runToEnd (next false) (issued s (lowPolls s.cfg n) (.draws rest) m) := by
  induction n generalizing s with
  | zero =>
    exact ⟨s.micro, fun next => by
      rw [show lowPolls s.cfg 0 = [] from rfl, ← show s.environment = .draws rest from hs, issued_nil]; rfl⟩
  | succ n ih =>
    obtain ⟨m, h⟩ := poll_draws (s := s) (l := false) (ls := List.replicate n false ++ rest) hs
    obtain ⟨m', h'⟩ := ih (issued s (pollEvents s.cfg false) (.draws (List.replicate n false ++ rest)) m) rfl
    refine ⟨m', fun next => ((idlePolls_step h n next).trans (h' next)).trans ?_⟩
    rw [issued_issued, lowPolls_succ]; rfl

/-- The reset pulse up to its sample. -/
def beforePresence (s : State) : State :=
  delay s.cfg.t.tPresence (wr true (csEnter (delay s.cfg.t.tRstLow (wr false s))))

/-- The reset pulse with presence sample `p`: its events, and `present` is 1 exactly for a sample of 0 (41_bus_control.md R130). -/
theorem resetPulse_step {s : State} {p : Bit} {env : Environment} {m : Option Micro}
    (h : sample .presence (beforePresence s) = (p, issued (beforePresence s) [.rd s.cfg.pin p] env m)) :
    ∃ m', ∀ next, runToEnd (resetPulse s.cfg.t next) s =
      runToEnd (next !p) { issued s (pulseEvents s.cfg p) env m' with inCs := false } := by
  have hend : delay s.cfg.t.tRecovery (csExit (issued (beforePresence s) [.rd s.cfg.pin p] env m)) =
      { issued s (pulseEvents s.cfg p) env ((Option.map Micro.advance)^[2] m) with inCs := false } := by
    ext1 <;> simp [issued, pulseEvents, beforePresence]
  refine ⟨(Option.map Micro.advance)^[2] m, fun next => ?_⟩
  rw [resetPulse, runToEnd_calls, runToEnd_sample, runToEnd_calls, ← hend]
  simp only [List.foldl_cons, List.foldl_nil, perform_wr, perform_delay, perform_csEnter, perform_csExit]
  unfold beforePresence at h
  rw [h]; rfl

theorem resetPulse_eq (s : State) :
    ∃ p env m, ∀ next, runToEnd (resetPulse s.cfg.t next) s =
      runToEnd (next !p) { issued s (pulseEvents s.cfg p) env m with inCs := false } := by
  obtain ⟨p, env, m, h⟩ := sample_eq .presence (beforePresence s)
  obtain ⟨m', h'⟩ := resetPulse_step h
  exact ⟨p, env, m', h'⟩

theorem resetPulse_draws {s : State} {p : Bit} {rest : List Bit} (hs : s.environment = .draws (p :: rest)) :
    ∃ m, ∀ next, runToEnd (resetPulse s.cfg.t next) s =
      runToEnd (next !p) { issued s (pulseEvents s.cfg p) (.draws rest) m with inCs := false } := by
  obtain ⟨m, h⟩ := sample_draws (k := .presence) (s := beforePresence s) (l := p) (ls := rest) hs
  exact resetPulse_step h

/-- RESET's release of the line, and then its idle-wait. -/
theorem resetBody_enter (s : State) :
    ∃ m, ∀ next, runToEnd (resetBody s.cfg.t s.mode next) s =
      runToEnd
        (idlePolls s.cfg.t s.cfg.t.nIdlePolls fun idle => if idle then resetPulse s.cfg.t next else next false)
        { s with mode := .openDrain, trace := s.trace ++ ensureEvents s.cfg s.mode ++ [.wr s.cfg.pin true], micro := m } := by
  obtain ⟨m, h⟩ := ensureOD_eq s
  exact ⟨m.map Micro.advance, fun next => by rw [resetBody, h]; rfl⟩

/-- RESET's body is one bus-reset slot (41_bus_control.md R130, R135): never idle after `nIdlePolls` polls, or idle at some poll and then
the presence sample decides. -/
theorem resetBody_eq (s : State) :
    ∃ lows presence env m,
      ((presence = none ∧ lows = s.cfg.t.nIdlePolls) ∨ (presence.isSome ∧ lows < s.cfg.t.nIdlePolls)) ∧
      ∀ next, runToEnd (resetBody s.cfg.t s.mode next) s =
        runToEnd (next (presence == some false)) (bus s [.reset lows presence] env m) := by
  obtain ⟨m₀, h₀⟩ := resetBody_enter s
  rcases idlePolls_eq s.cfg.t.nIdlePolls
      { s with mode := .openDrain, trace := s.trace ++ ensureEvents s.cfg s.mode ++ [.wr s.cfg.pin true], micro := m₀ } with
    ⟨lows, e, m, hlt, h⟩ | ⟨e, m, h⟩
  · obtain ⟨p, e', m', h'⟩ := resetPulse_eq
      (issued { s with mode := .openDrain, trace := s.trace ++ ensureEvents s.cfg s.mode ++ [.wr s.cfg.pin true], micro := m₀ }
        (lowPolls s.cfg lows ++ pollEvents s.cfg true) e m)
    refine ⟨lows, some p, e', m', .inr ⟨rfl, hlt⟩, fun next => (h₀ next).trans ((h _).trans ((h' next).trans ?_))⟩
    congr 1
    · cases p <;> rfl
    · ext1 <;> simp [issued, busEvents, slotEvents, Slot.events, lowPolls, inCsAfter, Slot.opensWindow]
  · refine ⟨s.cfg.t.nIdlePolls, none, e, m, .inl ⟨rfl, rfl⟩, fun next => (h₀ next).trans ((h _).trans ?_)⟩
    rw [if_neg Bool.false_ne_true]
    congr 1
    ext1 <;> simp [issued, busEvents, slotEvents, Slot.events, lowPolls, inCsAfter, Slot.opensWindow]

/-- RESET under explicit draws that go high after `lows` zeros and then give the presence sample `p`. -/
theorem resetBody_draws_idle (lows : Nat) (p : Bit) (rest : List Bit) (s : State) (hlt : lows < s.cfg.t.nIdlePolls)
    (hs : s.environment = .draws (List.replicate lows false ++ true :: p :: rest)) :
    ∃ m, ∀ next, runToEnd (resetBody s.cfg.t s.mode next) s =
      runToEnd (next !p) (bus s [.reset lows (some p)] (.draws rest) m) := by
  obtain ⟨m₀, h₀⟩ := resetBody_enter s
  obtain ⟨m, h⟩ := idlePolls_draws_high s.cfg.t.nIdlePolls lows (p :: rest)
    { s with mode := .openDrain, trace := s.trace ++ ensureEvents s.cfg s.mode ++ [.wr s.cfg.pin true], micro := m₀ } hlt hs
  obtain ⟨m', h'⟩ := resetPulse_draws (p := p) (rest := rest)
    (s := issued { s with mode := .openDrain, trace := s.trace ++ ensureEvents s.cfg s.mode ++ [.wr s.cfg.pin true], micro := m₀ }
      (lowPolls s.cfg lows ++ pollEvents s.cfg true) (.draws (p :: rest)) m) rfl
  refine ⟨m', fun next => (h₀ next).trans ((h _).trans ((h' next).trans ?_))⟩
  congr 1
  ext1 <;> simp [issued, busEvents, slotEvents, Slot.events, lowPolls, inCsAfter, Slot.opensWindow]

/-- RESET under explicit draws that stay low. -/
theorem resetBody_draws_low (rest : List Bit) (s : State)
    (hs : s.environment = .draws (List.replicate s.cfg.t.nIdlePolls false ++ rest)) :
    ∃ m, ∀ next, runToEnd (resetBody s.cfg.t s.mode next) s =
      runToEnd (next false) (bus s [.reset s.cfg.t.nIdlePolls none] (.draws rest) m) := by
  obtain ⟨m₀, h₀⟩ := resetBody_enter s
  obtain ⟨m, h⟩ := idlePolls_draws_low s.cfg.t.nIdlePolls rest
    { s with mode := .openDrain, trace := s.trace ++ ensureEvents s.cfg s.mode ++ [.wr s.cfg.pin true], micro := m₀ } hs
  refine ⟨m, fun next => (h₀ next).trans ((h _).trans ?_)⟩
  rw [if_neg Bool.false_ne_true]
  congr 1
  ext1 <;> simp [issued, busEvents, slotEvents, Slot.events, lowPolls, inCsAfter, Slot.opensWindow]

/-- SELECT's micro-program is the write slots of Match ROM and of the eight address bytes (41_bus_control.md R131). -/
theorem selectProgram_eq (rom : Addr) (s : State) :
    ∃ m, runToEnd (selectProgram s.cfg.t s.mode rom) s =
      complete Res.empty (bus s (bytesSlots (0x55 :: bytesLe rom))
        (s.environment.afterWrites ((0x55 :: bytesLe rom : List Byte).flatMap bitsLsbFirst)) m) := by
  obtain ⟨m₁, h₁⟩ := writeByteBody_eq matchRomByte s
  obtain ⟨m₂, h₂⟩ := writeBytesBody_eq (bytesLe rom)
    (bus s (byteSlots matchRomByte) (s.environment.afterWrites (bitsLsbFirst matchRomByte)) m₁)
  rw [bus_bus, bus_environment, ← afterWrites_append] at h₂
  exact ⟨m₂, (h₁ _).trans (h₂ _)⟩

end Sys2Proof.Machine
end

