-- ==== Sys2Proof/Laws/Decode.lean ====
section
/-! SUPPORT. The fields of a command word built from its fields, and of a masked one (30_encoding.md rules R80, R85). -/

namespace Sys2Proof

/-- Every bit of a word built from its fields. -/
theorem mkWord_getLsbD (len : U16) (a op : Byte) (k : Nat) :
    (mkWord len a op).getLsbD k =
      if k < 8 then op.getLsbD k else if k < 16 then a.getLsbD (k - 8) else len.getLsbD (k - 16) := by
  have h : (mkWord len a op).getLsbD k = _ := BitVec.getLsbD_append (x := len ++ a) (y := op)
  rw [h, BitVec.getLsbD_append, show k - 8 - 8 = k - 16 by omega]
  by_cases h8 : k < 8
  · simp [h8]
  · by_cases h16 : k < 16
    · simp [h8, h16, show k - 8 < 8 by omega]
    · simp [h8, h16, show ¬ k - 8 < 8 by omega]

@[simp] theorem opField_mkWord (len : U16) (a op : Byte) : opField (mkWord len a op) = op := by
  refine BitVec.eq_of_getLsbD_eq fun i hi => ?_
  simp [opField, mkWord_getLsbD, hi]

@[simp] theorem aField_mkWord (len : U16) (a op : Byte) : aField (mkWord len a op) = a := by
  refine BitVec.eq_of_getLsbD_eq fun i hi => ?_
  simp [aField, mkWord_getLsbD, hi, show 8 + i < 16 by omega]

@[simp] theorem lenField_mkWord (len : U16) (a op : Byte) : lenField (mkWord len a op) = len := by
  refine BitVec.eq_of_getLsbD_eq fun i hi => ?_
  simp [lenField, mkWord_getLsbD, hi, show ¬ 16 + i < 8 by omega]

/-- The fields of a word make the word. -/
theorem mkWord_fields (cw : CommandWord) : mkWord (lenField cw) (aField cw) (opField cw) = cw := by
  refine BitVec.eq_of_getLsbD_eq fun i hi => ?_
  rw [mkWord_getLsbD]
  simp only [lenField, aField, opField, BitVec.getLsbD_extractLsb']
  by_cases h8 : i < 8
  · simp [h8]
  · by_cases h16 : i < 16
    · simp [h8, h16, show i - 8 < 8 by omega, show 8 + (i - 8) = i by omega]
    · simp [h8, h16, show i - 16 < 16 by omega, show 16 + (i - 16) = i by omega]

/-- Masking a word masks its fields. -/
theorem mkWord_and (l l' : U16) (a a' o o' : Byte) :
    mkWord l a o &&& mkWord l' a' o' = mkWord (l &&& l') (a &&& a') (o &&& o') := by
  refine BitVec.eq_of_getLsbD_eq fun i _ => ?_
  simp only [BitVec.getLsbD_and, mkWord_getLsbD]
  split
  · rfl
  · split <;> rfl

/-- Two words are equal exactly if their fields are. -/
theorem mkWord_inj {l l' : U16} {a a' o o' : Byte} :
    mkWord l a o = mkWord l' a' o' ↔ l = l' ∧ a = a' ∧ o = o' := by
  constructor
  · intro h
    exact ⟨by simpa using congrArg lenField h, by simpa using congrArg aField h, by simpa using congrArg opField h⟩
  · rintro ⟨rfl, rfl, rfl⟩; rfl

/-- The length that a command's `LEN` field says, of data that fits it (30_encoding.md R82). -/
theorem lenOf_toNat {data : List Byte} (h : lengthFits data = true) : (lenOf data).toNat = data.length := by
  have : data.length ≤ 65535 := of_decide_eq_true h
  simp [lenOf]; omega

end Sys2Proof
end

