-- ==== Sys2Proof/Laws/Engine.lean ====
section
/-! SUPPORT. The timing engine said once (10_state.md rule R21): stepping a micro-program from call to call ends where running it to its end does,
with one call a step. Callers cite `exec_eq`, `engine_runs` and `finishCommand_engineStep`, and never unfold a position. -/

namespace Sys2Proof.Machine

/-! ### Notes and settling -/

@[simp] theorem note_cfg (n : Note) (s : State) : (n.apply s).cfg = s.cfg := by cases n <;> rfl
@[simp] theorem note_mode (n : Note) (s : State) : (n.apply s).mode = s.mode := by cases n <;> rfl
@[simp] theorem note_status (n : Note) (s : State) : (n.apply s).status = s.status := by cases n <;> rfl
@[simp] theorem note_fault (n : Note) (s : State) : (n.apply s).fault = s.fault := by cases n <;> rfl
@[simp] theorem note_res (n : Note) (s : State) : (n.apply s).res = s.res := by cases n <;> rfl
@[simp] theorem note_inCs (n : Note) (s : State) : (n.apply s).inCs = s.inCs := by cases n <;> rfl
@[simp] theorem note_trace (n : Note) (s : State) : (n.apply s).trace = s.trace := by cases n <;> rfl
@[simp] theorem note_earlier (n : Note) (s : State) : (n.apply s).earlier = s.earlier := by cases n <;> rfl
@[simp] theorem note_inbox (n : Note) (s : State) : (n.apply s).inbox = s.inbox := by cases n <;> rfl
@[simp] theorem note_hostGot (n : Note) (s : State) : (n.apply s).hostGot = s.hostGot := by cases n <;> rfl
@[simp] theorem note_world (n : Note) (s : State) : (n.apply s).world = s.world := by cases n <;> rfl

@[simp] theorem perform_fixed (c : Call) (s : State) :
    (c.perform s).cfg = s.cfg ∧ (c.perform s).status = s.status ∧ (c.perform s).fault = s.fault ∧
      (c.perform s).res = s.res ∧ (c.perform s).earlier = s.earlier ∧ (c.perform s).inbox = s.inbox ∧
      (c.perform s).hostGot = s.hostGot ∧ (c.perform s).world = s.world ∧
      (c.perform s).micro = s.micro.map Micro.advance := by
  cases c <;> exact ⟨rfl, rfl, rfl, rfl, rfl, rfl, rfl, rfl, rfl⟩

/-- A call is one event. -/
theorem perform_trace (c : Call) (s : State) : ∃ e, (c.perform s).trace = s.trace ++ [e] := by
  cases c <;> exact ⟨_, rfl⟩

/-- The command that is live, and where it stands: the same for every note. -/
def Micro.place (m : Micro) : Instr × Mode × Nat × List Bit := (m.instr, m.entryMode, m.calls, m.heard)

@[simp] theorem note_place (n : Note) (s : State) :
    (n.apply s).micro.map Micro.place = s.micro.map Micro.place := by
  cases n
  case wrote => rfl
  all_goals exact Option.map_map ..

/-! ### Positions -/

/-- The live command stands before the rest `p` of its micro-program. -/
def Stands (p : Program) (s : State) : Prop :=
  ∃ m, s.micro = some m ∧ (programOf s.cfg m.entryMode m.instr).rest m.calls m.heard = p.rest 0 []

/-- Nothing but the command's place, the configuration and the program ahead matters. -/
theorem Stands.of_place {p q : Program} {s t : State} (h : Stands p s) (hcfg : t.cfg = s.cfg)
    (hplace : t.micro.map Micro.place = s.micro.map Micro.place) (hq : q.rest 0 [] = p.rest 0 []) : Stands q t := by
  obtain ⟨m, hm, hrest⟩ := h
  rw [hm, Option.map_some] at hplace
  obtain ⟨m', hm', heq⟩ := Option.map_eq_some_iff.mp hplace
  simp only [Micro.place, Prod.mk.injEq] at heq
  obtain ⟨hi, he, hc, hh⟩ := heq
  exact ⟨m', hm', by rw [hcfg, hi, he, hc, hh, hrest, hq]⟩

/-- Past a call the program is what follows it. -/
theorem rest_call {c : Call} {next : Program} (p : Program) (n : Nat) (heard : List Bit)
    (h : p.rest n heard = some (.call c next)) : p.rest (n + 1) heard = next.rest 0 [] := by
  induction p generalizing n heard with
  | done r => cases n <;> cases heard <;> simp [Program.rest] at h
  | note _ q ih => exact ih n heard h
  | call c' q ih =>
    cases n with
    | zero =>
      cases heard with
      | nil => simp [Program.rest] at h; obtain ⟨-, rfl⟩ := h; rfl
      | cons => simp [Program.rest] at h
    | succ n => exact ih n heard h
  | sample k q ih =>
    cases n with
    | zero => cases heard <;> simp [Program.rest] at h
    | succ n =>
      cases heard with
      | nil => simp [Program.rest] at h
      | cons l heard => exact ih l n heard h

/-- Past a sample the program is what follows its level. -/
theorem rest_sample {k : SampleKind} {next : Bit → Program} (l : Bit) (p : Program) (n : Nat) (heard : List Bit)
    (h : p.rest n heard = some (.sample k next)) : p.rest (n + 1) (heard ++ [l]) = (next l).rest 0 [] := by
  induction p generalizing n heard with
  | done r => cases n <;> cases heard <;> simp [Program.rest] at h
  | note _ q ih => exact ih n heard h
  | call c' q ih =>
    cases n with
    | zero => cases heard <;> simp [Program.rest] at h
    | succ n => exact ih n heard h
  | sample k' q ih =>
    cases n with
    | zero =>
      cases heard with
      | nil => simp [Program.rest] at h; obtain ⟨-, rfl⟩ := h; rfl
      | cons => simp [Program.rest] at h
    | succ n =>
      cases heard with
      | nil => simp [Program.rest] at h
      | cons l' heard => exact ih l' n heard h

/-- The rest of a program never begins with a note. -/
theorem rest_ne_note (p : Program) (n : Nat) (heard : List Bit) (x : Note) (q : Program) :
    p.rest n heard ≠ some (.note x q) := by
  induction p generalizing n heard with
  | done r => cases n <;> cases heard <;> simp [Program.rest]
  | note _ q ih => exact ih n heard
  | call c' q ih =>
    cases n with
    | zero => cases heard <;> simp [Program.rest]
    | succ n => exact ih n heard
  | sample k q ih =>
    cases n with
    | zero => cases heard <;> simp [Program.rest]
    | succ n =>
      cases heard with
      | nil => simp [Program.rest]
      | cons l heard => exact ih l n heard

theorem Stands.rest_eq {p : Program} {s : State} (h : Stands p s) : s.rest = p.rest 0 [] := by
  obtain ⟨m, hm, hrest⟩ := h
  simp [State.rest, hm, hrest]

/-- A command begins before the whole of its micro-program. -/
theorem stands_accept (i : Instr) (s : State) : Stands (programOf s.cfg s.mode i) (accept i s) := ⟨_, rfl, rfl⟩

/-- The call before which a command stands leads to what follows it. -/
theorem Stands.perform {c : Call} {next : Program} {s : State} (h : Stands (.call c next) s) :
    Stands next (c.perform s) := by
  obtain ⟨m, hm, hrest⟩ := h
  refine ⟨m.advance, by rw [(perform_fixed c s).2.2.2.2.2.2.2.2, hm]; rfl, ?_⟩
  rw [(perform_fixed c s).1]
  exact rest_call _ _ _ hrest

/-- The sample before which a command stands leads to what follows its level. -/
theorem Stands.sample {k : SampleKind} {next : Bit → Program} {s : State} (h : Stands (.sample k next) s) :
    Stands (next (sample k s).1) (sample k s).2 := by
  obtain ⟨m, hm, hrest⟩ := h
  exact ⟨m.advance.hear (Machine.sample k s).1, by simp [Machine.sample, hm], rest_sample _ _ _ _ hrest⟩

/-- What stands before the next call changes no place. -/
theorem Stands.note {n : Note} {next : Program} {s : State} (h : Stands (.note n next) s) : Stands next (n.apply s) :=
  h.of_place (note_cfg n s) (note_place n s) rfl

/-! ### Running from call to call -/

/-- From any position, a command that is settled and then run to its end has run to its end. -/
theorem finishCommand_settle (p : Program) (s : State) (h : Stands p s) : finishCommand (settle p s) = runToEnd p s := by
  induction p generalizing s with
  | done r => rfl
  | call c next ih => rw [finishCommand, settle, h.rest_eq]; rfl
  | sample k next ih => rw [finishCommand, settle, h.rest_eq]; rfl
  | note n next ih => exact ih (n.apply s) h.note

/-- A position of the live command's micro-program is where the command stands. -/
theorem stands_of_rest {p : Program} {s : State} (h : s.rest = some p) : Stands p s := by
  obtain ⟨m, hm, hrest⟩ := Option.bind_eq_some_iff.mp h
  refine ⟨m, hm, hrest.trans ?_⟩
  cases p with
  | done r => rfl
  | call c next => rfl
  | sample k next => rfl
  | note n next => exact absurd hrest (rest_ne_note _ _ _ _ _)

/-- A step of the engine does not change how its command ends (10_state.md R21). -/
theorem finishCommand_engineStep (s : State) : finishCommand (engineStep s) = finishCommand s := by
  unfold engineStep
  split
  next p hp =>
    have h := stands_of_rest hp
    rw [show finishCommand s = runToEnd p s by rw [finishCommand, hp]]
    cases p with
    | done r => rfl
    | call c next => exact finishCommand_settle next _ h.perform
    | sample k next => exact finishCommand_settle _ _ h.sample
    | note n next => exact absurd h.rest_eq (by rw [hp]; exact fun e => rest_ne_note _ _ _ _ _ e.symm)
  next => rfl

/-- A whole command is its micro-program run to its end. -/
theorem exec_eq (i : Instr) (s : State) : exec i s = .next (runToEnd (programOf s.cfg s.mode i) (accept i s)) := by
  cases i <;> rfl

/-- A command that begins and runs to its end from there is the whole command. -/
theorem finishCommand_start (i : Instr) (s : State) : exec i s = .next (finishCommand (start i s)) := by
  rw [exec_eq, start, finishCommand_settle _ _ (stands_accept i s)]

/-- A micro-program only adds to the trace. -/
theorem runToEnd_trace (p : Program) (s : State) : ∃ evs, (runToEnd p s).trace = s.trace ++ evs := by
  induction p generalizing s with
  | done r => exact ⟨[], (List.append_nil _).symm⟩
  | call c next ih =>
    obtain ⟨e, he⟩ := perform_trace c s
    obtain ⟨evs, h⟩ := ih (c.perform s)
    exact ⟨e :: evs, by rw [runToEnd_call, h, he, List.append_assoc]; rfl⟩
  | sample k next ih =>
    obtain ⟨evs, h⟩ := ih _ (sample k s).2
    exact ⟨.rd s.cfg.pin (sample k s).1 :: evs, h.trans (List.append_assoc s.trace [_] evs)⟩
  | note n next ih =>
    obtain ⟨evs, h⟩ := ih (n.apply s)
    exact ⟨evs, by rw [runToEnd_note, h, note_trace]⟩

/-- Between commands the engine changes nothing (60_exceptions.md R222). -/
theorem engineStep_none {s : State} (h : s.micro = none) : engineStep s = s := by
  simp [engineStep, State.rest, h]

/-- Settling changes nothing but the hidden state and the environment, or ends the command. -/
theorem settle_fixed (p : Program) (s : State) :
    (settle p s).cfg = s.cfg ∧ (settle p s).mode = s.mode ∧ (settle p s).fault = s.fault ∧
      (settle p s).status.faulted = s.status.faulted ∧ (settle p s).inCs = s.inCs ∧ (settle p s).trace = s.trace ∧
      (settle p s).earlier = s.earlier ∧ (settle p s).inbox = s.inbox ∧ (settle p s).hostGot = s.hostGot ∧
      (settle p s).world = s.world := by
  induction p generalizing s with
  | done r => exact ⟨rfl, rfl, rfl, rfl, rfl, rfl, rfl, rfl, rfl, rfl⟩
  | call c next ih => exact ⟨rfl, rfl, rfl, rfl, rfl, rfl, rfl, rfl, rfl, rfl⟩
  | sample k next ih => exact ⟨rfl, rfl, rfl, rfl, rfl, rfl, rfl, rfl, rfl, rfl⟩
  | note n next ih => simpa [settle] using ih (n.apply s)

/-- While a settled command is live, it stands where the program says, busy and without results. -/
theorem settle_live (p : Program) (s : State) (h : Stands p s) :
    ((settle p s).micro = none ∧ settle p s = runToEnd p s) ∨
    (∃ q, Stands q (settle p s) ∧ runToEnd p s = runToEnd q (settle p s) ∧ (settle p s).status = s.status ∧
      (settle p s).res = s.res ∧ (settle p s).micro.map Micro.place = s.micro.map Micro.place ∧
      ((∃ c next, q = .call c next) ∨ ∃ k next, q = .sample k next)) := by
  induction p generalizing s with
  | done r => exact .inl ⟨rfl, rfl⟩
  | call c next ih => exact .inr ⟨_, h, rfl, rfl, rfl, rfl, .inl ⟨_, _, rfl⟩⟩
  | sample k next ih => exact .inr ⟨_, h, rfl, rfl, rfl, rfl, .inr ⟨_, _, rfl⟩⟩
  | note n next ih => simpa [settle] using ih (n.apply s) h.note

/-- A step of the engine, by what the command stands before. -/
theorem engineStep_of_stands {p : Program} {s : State} (h : Stands p s)
    (hp : (∃ c next, p = .call c next) ∨ ∃ k next, p = .sample k next) : engineStep s = p.advance s := by
  rw [engineStep, h.rest_eq]
  rcases hp with ⟨c, next, rfl⟩ | ⟨k, next, rfl⟩ <;> rfl

/-- What the engine steps of a command's rest are: `n` of them, each issuing the next of `n` events, the command live until the last, and then it has run to
its end (10_state.md R21, R24). -/
def EngineRuns (s : State) (done : State) : Prop :=
  ∃ evs : List WireEvent, done.trace = s.trace ++ evs ∧ engineStep^[evs.length] s = done ∧
    ∀ k < evs.length, (engineStep^[k] s).status = s.status ∧ (engineStep^[k] s).res = s.res ∧
      (engineStep^[k] s).trace = s.trace ++ evs.take k ∧
      (engineStep^[k] s).micro.map Micro.calls = s.micro.map fun m => m.calls + k

/-- A command that is at its end has no step left. -/
theorem EngineRuns.ended (s : State) : EngineRuns s s :=
  ⟨[], (List.append_nil _).symm, rfl, fun k hk => absurd hk (Nat.not_lt_zero k)⟩

/-- One more step before. -/
theorem EngineRuns.step {s t done : State} {e : WireEvent} (hstep : engineStep s = t) (htr : t.trace = s.trace ++ [e])
    (hcase : t = done ∨
      (t.status = s.status ∧ t.res = s.res ∧ t.micro.map Micro.calls = s.micro.map fun m => m.calls + 1))
    (h : EngineRuns t done) : EngineRuns s done := by
  obtain ⟨evs, hdone, hrun, hlive⟩ := h
  refine ⟨e :: evs, by rw [hdone, htr, List.append_assoc]; rfl, by rw [List.length_cons, Function.iterate_succ_apply, hstep, hrun],
    fun k hk => ?_⟩
  cases k with
  | zero => exact ⟨rfl, rfl, (List.append_nil _).symm, rfl⟩
  | succ j =>
    have hj : j < evs.length := Nat.lt_of_succ_lt_succ hk
    rcases hcase with rfl | ⟨hst, hres, hcalls⟩
    · rw [List.self_eq_append_right.mp hdone] at hj
      exact absurd hj (Nat.not_lt_zero j)
    · obtain ⟨h₁, h₂, h₃, h₄⟩ := hlive j hj
      rw [Function.iterate_succ_apply, hstep]
      refine ⟨h₁.trans hst, h₂.trans hres, by rw [h₃, htr, List.append_assoc]; rfl, h₄.trans ?_⟩
      have := congrArg (Option.map (· + j)) hcalls
      simpa [Option.map_map, Function.comp_def, Nat.add_assoc, Nat.add_comm 1 j] using this

/-- A command's rest that leads to a program still ahead, by one event. -/
theorem EngineRuns.of_settle {next : Program} {s t : State} {e : WireEvent} (hstep : engineStep s = settle next t)
    (ht : Stands next t) (htr : t.trace = s.trace ++ [e]) (hst : t.status = s.status) (hres : t.res = s.res)
    (hcalls : t.micro.map Micro.calls = s.micro.map fun m => m.calls + 1)
    (h : EngineRuns (settle next t) (runToEnd next t)) : EngineRuns s (runToEnd next t) := by
  refine h.step hstep ((settle_fixed next t).2.2.2.2.2.1.trans htr) ?_
  rcases settle_live next t ht with ⟨-, heq⟩ | ⟨q, -, -, hs, hr, hplace, -⟩
  · exact .inl heq
  · refine .inr ⟨hs.trans hst, hr.trans hres, Eq.trans ?_ hcalls⟩
    have := congrArg (Option.map fun x => x.2.2.1) hplace
    simpa [Option.map_map, Function.comp_def, Micro.place] using this

/-- From any position, the engine's steps run the command to its end, one call a step (10_state.md R21). -/
theorem engine_runs (p : Program) (s : State) (h : Stands p s) : EngineRuns (settle p s) (runToEnd p s) := by
  induction p generalizing s with
  | done r => exact EngineRuns.ended _
  | note n next ih => exact ih (n.apply s) h.note
  | call c next ih =>
    obtain ⟨e, he⟩ := perform_trace c s
    obtain ⟨-, hst, -, hres, -, -, -, -, hm⟩ := perform_fixed c s
    exact EngineRuns.of_settle (s := s) (t := c.perform s) (engineStep_of_stands h (.inl ⟨c, next, rfl⟩)) h.perform he hst hres
      (by rw [hm, Option.map_map]; rfl) (ih (c.perform s) h.perform)
  | sample k next ih =>
    exact EngineRuns.of_settle (s := s) (t := (sample k s).2) (engineStep_of_stands h (.inr ⟨k, next, rfl⟩)) h.sample
      (e := .rd s.cfg.pin (sample k s).1) rfl rfl rfl
      (by simp [sample, Function.comp_def, Micro.hear, Micro.advance]) (ih (sample k s).1 (sample k s).2 h.sample)

end Sys2Proof.Machine
end

