-- ==== Sys2Proof/Laws/Search.lean ====
section
/-! SUPPORT. The walk of the search engine (42_search.md rule R152) said once: its slots and its result are those of its sample pairs. -/

namespace Sys2Proof.Machine

/-- One position of the walk whose samples are `id` and `cmp`: two read slots, and the write slot of the direction unless the pair aborts. -/
def PositionTakes (w : Walk) (s : State) (id cmp : Bit) (env : Environment) (m : Option Micro) : Prop :=
  ∀ next, runToEnd (walkPosition s.cfg.t w next) s =
    if id && cmp then runToEnd (next { w with aborted := true }) (bus s [.read id, .read cmp] env m)
    else runToEnd (next (w.take id cmp)) (bus s [.read id, .read cmp, .write (directionOf w.s w.pos id cmp)] env m)

/-- A position, once its two read slots are known. -/
theorem walkPosition_step {w : Walk} {s : State} {id cmp : Bit} {e₁ e₂ : Environment} {m₁ m₂ : Option Micro}
    (h₁ : ∀ next, runToEnd (readBitBody s.cfg.t .openDrain next) s = runToEnd (next id) (bus s [.read id] e₁ m₁))
    (h₂ : ∀ next, runToEnd (readBitBody s.cfg.t .openDrain next) (bus s [.read id] e₁ m₁) =
      runToEnd (next cmp) (bus s [.read id, .read cmp] e₂ m₂)) :
    ∃ m, PositionTakes w s id cmp (if id && cmp then e₂ else e₂.afterWrite (directionOf w.s w.pos id cmp)) m := by
  cases hab : id && cmp with
  | true =>
    obtain ⟨m, h⟩ := walk_eq { w with aborted := true } (bus s [.read id, .read cmp] e₂ m₂)
    rw [bus_bus] at h
    refine ⟨m, fun next => (h₁ _).trans ((h₂ _).trans ?_)⟩
    rw [if_pos hab, if_pos hab, if_pos rfl]
    exact h _
  | false =>
    obtain ⟨m, h⟩ := walk_eq (w.take id cmp) (bus s [.read id, .read cmp] e₂ m₂)
    rw [bus_bus] at h
    obtain ⟨m₃, h₃⟩ := writeBitBody_eq (directionOf w.s w.pos id cmp) (bus s [.read id, .read cmp] e₂ m)
    rw [bus_bus] at h₃
    have hne : ¬(id && cmp) = true := by simp [hab]
    refine ⟨m₃, fun next => (h₁ _).trans ((h₂ _).trans ?_)⟩
    rw [if_neg hne, if_neg hne, if_neg Bool.false_ne_true]
    exact (h _).trans (h₃ _)

/-- One position, whatever the environment. -/
theorem walkPosition_eq (w : Walk) (s : State) (hmode : s.mode = .openDrain) :
    ∃ id cmp env m, PositionTakes w s id cmp env m := by
  obtain ⟨id, e₁, m₁, h₁⟩ := readBitBody_some s
  obtain ⟨cmp, e₂, m₂, h₂⟩ := readBitBody_some (bus s [.read id] e₁ m₁)
  rw [hmode] at h₁
  rw [bus_bus] at h₂
  obtain ⟨m, h⟩ := walkPosition_step (w := w) h₁ h₂
  exact ⟨id, cmp, _, m, h⟩

/-- The same under explicit draws. -/
theorem walkPosition_draws {w : Walk} {s : State} {id cmp : Bit} {rest : List Bit} (hmode : s.mode = .openDrain)
    (hs : s.environment = .draws (id :: cmp :: rest)) :
    ∃ m, PositionTakes w s id cmp (.draws rest) m := by
  obtain ⟨m₁, h₁⟩ := readBitBody_draws hs
  obtain ⟨m₂, h₂⟩ := readBitBody_draws (s := bus s [.read id] (.draws (cmp :: rest)) m₁) (l := cmp) (ls := rest) rfl
  rw [hmode] at h₁
  rw [bus_bus] at h₂
  obtain ⟨m, h⟩ := walkPosition_step (w := w) h₁ h₂
  rw [show (Environment.draws rest).afterWrite (directionOf w.s w.pos id cmp) = .draws rest from rfl, ite_self] at h
  exact ⟨m, h⟩

theorem walkOver_cons_abort (w : Walk) (rest : List (Bit × Bit)) :
    walkOver w ((true, true) :: rest) = { w with aborted := true } := rfl

/-- A position whose pair aborts ends the walk loop. -/
theorem walkLoop_abort {n : Nat} {w : Walk} {s : State} {env : Environment} {m₀ m : Option Micro}
    (h₀ : ∀ next, runToEnd (.note (.walk w) next) s = runToEnd next (bus s [] s.environment m₀))
    (h : PositionTakes w (bus s [] s.environment m₀) true true env m) (next : Walk → Program) :
    runToEnd (walkLoop s.cfg.t (n + 1) w next) s =
      runToEnd (next { w with aborted := true }) (bus s [.read true, .read true] env m) := by
  refine (h₀ _).trans ((h _).trans ?_)
  rw [bus_bus]; rfl

/-- A position whose pair does not abort goes on to the next. -/
theorem walkLoop_take {n : Nat} {w : Walk} {s : State} {id cmp : Bit} {env : Environment} {m₀ m : Option Micro}
    (hw : w.aborted = false) (hab : (id && cmp) = false)
    (h₀ : ∀ next, runToEnd (.note (.walk w) next) s = runToEnd next (bus s [] s.environment m₀))
    (h : PositionTakes w (bus s [] s.environment m₀) id cmp env m) (next : Walk → Program) :
    runToEnd (walkLoop s.cfg.t (n + 1) w next) s =
      runToEnd (walkLoop s.cfg.t n (w.next id cmp) next)
        (bus s [.read id, .read cmp, .write (directionOf w.s w.pos id cmp)] env m) := by
  refine (h₀ _).trans ((h _).trans ?_)
  have htake : (w.take id cmp).aborted = false := hw
  rw [if_neg (by simp [hab]), if_neg (by simp [htake]), bus_bus]; rfl

/-- The walks of at least one position, by their first pair. -/
theorem isWalk_cons {n : Nat} {id cmp : Bit} {pairs : List (Bit × Bit)} :
    IsWalk (n + 1) ((id, cmp) :: pairs) ↔ if id && cmp then pairs = [] else IsWalk n pairs := by
  constructor
  · rintro (⟨hlen, hall⟩ | ⟨before, heq, hlt, hall⟩)
    · have hab := hall _ List.mem_cons_self
      simp only [hab, Bool.false_eq_true, if_false]
      exact .inl ⟨by simpa using hlen, fun p hp => hall p (List.mem_cons_of_mem _ hp)⟩
    · cases before with
      | nil =>
        obtain ⟨hp, rfl⟩ := List.cons.inj heq
        obtain ⟨rfl, rfl⟩ := Prod.mk.inj hp
        rfl
      | cons q before =>
        obtain ⟨rfl, rfl⟩ := List.cons.inj heq
        have hab := hall _ List.mem_cons_self
        simp only [hab, Bool.false_eq_true, if_false]
        exact .inr ⟨before, rfl, by simpa using hlt, fun p hp => hall p (List.mem_cons_of_mem _ hp)⟩
  · intro h
    cases hab : id && cmp with
    | true =>
      obtain ⟨rfl, rfl⟩ : id = true ∧ cmp = true := by simpa using hab
      obtain rfl : pairs = [] := h
      exact .inr ⟨[], rfl, Nat.succ_pos n, by simp⟩
    | false =>
      simp only [hab, Bool.false_eq_true, if_false] at h
      rcases h with ⟨hlen, hall⟩ | ⟨before, rfl, hlt, hall⟩
      · exact .inl ⟨by simp [hlen], by
          intro p hp
          rcases List.mem_cons.mp hp with rfl | hp
          · exact hab
          · exact hall p hp⟩
      · exact .inr ⟨(id, cmp) :: before, rfl, by simpa using hlt, by
          intro p hp
          rcases List.mem_cons.mp hp with rfl | hp
          · exact hab
          · exact hall p hp⟩

/-- A walk of no position has no pair. -/
theorem isWalk_zero {pairs : List (Bit × Bit)} : IsWalk 0 pairs ↔ pairs = [] := by
  constructor
  · rintro (⟨hlen, -⟩ | ⟨_, -, hlt, -⟩)
    · exact List.length_eq_zero_iff.mp hlen
    · omega
  · rintro rfl
    exact .inl ⟨rfl, by simp⟩

/-- The walk loop: some walk of at most `n` sample pairs gives its result and its slots (42_search.md R152, R156, R165). -/
theorem walkLoop_eq (n : Nat) (w : Walk) (s : State) (hmode : s.mode = .openDrain) (hw : w.aborted = false) :
    ∃ pairs env m, IsWalk n pairs ∧ ∀ next,
      runToEnd (walkLoop s.cfg.t n w next) s = runToEnd (next (walkOver w pairs)) (bus s (walkSlots w pairs) env m) := by
  induction n generalizing w s with
  | zero =>
    exact ⟨[], s.environment, s.micro, isWalk_zero.mpr rfl, fun next => by
      rw [show walkSlots w [] = [] from rfl, bus_nil]; rfl⟩
  | succ n ih =>
    obtain ⟨m₀, h₀⟩ := walk_eq w s
    obtain ⟨id, cmp, e₁, m₁, h₁⟩ := walkPosition_eq w (bus s [] s.environment m₀) hmode
    cases hab : id && cmp with
    | true =>
      obtain ⟨rfl, rfl⟩ : id = true ∧ cmp = true := by simpa using hab
      exact ⟨[(true, true)], e₁, m₁, isWalk_cons.mpr rfl, walkLoop_abort h₀ h₁⟩
    | false =>
      obtain ⟨pairs, env, m, hwalk, h⟩ := ih (w.next id cmp)
        (bus s [.read id, .read cmp, .write (directionOf w.s w.pos id cmp)] e₁ m₁) rfl hw
      refine ⟨(id, cmp) :: pairs, env, m, isWalk_cons.mpr (by simpa [hab] using hwalk), fun next => ?_⟩
      refine (walkLoop_take hw hab h₀ h₁ next).trans ((h next).trans ?_)
      simp [walkOver, walkSlots, hab]

/-- The walk loop under explicit draws: its pairs are the draws. -/
theorem walkLoop_draws (n : Nat) (w : Walk) (s : State) (hmode : s.mode = .openDrain) (hw : w.aborted = false)
    (pairs : List (Bit × Bit)) (rest : List Bit) (hwalk : IsWalk n pairs)
    (hs : s.environment = .draws (walkSamples pairs ++ rest)) :
    ∃ m, ∀ next, runToEnd (walkLoop s.cfg.t n w next) s =
      runToEnd (next (walkOver w pairs)) (bus s (walkSlots w pairs) (.draws rest) m) := by
  induction n generalizing w s pairs with
  | zero =>
    obtain rfl := isWalk_zero.mp hwalk
    exact ⟨s.micro, fun next => by
      rw [show walkSlots w [] = [] from rfl, ← show s.environment = .draws rest from hs, bus_nil]; rfl⟩
  | succ n ih =>
    cases pairs with
    | nil =>
      rcases hwalk with ⟨hlen, -⟩ | ⟨before, heq, -, -⟩
      · simp at hlen
      · simp at heq
    | cons p pairs =>
      obtain ⟨id, cmp⟩ := p
      have hwalk' := isWalk_cons.mp hwalk
      obtain ⟨m₀, h₀⟩ := walk_eq w s
      obtain ⟨m₁, h₁⟩ := walkPosition_draws (w := w) (s := bus s [] s.environment m₀) (id := id) (cmp := cmp)
        (rest := walkSamples pairs ++ rest) hmode hs
      cases hab : id && cmp with
      | true =>
        obtain ⟨rfl, rfl⟩ : id = true ∧ cmp = true := by simpa using hab
        obtain rfl : pairs = [] := hwalk'
        exact ⟨m₁, walkLoop_abort h₀ h₁⟩
      | false =>
        simp only [hab, Bool.false_eq_true, if_false] at hwalk'
        obtain ⟨m, h⟩ := ih (w.next id cmp)
          (bus s [.read id, .read cmp, .write (directionOf w.s w.pos id cmp)] (.draws (walkSamples pairs ++ rest)) m₁)
          rfl hw pairs hwalk' rfl
        refine ⟨m, fun next => (walkLoop_take hw hab h₀ h₁ next).trans ((h next).trans ?_)⟩
        simp [walkOver, walkSlots, hab]

end Sys2Proof.Machine
end

