-- ==== Sys2Proof/Laws/Exec.lean ====
section
/-! SUPPORT. Everything a command can do, said once: the slots it issues and the results it leaves (30_encoding.md rule R95, 10_state.md
rule R20). A proof over all commands cites `exec_finished` or `exec_cases` and takes `CommandEnds` apart. -/

namespace Sys2Proof.Machine

/-- The slots and results with which a command can end, under the timing record `t`; POWER and DEPOWER issue no slot sequence and have
their own equation. -/
def CommandEnds (t : Tcfg) (slots : List Slot) (res : Res) : Instr → Prop
  | .writeBit v => slots = [.write v] ∧ res = Res.empty
  | .readBit => ∃ l, slots = [.read l] ∧ res = { Res.empty with bit := some l }
  | .writeByte b => slots = byteSlots b ∧ res = Res.empty
  | .readByte =>
    ∃ ls : List Bit, ls.length = 8 ∧ slots = ls.map .read ∧ res = { Res.empty with byte := some (byteOfBits ls) }
  | .writeBytes data => slots = bytesSlots data ∧ res = Res.empty
  | .readBytes n =>
    ∃ ls : List Bit, ls.length = 8 * n.toNat ∧ slots = ls.map .read ∧
      res = { Res.empty with bytes := some (bytesOfBits n.toNat ls) }
  | .reset =>
    ∃ lows presence, ResetShape t lows presence ∧ slots = [.reset lows presence] ∧
      res = { Res.empty with present := some (presence == some false) }
  | .select rom => slots = bytesSlots (0x55 :: bytesLe rom) ∧ res = Res.empty
  | .skipRom => slots = byteSlots 0xCC ∧ res = Res.empty
  | .power => False
  | .depower => False
  | .resetSearch => slots = [] ∧ res = { Res.empty with ss := some (packSearch SearchState.s0) }
  | .targetSearch fam => slots = [] ∧ res = { Res.empty with ss := some (packSearch (SearchState.seeded fam)) }
  | .search p =>
    ((unpackSearch p).ldf = true ∧ slots = [] ∧ res = { Res.empty with found := some false, ss := some p }) ∨
    ((unpackSearch p).ldf = false ∧ ∃ lows presence, ResetShape t lows presence ∧
      ((presence ≠ some false ∧ slots = [.reset lows presence] ∧ res = noPresenceResult) ∨
        (presence = some false ∧ ∃ pairs, IsWalk 64 pairs ∧
          slots = .reset lows presence :: byteSlots 0xF0 ++ walkSlots (Walk.start (unpackSearch p)) pairs ∧
          res = walkResult (walkOver (Walk.start (unpackSearch p)) pairs))))
  | .crc8 data => slots = [] ∧ ∃ impl, res = { Res.empty with crc8 := some (crc8With impl data) }
  | .crc16 data seed => slots = [] ∧ res = { Res.empty with crc16 := some (crc16 data seed) }
  | .checkCrc16 data seed rx0 rx1 =>
    slots = [] ∧ res = { Res.empty with ok := some (okOf (~~~crc16 data seed) rx0 rx1) }

theorem accept_bus (i : Instr) (s : State) : bus (accept i s) [] s.environment (accept i s).micro = accept i s :=
  bus_nil (accept i s)

/-- A command without a call ends with its results. -/
theorem runCommand_done (i : Instr) (r : Res) (s : State) :
    runCommand i (.done r) s = .next (finished s [] r s.environment) :=
  runCommand_bus (m := (accept i s).micro) (by rw [runToEnd_done, accept_bus])

/-- SEARCH is one of its three paths (42_search.md R152 to R154). -/
theorem execSearch_ends (p : PackedSearch) (s : State) :
    ∃ slots res env, CommandEnds s.cfg.t slots res (.search p) ∧ execSearch p s = .next (finished s slots res env) := by
  cases hf : (unpackSearch p).ldf with
  | true =>
    refine ⟨[], _, s.environment, .inl ⟨hf, rfl, rfl⟩, ?_⟩
    rw [execSearch, searchProgram, if_pos hf]
    exact runCommand_done _ _ s
  | false =>
    obtain ⟨lows, presence, env, m, hshape, h⟩ := resetBody_eq (accept (.search p) s)
    have hne : ¬(unpackSearch p).ldf = true := by simp [hf]
    by_cases hp : presence = some false
    · subst hp
      obtain ⟨m₁, h₁⟩ := writeByteBody_eq searchRomByte (bus (accept (.search p) s) [.reset lows (some false)] env m)
      rw [bus_bus, bus_environment] at h₁
      obtain ⟨pairs, env₂, m₂, hwalk, h₂⟩ := walkLoop_eq 64 (Walk.start (unpackSearch p))
        (bus (accept (.search p) s) ([.reset lows (some false)] ++ byteSlots searchRomByte)
          (env.afterWrites (bitsLsbFirst searchRomByte)) m₁) rfl rfl
      rw [bus_bus] at h₂
      refine ⟨_, _, env₂, .inr ⟨hf, lows, some false, hshape, .inr ⟨rfl, pairs, hwalk, rfl, rfl⟩⟩,
        runCommand_bus (m := m₂) ?_⟩
      rw [searchProgram, if_neg hne]
      exact (h _).trans ((h₁ _).trans (h₂ _))
    · refine ⟨_, _, env, .inr ⟨hf, lows, presence, hshape, .inl ⟨hp, rfl, rfl⟩⟩, runCommand_bus (m := m) ?_⟩
      rw [searchProgram, if_neg hne]
      refine (h _).trans ?_
      rw [if_neg (by simpa using hp)]; rfl

/-- Every command but POWER and DEPOWER ends as `finished` with slots and results of its own. -/
theorem exec_finished (i : Instr) (s : State) (hp : i ≠ .power) (hd : i ≠ .depower) :
    ∃ slots res env, CommandEnds s.cfg.t slots res i ∧ exec i s = .next (finished s slots res env) := by
  cases i with
  | writeBit v =>
    obtain ⟨m, h⟩ := writeBitBody_eq v (accept (.writeBit v) s)
    exact ⟨[.write v], Res.empty, _, ⟨rfl, rfl⟩, runCommand_bus (h _)⟩
  | readBit =>
    obtain ⟨l, env, m, h⟩ := readBitBody_some (accept .readBit s)
    exact ⟨[.read l], { Res.empty with bit := some l }, env, ⟨l, rfl, rfl⟩, runCommand_bus (h _)⟩
  | writeByte b =>
    obtain ⟨m, h⟩ := writeByteBody_eq b (accept (.writeByte b) s)
    exact ⟨byteSlots b, Res.empty, _, ⟨rfl, rfl⟩, runCommand_bus (h _)⟩
  | readByte =>
    obtain ⟨ls, env, m, hlen, h⟩ := readByteBody_eq (accept .readByte s)
    exact ⟨ls.map .read, { Res.empty with byte := some (byteOfBits ls) }, env, ⟨ls, hlen, rfl, rfl⟩, runCommand_bus (h _)⟩
  | writeBytes data =>
    obtain ⟨m, h⟩ := writeBytesBody_eq data (accept (.writeBytes data) s)
    exact ⟨bytesSlots data, Res.empty, _, ⟨rfl, rfl⟩, runCommand_bus (h _)⟩
  | readBytes n =>
    obtain ⟨ls, env, m, hlen, h⟩ := readBytesFrom_eq 0 n.toNat (accept (.readBytes n) s)
    exact ⟨ls.map .read, { Res.empty with bytes := some (bytesOfBits n.toNat ls) }, env, ⟨ls, hlen, rfl, rfl⟩,
      runCommand_bus (h _)⟩
  | reset =>
    obtain ⟨lows, presence, env, m, hshape, h⟩ := resetBody_eq (accept .reset s)
    exact ⟨[.reset lows presence], { Res.empty with present := some (presence == some false) }, env,
      ⟨lows, presence, hshape, rfl, rfl⟩, runCommand_bus (h _)⟩
  | select rom =>
    obtain ⟨m, h⟩ := selectProgram_eq rom (accept (.select rom) s)
    exact ⟨bytesSlots (0x55 :: bytesLe rom), Res.empty, _, ⟨rfl, rfl⟩, runCommand_bus h⟩
  | skipRom =>
    obtain ⟨m, h⟩ := writeByteBody_eq skipRomByte (accept .skipRom s)
    exact ⟨byteSlots 0xCC, Res.empty, _, ⟨rfl, rfl⟩, runCommand_bus (h _)⟩
  | power => exact absurd rfl hp
  | depower => exact absurd rfl hd
  | resetSearch => exact ⟨_, _, _, ⟨rfl, rfl⟩, runCommand_done _ _ s⟩
  | targetSearch fam => exact ⟨_, _, _, ⟨rfl, rfl⟩, runCommand_done _ _ s⟩
  | search p => exact execSearch_ends p s
  | crc8 data => exact ⟨_, _, _, ⟨rfl, s.cfg.crc8Impl, rfl⟩, runCommand_done _ _ s⟩
  | crc16 data seed => exact ⟨_, _, _, ⟨rfl, rfl⟩, runCommand_done _ _ s⟩
  | checkCrc16 data seed rx0 rx1 => exact ⟨_, _, _, ⟨rfl, rfl⟩, runCommand_done _ _ s⟩

/-- POWER (41_bus_control.md R133) writes the latch, then the mode. -/
theorem exec_power (s : State) : exec .power s = .next (repowered s .driven .driven) := by
  refine congrArg Host.Outcome.next ?_
  ext1 <;> simp [powerProgram, repowered]

/-- DEPOWER (41_bus_control.md R134) writes the latch, then the mode. -/
theorem exec_depower (s : State) : exec .depower s = .next (repowered s .openDrain .openDrain) := by
  refine congrArg Host.Outcome.next ?_
  ext1 <;> simp [depowerProgram, repowered]

/-- What a command that answers a next state did. -/
theorem exec_cases {i : Instr} {s t : State} (h : exec i s = .next t) :
    (∃ slots res env, CommandEnds s.cfg.t slots res i ∧ t = finished s slots res env) ∨
    (i = .power ∧ t = repowered s .driven .driven) ∨
    (i = .depower ∧ t = repowered s .openDrain .openDrain) := by
  by_cases hp : i = .power
  · subst hp
    exact .inr (.inl ⟨rfl, Host.Outcome.next.inj (h.symm.trans (exec_power s))⟩)
  · by_cases hd : i = .depower
    · subst hd
      exact .inr (.inr ⟨rfl, Host.Outcome.next.inj (h.symm.trans (exec_depower s))⟩)
    · obtain ⟨slots, res, env, hends, heq⟩ := exec_finished i s hp hd
      exact .inl ⟨slots, res, env, hends, Host.Outcome.next.inj (h.symm.trans heq)⟩

end Sys2Proof.Machine
end

