-- ==== Sys2Proof/Laws/PerInstr.lean ====
section
/-! SUPPORT. One fact about every command as syntax: its word and its operands are those of its row (30_encoding.md rules R81 to R85). -/

namespace Sys2Proof

/-- The command's word matches its row under the row's mask, and the operands present are exactly the row's (30_encoding.md R84, R85). -/
def Laws.TableWord.Statement (i : Instr) : Prop :=
  ∃ r ∈ opcodeMap, rowOf (opField (encode i).cw) = some r ∧
    (encode i).cw &&& r.maskWord = r.matchWord ∧
    (encode i).dataIn.isSome = r.data ∧ (encode i).romIn.isSome = r.rom ∧ (encode i).seed.isSome = r.seed ∧
    (encode i).rx.isSome = r.rx ∧ (encode i).ssIn.isSome = r.ss

namespace Laws.TableWord

theorem writeBit (v : Bit) : Statement (.writeBit v) :=
  ⟨opcodeMap[0], by decide, by cases v <;> decide, by cases v <;> decide, rfl, rfl, rfl, rfl, rfl⟩

theorem readBit : Statement .readBit :=
  ⟨opcodeMap[1], by decide, by decide, by decide, rfl, rfl, rfl, rfl, rfl⟩

theorem writeByte (b : Byte) : Statement (.writeByte b) :=
  ⟨opcodeMap[2], by decide, by rw [encode, opField_mkWord]; decide,
    by simp only [encode, OpRow.maskWord, OpRow.matchWord, mkWord_and, mkWord_inj]; exact ⟨by decide, BitVec.and_zero, by decide⟩,
    rfl, rfl, rfl, rfl, rfl⟩

theorem readByte : Statement .readByte :=
  ⟨opcodeMap[3], by decide, by decide, by decide, rfl, rfl, rfl, rfl, rfl⟩

theorem writeBytes (data : List Byte) : Statement (.writeBytes data) :=
  ⟨opcodeMap[4], by decide, by rw [encode, opField_mkWord]; decide,
    by simp only [encode, OpRow.maskWord, OpRow.matchWord, mkWord_and, mkWord_inj]; exact ⟨BitVec.and_zero, by decide, by decide⟩,
    rfl, rfl, rfl, rfl, rfl⟩

theorem readBytes (n : U16) : Statement (.readBytes n) :=
  ⟨opcodeMap[5], by decide, by rw [encode, opField_mkWord]; decide,
    by simp only [encode, OpRow.maskWord, OpRow.matchWord, mkWord_and, mkWord_inj]; exact ⟨BitVec.and_zero, by decide, by decide⟩,
    rfl, rfl, rfl, rfl, rfl⟩

theorem reset : Statement .reset :=
  ⟨opcodeMap[6], by decide, by decide, by decide, rfl, rfl, rfl, rfl, rfl⟩

theorem select (rom : Addr) : Statement (.select rom) :=
  ⟨opcodeMap[7], by decide, by rw [encode, opField_mkWord]; decide, by show mkWord 0 0 0x11 &&& _ = _; decide, rfl, rfl, rfl, rfl, rfl⟩

theorem skipRom : Statement .skipRom :=
  ⟨opcodeMap[8], by decide, by decide, by decide, rfl, rfl, rfl, rfl, rfl⟩

theorem power : Statement .power :=
  ⟨opcodeMap[9], by decide, by decide, by decide, rfl, rfl, rfl, rfl, rfl⟩

theorem depower : Statement .depower :=
  ⟨opcodeMap[10], by decide, by decide, by decide, rfl, rfl, rfl, rfl, rfl⟩

theorem resetSearch : Statement .resetSearch :=
  ⟨opcodeMap[11], by decide, by decide, by decide, rfl, rfl, rfl, rfl, rfl⟩

theorem targetSearch (fam : Byte) : Statement (.targetSearch fam) :=
  ⟨opcodeMap[12], by decide, by rw [encode, opField_mkWord]; decide,
    by simp only [encode, OpRow.maskWord, OpRow.matchWord, mkWord_and, mkWord_inj]; exact ⟨by decide, BitVec.and_zero, by decide⟩,
    rfl, rfl, rfl, rfl, rfl⟩

theorem search (ss : PackedSearch) : Statement (.search ss) :=
  ⟨opcodeMap[13], by decide, by rw [encode, opField_mkWord]; decide, by show mkWord 0 0 0x22 &&& _ = _; decide, rfl, rfl, rfl, rfl, rfl⟩

theorem crc8 (data : List Byte) : Statement (.crc8 data) :=
  ⟨opcodeMap[14], by decide, by rw [encode, opField_mkWord]; decide,
    by simp only [encode, OpRow.maskWord, OpRow.matchWord, mkWord_and, mkWord_inj]; exact ⟨BitVec.and_zero, by decide, by decide⟩,
    rfl, rfl, rfl, rfl, rfl⟩

theorem crc16 (data : List Byte) (seed : U16) : Statement (.crc16 data seed) :=
  ⟨opcodeMap[15], by decide, by rw [encode, opField_mkWord]; decide,
    by simp only [encode, OpRow.maskWord, OpRow.matchWord, mkWord_and, mkWord_inj]; exact ⟨BitVec.and_zero, by decide, by decide⟩,
    rfl, rfl, rfl, rfl, rfl⟩

theorem checkCrc16 (data : List Byte) (seed : U16) (rx0 rx1 : Byte) : Statement (.checkCrc16 data seed rx0 rx1) :=
  ⟨opcodeMap[16], by decide, by rw [encode, opField_mkWord]; decide,
    by simp only [encode, OpRow.maskWord, OpRow.matchWord, mkWord_and, mkWord_inj]; exact ⟨BitVec.and_zero, by decide, by decide⟩,
    rfl, rfl, rfl, rfl, rfl⟩

end Laws.TableWord

end Sys2Proof
end

