-- ==== Sys2Proof/Laws/Step.lean ====
section
/-! SUPPORT. Everything a step can do, said once (10_state.md rule R21, 70_reset_and_hazards.md rule R236), and one command of a run. A proof over all
steps cites `step_cases` and never unfolds `step`. -/

namespace Sys2Proof.Machine

/-! ### Small lemmas -/

section fields
variable (s : State) (h : HostInput)

@[simp] theorem present_cfg : (s.present h).cfg = s.cfg := rfl
@[simp] theorem present_mode : (s.present h).mode = s.mode := rfl
@[simp] theorem present_status : (s.present h).status = s.status := rfl
@[simp] theorem present_fault : (s.present h).fault = s.fault := rfl
@[simp] theorem present_res : (s.present h).res = s.res := rfl
@[simp] theorem present_inCs : (s.present h).inCs = s.inCs := rfl
@[simp] theorem present_micro : (s.present h).micro = s.micro := rfl
@[simp] theorem present_trace : (s.present h).trace = s.trace := rfl
@[simp] theorem present_earlier : (s.present h).earlier = s.earlier := rfl
@[simp] theorem present_inbox : (s.present h).inbox = h :: s.inbox := rfl
@[simp] theorem present_hostGot : (s.present h).hostGot = s.hostGot := rfl
@[simp] theorem present_environment : (s.present h).environment = s.environment := rfl
@[simp] theorem present_world : (s.present h).world = s.world := rfl
end fields

@[simp] theorem moveTo_devices (b : RefBus) (p : BusPhase) : (b.moveTo p).devices = b.devices := rfl
@[simp] theorem moveTo_script (b : RefBus) (p : BusPhase) : (b.moveTo p).script = b.script := rfl
@[simp] theorem moveTo_phase (b : RefBus) (p : BusPhase) : (b.moveTo p).phase = p := rfl

@[simp] theorem advance_state (r : RunState) (h : HostCommand) (t : State) : (r.advance h t).state = t := rfl
@[simp] theorem advance_results (r : RunState) (h : HostCommand) (t : State) :
    (r.advance h t).results = r.results ++ [t.res] := rfl
@[simp] theorem advance_held (r : RunState) (h : HostCommand) (t : State) :
    (r.advance h t).held = keepResult h.keepAs t.res r.held := rfl

/-! ### What a step can do -/

/-- The block accepts a command exactly where `admission` gives no fault. -/
theorem admission_none_iff (w : Bool) (s : State) : admission w s = none ↔ s.Accepts w := by
  unfold admission
  cases hb : s.status.busy <;> cases hf : s.status.faulted <;> cases w <;> cases hn : s.cfg.csNestable <;>
    simp [State.Accepts, hb, hf, hn]

/-- The reference bus answers an idle poll with 1 and a Reset slot by its devices, whatever came before (20_memory.md R71). -/
theorem onSample_reset (b : RefBus) :
    b.onSample .idlePoll = (some true, b) ∧ b.onSample .presence = (some b.devices.isEmpty, b.moveTo (.cmd [])) :=
  ⟨rfl, rfl⟩

/-- A host input that waits is a read presented while a command is live. -/
theorem held_iff {h : HostInput} {s : State} : held h s = true ↔ h.isRead = true ∧ s.micro.isSome = true := by
  simp [held]

/-- What a step that answers a next state did: the engine's step, a command's fault, a command run at its pace, block reset, or the delivery of a read. -/
theorem step_cases {s t : State} (h : step s = .next t) :
    (t = engineStep s ∧ (s.inbox = [] ∨ ∃ r rest, s.inbox = r :: rest ∧ held r s = true)) ∨
    (∃ c w p rest, s.inbox = .command c w p :: rest ∧ s.Accepts w ∧
      ((∃ e, decode c = .error e ∧ t = raiseFault (causeOf e) (opField c.cw) { s with inbox := rest }) ∨
       (∃ i, decode c = .ok i ∧ runAt p i { s with inbox := rest } = .next t))) ∨
    (∃ rest, s.inbox = .blockReset :: rest ∧ s.status.busy = false ∧ t = blockReset { s with inbox := rest }) ∨
    (∃ f rest v, s.inbox = .readRes f :: rest ∧ s.micro = none ∧ s.res.read f = some v ∧
      t = deliver v { s with inbox := rest }) ∨
    (∃ r rest, s.inbox = .readReg r :: rest ∧ s.micro = none ∧ t = deliver (s.readReg r) { s with inbox := rest }) := by
  unfold step at h
  split at h
  next hi => exact .inl ⟨(Host.Outcome.next.inj h).symm, .inl hi⟩
  next x rest hi =>
    split at h
    next hheld => exact .inl ⟨(Host.Outcome.next.inj h).symm, .inr ⟨x, rest, hi, hheld⟩⟩
    next hheld =>
      cases x with
      | command c w p =>
        refine .inr (.inl ⟨c, w, p, rest, hi, ?_⟩)
        simp only [stepInput, stepCommand] at h
        split at h
        · cases h
        next hn =>
          refine ⟨(admission_none_iff w _).mp hn, ?_⟩
          split at h
          next e he => exact .inl ⟨e, he, (Host.Outcome.next.inj h).symm⟩
          next i he => exact .inr ⟨i, he, h⟩
      | blockReset =>
        simp only [stepInput, hostBlockReset] at h
        split at h
        · cases h
        next hb =>
          exact .inr (.inr (.inl ⟨rest, hi, Bool.eq_false_iff.mpr hb, (Host.Outcome.next.inj h).symm⟩))
      | readRes f =>
        have hm : s.micro = none := by simpa [held, HostInput.isRead] using hheld
        simp only [stepInput, hostReadRes] at h
        split at h
        next v hv => exact .inr (.inr (.inr (.inl ⟨f, rest, v, hi, hm, hv, (Host.Outcome.next.inj h).symm⟩)))
        · cases h
      | readReg r =>
        have hm : s.micro = none := by simpa [held, HostInput.isRead] using hheld
        exact .inr (.inr (.inr (.inr ⟨r, rest, hi, hm, (Host.Outcome.next.inj h).symm⟩)))

/-- One command of a run that goes on: its step, and what the run then holds. -/
theorem issue_next_iff {r r' : RunState} {h : HostCommand} :
    r.issue h = .next r' ↔
      ∃ t, step (r.state.present (.command h.command h.insideWindow .whole)) = .next t ∧ r' = r.advance h t := by
  unfold RunState.issue
  split
  next t ht => exact ⟨fun e => ⟨t, ht, (Host.Outcome.next.inj e).symm⟩, by
    rintro ⟨t', ht', rfl⟩
    rw [Host.Outcome.next.inj (ht.symm.trans ht')]⟩
  next f hf => exact ⟨fun e => (by cases e), by rintro ⟨t, ht, -⟩; exact absurd (hf.symm.trans ht) (by simp)⟩
  next f hf => exact ⟨fun e => (by cases e), by rintro ⟨t, ht, -⟩; exact absurd (hf.symm.trans ht) (by simp)⟩

end Sys2Proof.Machine
end

