-- ==== Sys2Proof/Machine/Assembler.lean ====
section
/-! DEFINITION. The assembler syntax of 30_encoding.md rule R88, its pseudo-instructions (R89) and the seed default of 43_crc.md rule R186:
one line of text, as a list of characters, to the command a host presents. -/

namespace Sys2Proof.Machine

/-! ### Pseudo-instructions (30_encoding.md R89) -/

/-- The three pseudo-instructions of 30_encoding.md R89. -/
inductive Pseudo where
  | matchRomCmd
  | searchRomCmd
  | writeRom (rom : Addr)
  deriving DecidableEq, Repr

/-- The expansion of a pseudo-instruction (30_encoding.md R89). -/
def Pseudo.expand : Pseudo → Instr
  | .matchRomCmd => .writeByte 0x55
  | .searchRomCmd => .writeByte 0xF0
  | .writeRom rom => .writeBytes (bytesLe rom)

/-! ### Tokens -/

/-- The tokens of a line (30_encoding.md R88). -/
inductive Token where
  | word (w : List Char)
  | num (n : Nat)
  | comma
  | opening
  | closing
  | arrow
  deriving DecidableEq, Repr

/-- The value of a digit in base 16, for either case of letters. -/
def digitValue (c : Char) : Option Nat :=
  let n := c.toNat
  if 48 ≤ n ∧ n ≤ 57 then some (n - 48)
  else if 97 ≤ n ∧ n ≤ 102 then some (n - 87)
  else if 65 ≤ n ∧ n ≤ 70 then some (n - 55)
  else none

/-- A numeral in a base, most significant digit first; none where a character is no digit of the base. -/
def numeral (base acc : Nat) : List Char → Option Nat
  | [] => some acc
  | c :: rest =>
    match digitValue c with
    | some d => if d < base then numeral base (acc * base + d) rest else none
    | none => none

/-- A word that begins with a digit is a number, decimal or `0x` hexadecimal (30_encoding.md R88); any other is a name. -/
def wordToken (w : List Char) : Option Token :=
  match w with
  | [] => none
  | c :: rest =>
    if c.isDigit then
      match c, rest with
      | '0', 'x' :: d :: ds => (numeral 16 0 (d :: ds)).map .num
      | _, _ => (numeral 10 0 w).map .num
    else some (.word w)

/-- The tokens collected so far (newest first) with the pending word (newest character first) closed. -/
def closeWord (pending : List Char) (acc : List Token) : Option (List Token) :=
  if pending.isEmpty then some acc
  else (wordToken pending.reverse).map fun t => t :: acc

/-- The tokens of a line, newest first; a comment runs from `;` to the end (30_encoding.md R88). DESIGN CHOICE (assumption 22; safe): besides the comma,
the brackets, the arrow and the comment, the space alone separates words, so a tab joins them, and an arrow with no space before it is no token. -/
def lexFrom (pending : List Char) (acc : List Token) : List Char → Option (List Token)
  | [] => closeWord pending acc
  | c :: rest =>
    match c with
    | ';' => closeWord pending acc
    | ' ' => (closeWord pending acc).bind fun a => lexFrom [] a rest
    | ',' => (closeWord pending acc).bind fun a => lexFrom [] (.comma :: a) rest
    | '[' => (closeWord pending acc).bind fun a => lexFrom [] (.opening :: a) rest
    | ']' => (closeWord pending acc).bind fun a => lexFrom [] (.closing :: a) rest
    | '>' => if pending = ['-'] then lexFrom [] (.arrow :: acc) rest else none
    | _ => lexFrom (c :: pending) acc rest

/-- The tokens of a line in order. -/
def lexLine (line : List Char) : Option (List Token) := (lexFrom [] [] line).map List.reverse

/-! ### Operands -/

/-- An operand of a line: a number, a byte sequence in time order, or a host variable (30_encoding.md R88). -/
inductive AsmOperand where
  | num (n : Nat)
  | bytes (d : List Byte)
  | var (w : List Char)
  deriving DecidableEq, Repr

/-- The rest of a byte sequence after its opening bracket, with the tokens that follow it. -/
def parseBytes : List Token → Option (List Byte × List Token)
  | .closing :: rest => some ([], rest)
  | .num n :: .closing :: rest => if n < 256 then some ([BitVec.ofNat 8 n], rest) else none
  | .num n :: .comma :: .num m :: rest =>
    if n < 256 then (parseBytes (.num m :: rest)).map fun r => (BitVec.ofNat 8 n :: r.1, r.2) else none
  | _ => none

/-- Comma-separated operands, up to the result arrow or the end; `fuel` bounds their number. -/
def parseOperands : Nat → List Token → Option (List AsmOperand × List Token)
  | 0, _ => none
  | fuel + 1, toks =>
    let more (o : AsmOperand) (rest : List Token) : Option (List AsmOperand × List Token) :=
      match rest with
      | .comma :: after =>
        (parseOperands fuel after).bind fun r => if r.1.isEmpty then none else some (o :: r.1, r.2)
      | _ => some ([o], rest)
    match toks with
    | [] => some ([], [])
    | .arrow :: rest => some ([], .arrow :: rest)
    | .num n :: rest => more (.num n) rest
    | .word w :: rest => more (.var w) rest
    | .opening :: rest => (parseBytes rest).bind fun r => more (.bytes r.1) r.2
    | _ => none

/-- The host variable a result goes to: none, or the one name after the arrow (30_encoding.md R88). -/
def parseResult : List Token → Option (Option (List Char))
  | [] => some none
  | [.arrow, .word w] => some (some w)
  | _ => none

/-- A parsed line: mnemonic, operands, result variable. -/
structure AsmLine where
  mnemonic : List Char
  operands : List AsmOperand
  result : Option (List Char)
  deriving DecidableEq, Repr

/-- The parse of a line's tokens. -/
def parseLine : List Token → Option AsmLine
  | .word w :: rest =>
    (parseOperands (rest.length + 1) rest).bind fun r =>
      (parseResult r.2).map fun v => { mnemonic := w, operands := r.1, result := v }
  | _ => none

/-! ### Commands -/

/-- A command with data: the count of the line is its `LEN` (30_encoding.md R82, R88). -/
def dataCommand (op : Byte) (n : Nat) (d : List Byte) (seed : Option U16) (rx : Option (Byte × Byte)) :
    Option Command :=
  if n < 65536 then
    some { cw := mkWord (BitVec.ofNat 16 n) 0 op, dataIn := some d, seed := seed, rx := rx }
  else none

/-- The command of a mnemonic that takes one byte in `A`. -/
def byteCommand (op : Byte) (n : Nat) : Option Command :=
  if n < 256 then some { cw := mkWord 0 (BitVec.ofNat 8 n) op } else none

/-- The command of a mnemonic and its operands (30_encoding.md R88, R89; the omitted seed of `CRC16` is 0 by 43_crc.md R186); `vars` are the host's
Search States. DESIGN CHOICE (assumption 22; safe): a number too large for its field gives no command, and is not truncated. -/
def commandOf (vars : List (List Char × PackedSearch)) (mnemonic : String) (operands : List AsmOperand) :
    Option Command :=
  match mnemonic, operands with
  | "WRITE_BIT", [.num n] => if n < 2 then byteCommand 0x01 n else none
  | "READ_BIT", [] => some (encode .readBit)
  | "WRITE_BYTE", [.num n] => byteCommand 0x03 n
  | "READ_BYTE", [] => some (encode .readByte)
  | "WRITE_BYTES", [.num n, .bytes d] => dataCommand 0x05 n d none none
  | "READ_BYTES", [.num n] => if n < 65536 then some (encode (.readBytes (BitVec.ofNat 16 n))) else none
  | "RESET", [] => some (encode .reset)
  | "SELECT", [.num n] => if n < 2 ^ 64 then some (encode (.select (BitVec.ofNat 64 n))) else none
  | "SKIP_ROM", [] => some (encode .skipRom)
  | "POWER", [] => some (encode .power)
  | "DEPOWER", [] => some (encode .depower)
  | "RESET_SEARCH", [] => some (encode .resetSearch)
  | "TARGET_SEARCH", [.num n] => byteCommand 0x21 n
  | "SEARCH", [.var w] => (vars.lookup w).map fun p => encode (.search p)
  | "CRC8", [.num n, .bytes d] => dataCommand 0x30 n d none none
  | "CRC16", [.num n, .bytes d] => dataCommand 0x31 n d (some 0) none
  | "CRC16", [.num n, .bytes d, .num seed] =>
    if seed < 65536 then dataCommand 0x31 n d (some (BitVec.ofNat 16 seed)) none else none
  | "CHECK_CRC16", [.num n, .bytes d, .num seed, .num rx0, .num rx1] =>
    if seed < 65536 ∧ rx0 < 256 ∧ rx1 < 256 then
      dataCommand 0x32 n d (some (BitVec.ofNat 16 seed)) (some (BitVec.ofNat 8 rx0, BitVec.ofNat 8 rx1))
    else none
  | "MATCH_ROM_CMD", [] => some (encode Pseudo.matchRomCmd.expand)
  | "SEARCH_ROM_CMD", [] => some (encode Pseudo.searchRomCmd.expand)
  | "WRITE_ROM", [.num n] =>
    if n < 2 ^ 64 then some (encode (Pseudo.writeRom (BitVec.ofNat 64 n)).expand) else none
  | _, _ => none

/-- The mnemonics whose lines name a host variable for their Search State result (30_encoding.md R88). -/
def namesResult (mnemonic : String) : Bool :=
  mnemonic == "RESET_SEARCH" || mnemonic == "TARGET_SEARCH" || mnemonic == "SEARCH"

/-- A line's command, if it holds one, with the host variable its Search State result goes to (30_encoding.md R88); a line of blanks or comment alone
assembles to nothing. -/
def assembleLine (vars : List (List Char × PackedSearch)) (line : List Char) :
    Option (Option (Command × Option (List Char))) :=
  match lexLine line with
  | none => none
  | some [] => some none
  | some toks =>
    (parseLine toks).bind fun l =>
      if namesResult (String.ofList l.mnemonic) != l.result.isSome then none
      else (commandOf vars (String.ofList l.mnemonic) l.operands).map fun c => some (c, l.result)

end Sys2Proof.Machine
end

