-- ==== Sys2Proof/Tests/Slice0.lean ====
section
/-! SUPPORT. Tests with expected values from the vectors of 95_test_vectors.md or by hand from a rule, and for every statement with hypotheses a
witness that meets them. -/

open Sys2Proof Sys2Proof.Machine

namespace Sys2Proof.Tests

set_option maxRecDepth 20000

/-! ### Helpers -/

/-- Idle, open-drain, answering from `ls`: the start state of the vectors. -/
def onDraws (ls : List Bit) : State := { State.reset with mode := .openDrain, environment := .draws ls }

/-- The same on the reference bus. -/
def onBus (devices : List Addr) : State := { State.reset with mode := .openDrain, environment := .rb devices [] }

/-- With one host input presented. -/
def presented (h : HostInput) : State := { State.reset with inbox := [h] }

/-- A view of an outcome's next state. -/
def view {α : Type} (f : State → α) (o : Host.Outcome State Fault Refusal) : Option α :=
  match o with
  | .next t => some (f t)
  | .fault _ => none
  | .refused _ => none

/-- Device A of the vectors. -/
def deviceA : Addr := 0x9E06050403020128

/-- ASCII "123456789". -/
def digits : List Byte := [0x31, 0x32, 0x33, 0x34, 0x35, 0x36, 0x37, 0x38, 0x39]

/-- The sample pairs of a walk that finds only address `a`. -/
def pairsOf (a : Addr) : List (Bit × Bit) := (List.range 64).map fun i => (a.getLsbD i, !a.getLsbD i)

/-! ### Well-formedness: each check refuses an ill-formed term -/

theorem unfit {data : List Byte} (h : 65535 < data.length) : lengthFits data = false :=
  decide_eq_false (Nat.not_le_of_lt h)

theorem fit {data : List Byte} (h : data.length ≤ 65535) : lengthFits data = true :=
  decide_eq_true h

theorem test_wf_writeBytes : (Instr.writeBytes (List.replicate 65536 0)).wellFormed = false :=
  unfit (by rw [List.length_replicate]; decide)

theorem test_wf_crc8 : (Instr.crc8 (List.replicate 65536 0)).wellFormed = false :=
  unfit (by rw [List.length_replicate]; decide)

theorem test_wf_crc16 : (Instr.crc16 (List.replicate 65536 0) 0).wellFormed = false :=
  unfit (by rw [List.length_replicate]; decide)

theorem test_wf_checkCrc16 : (Instr.checkCrc16 (List.replicate 65536 0) 0 0 0).wellFormed = false :=
  unfit (by rw [List.length_replicate]; decide)

theorem test_wf_search : (Instr.search 0x410000000000000000).wellFormed = false := by decide

theorem test_wf_at_the_bounds :
    (Instr.writeBytes (List.replicate 65535 0)).wellFormed = true ∧
    (Instr.search 0xC00000000000000000).wellFormed = true := by
  constructor
  · exact fit (by rw [List.length_replicate])
  · decide

/-! ### Decoding (V-D1): every constructor's word, written out from 30_encoding.md R84 -/

theorem test_decode_writeBit : decode { cw := 0x00000101 } = .ok (.writeBit true) := by decide
theorem test_decode_writeBit_zero : decode { cw := 0x00000001 } = .ok (.writeBit false) := by decide
theorem test_decode_readBit : decode { cw := 0x00000002 } = .ok .readBit := by decide
theorem test_decode_writeByte : decode { cw := 0x00004403 } = .ok (.writeByte 0x44) := by decide
theorem test_decode_readByte : decode { cw := 0x00000004 } = .ok .readByte := by decide
theorem test_decode_writeBytes :
    decode { cw := 0x00020005, dataIn := some [0x55, 0x01] } = .ok (.writeBytes [0x55, 0x01]) := by decide
theorem test_decode_readBytes : decode { cw := 0x00090006 } = .ok (.readBytes 9) := by decide
theorem test_decode_reset : decode { cw := 0b00000000000000000000000000010000 } = .ok .reset := by decide
theorem test_decode_select : decode { cw := 0x00000011, romIn := some deviceA } = .ok (.select deviceA) := by decide
theorem test_decode_skipRom : decode { cw := 0x00000012 } = .ok .skipRom := by decide
theorem test_decode_power : decode { cw := 0x00000013 } = .ok .power := by decide
theorem test_decode_depower : decode { cw := 0x00000014 } = .ok .depower := by decide
theorem test_decode_resetSearch : decode { cw := 0x00000020 } = .ok .resetSearch := by decide
theorem test_decode_targetSearch : decode { cw := 0x00002821 } = .ok (.targetSearch 0x28) := by decide
theorem test_decode_search : decode { cw := 0x00000022, ssIn := some 5 } = .ok (.search 5) := by decide
theorem test_decode_crc8 : decode { cw := 0x00090030, dataIn := some digits } = .ok (.crc8 digits) := by decide
theorem test_decode_crc16 :
    decode { cw := 0x00090031, dataIn := some digits, seed := some 0 } = .ok (.crc16 digits 0) := by decide
theorem test_decode_checkCrc16 :
    decode { cw := 0x00090032, dataIn := some digits, seed := some 0, rx := some (0xC2, 0x44) } =
      .ok (.checkCrc16 digits 0 0xC2 0x44) := by decide

/-! ### Faults (V-D2) -/

theorem test_fault_reserved : decode { cw := 0xFFFFFFFF } = .error .reservedOpcode := by decide
theorem test_fault_field : decode { cw := 0x00000201 } = .error .nonZeroField := by decide
theorem test_fault_length : decode { cw := 0x00020005, dataIn := some [0, 0, 0] } = .error .operandShape := by decide
theorem test_fault_missing : decode { cw := 0x00000011 } = .error .operandShape := by decide
theorem test_fault_untaken : decode { cw := 0x00000010, romIn := some 0 } = .error .operandShape := by decide
theorem test_fault_searchState :
    decode { cw := 0x00000022, ssIn := some 0x410000000000000000 } = .error .searchStateRange := by decide
theorem test_fault_first_check_wins :
    decode { cw := 0x00000122, ssIn := some 0x410000000000000000 } = .error .nonZeroField := by decide

/-- V-D2: `FAULT` and `STATUS` as the host reads them after a faulting SEARCH; the trace is empty. -/
theorem test_fault_registers :
    view (fun t => (t.faultReg, t.statusReg, t.trace))
      (step (presented (.command { cw := 0x00000022, ssIn := some 0x410000000000000000 } false .whole))) =
      some (0x00002202, 0x00000002, []) := by decide

/-! ### Length of a command (30_encoding.md R87) and the assembler (R88, R89) -/

theorem test_length_crc16 : commandBits 0x00090031 = some (32 + 72 + 16) := by decide
theorem test_assemble_seed_default :
    assembleLine [] "CRC16 1, [0x01] ; seed 0".toList =
      some (some ({ cw := 0x00010031, dataIn := some [0x01], seed := some 0 }, none)) := by decide
theorem test_assemble_search :
    assembleLine [(['s'], 5)] "SEARCH s -> s".toList =
      some (some ({ cw := 0x00000022, ssIn := some 5 }, some ['s'])) := by decide

/-! ### Transport -/

/-- V-T3. -/
theorem test_writeBit_from_reset :
    view (fun t => (t.trace, t.mode)) (exec (.writeBit true) State.reset) =
      some ([.wr 0 true, .cfg 0 .openDrain, .csEnter, .wr 0 false, .delay 6, .wr 0 true, .csExit, .delay 64],
        .openDrain) := by decide

/-- V-T4. -/
theorem test_writeBit_zero_when_driven :
    view (fun t => (t.trace, t.mode)) (exec (.writeBit false) { State.reset with mode := .driven }) =
      some ([.wr 0 true, .cfg 0 .openDrain, .csEnter, .wr 0 false, .delay 60, .wr 0 true, .csExit, .delay 10],
        .openDrain) := by decide

/-- V-T5. -/
theorem test_readBit_low :
    view (fun t => (t.trace, t.res)) (exec .readBit (onDraws [false])) =
      some ([.csEnter, .wr 0 false, .delay 3, .wr 0 true, .delay 7, .rd 0 false, .csExit, .delay 56],
        { Res.empty with bit := some false }) := by decide

/-- V-T9: the slot values of 0xCC by their low times, in time order. -/
theorem test_writeByte_order :
    view (fun t => windowDelays false t.trace) (exec (.writeByte 0xCC) (onDraws [])) =
      some [60, 60, 6, 6, 60, 60, 6, 6] := by decide

/-- V-T7. -/
theorem test_readByte_order :
    view (fun t => t.res.byte) (exec .readByte (onDraws [true, false, true, false, false, false, false, false])) =
      some (some 0x05) := by decide

/-- V-T12: events and delay. -/
theorem test_writeBytes :
    view (fun t => (t.trace.length, totalDelay t.trace)) (exec (.writeBytes [0x55, 0x01]) (onDraws [])) =
      some (96, 1120) := by decide

/-- V-T13. -/
theorem test_readBytes :
    view (fun t => t.res.bytes)
      (exec (.readBytes 2) (onDraws
        [false, false, false, false, true, false, true, false, true, true, true, true, true, true, true, true])) =
      some (some [0x50, 0xFF]) := by decide

/-! ### Bus control -/

/-- V-B1. -/
theorem test_reset_present :
    view (fun t => (t.trace, t.res.present)) (exec .reset (onDraws [true, false])) =
      some ([.wr 0 true, .delay 2, .rd 0 true, .wr 0 false, .delay 480, .csEnter, .wr 0 true, .delay 70, .rd 0 false,
        .csExit, .delay 410], some true) := by decide

/-- V-B4 on the stuck-low bus: 125 polls, no pulse. -/
theorem test_reset_never_idle :
    view (fun t => (t.trace.length, totalDelay t.trace, t.res.present, t.inCs))
      (exec .reset { onDraws [] with environment := .stuckLow }) = some (251, 250, some false, false) := by decide

/-- V-B6, V-E6: Match ROM's slots and then 0x28's, least significant bit first, by their low times. -/
theorem test_select :
    view (fun t => (windowDelays false t.trace).take 16) (exec (.select deviceA) (onDraws [])) =
      some [6, 60, 6, 60, 6, 60, 6, 60, 60, 60, 60, 6, 60, 6, 60, 60] := by decide

/-- V-B7. -/
theorem test_skipRom :
    view (fun t => (t.trace.length, totalDelay t.trace)) (exec .skipRom (onDraws [])) = some (48, 560) := by decide

/-- V-B8. -/
theorem test_power :
    view (fun t => (t.trace, t.modeReg)) (exec .power (onDraws [])) =
      some ([.wr 0 true, .cfg 0 .driven], 2) := by decide

/-- V-B9. -/
theorem test_depower :
    view (fun t => (t.trace, t.modeReg)) (exec .depower State.reset) =
      some ([.wr 0 true, .cfg 0 .openDrain], 1) := by decide

/-! ### Search -/

/-- V-S1. -/
theorem test_resetSearch :
    view (fun t => (t.res.ss, t.trace)) (exec .resetSearch State.reset) = some (some 0, []) := by decide

/-- V-S2. -/
theorem test_targetSearch :
    view (fun t => t.res.ss) (exec (.targetSearch 0x28) State.reset) = some (some 0x400000000000000028) := by decide

/-- V-S13: an abort at position 5 from a state with index 4 returns `S0`. -/
theorem test_search_abort :
    view (fun t => (t.res.found, t.res.addr, t.res.ss, t.trace.length))
      (exec (.search 0x04680000000000AA10)
        (onDraws [true, false, false, true, false, true, false, true, false, true, true, true])) =
      some (some false, none, some 0, 163) := by decide

/-- V-S16, on that abort: two more events from `MODE = Unknown`. -/
theorem test_search_abort_from_unknown :
    view (fun t => t.trace.length)
      (exec (.search 0x04680000000000AA10)
        { onDraws [true, false, false, true, false, true, false, true, false, true, true, true] with mode := .unknown }) =
      some 165 := by decide

/-- V-S8 on the empty reference bus. -/
theorem test_search_empty_bus :
    view (fun t => (t.res.found, t.res.ss, t.trace.length)) (exec (.search 0) (onBus [])) =
      some (some false, some 0, 11) := by decide

/-- V-S7, as a walk over the pairs that device A alone gives. -/
theorem test_walk_one_device :
    walkResult (walkOver (Walk.start SearchState.s0) (pairsOf deviceA)) =
      { Res.empty with found := some true, addr := some deviceA, ss := some 0x809E06050403020128 } := by decide

/-- V-S14 step 1: a replayed 0 at position 1, and the family byte is 0x02. -/
theorem test_walk_replay :
    walkResult (walkOver (Walk.start (unpackSearch 0x400000000000000002))
        ((false, false) :: (true, false) :: List.replicate 62 (false, true))) =
      { Res.empty with found := some true, addr := some 2, ss := some 0x010000000000000002 } := by decide

/-! ### Codecs -/

/-- V-C1. -/
theorem test_crc8 :
    view (fun t => (t.res.crc8, t.trace)) (exec (.crc8 digits) State.reset) = some (some 0xA1, []) := by decide

/-- V-C1 by the table. -/
theorem test_crc8_by_table : crc8ByTable [0x02, 0x1C, 0xB8, 0x01, 0x00, 0x00, 0x00] = 0xA2 := by decide

/-- V-C2. -/
theorem test_crc16 :
    view (fun t => t.res.crc16) (exec (.crc16 digits 0) State.reset) = some (some 0xBB3D) := by decide

/-- V-C2 with a seed. -/
theorem test_crc16_seed : crc16 [0xAA, 0x55] 0x1D0F = 0x667B := by decide

/-- V-C5. -/
theorem test_checkCrc16 :
    view (fun t => t.res.ok) (exec (.checkCrc16 digits 0 0xC2 0x44) State.reset) = some (some true) := by decide

/-- V-C5 with the bytes swapped. -/
theorem test_checkCrc16_swapped :
    view (fun t => t.res.ok) (exec (.checkCrc16 digits 0 0x44 0xC2) State.reset) = some (some false) := by decide

/-! ### Views -/

/-- 30_encoding.md R96: a read slot from its `Wr(0)`: low 0 to 3, sampled at 10, ends at 66. -/
theorem test_timeline_read :
    timeline 0 ((Slot.events configAtReset (.read true)).drop 1 ++ [.csEnter]) =
      [(0, .wr 0 false), (0, .delay 3), (3, .wr 0 true), (3, .delay 7), (10, .rd 0 true), (10, .csExit), (10, .delay 56),
        (66, .csEnter)] := by decide

/-- 30_encoding.md R96: the reset pulse is sampled at 550. -/
theorem test_timeline_pulse :
    (timeline 0 (pulseEvents configAtReset false)).lookup 550 = some (.rd 0 false) := by decide

/-- 30_encoding.md R99, and the direction that each pair forces. -/
theorem test_pairMeaning :
    pairMeaning true true = .nobody ∧ pairMeaning false false = .discrepancy ∧ pairMeaning true false = .all true ∧
    pairMeaning false true = .all false ∧ directionOf SearchState.s0 1 true false = true ∧
    directionOf SearchState.s0 1 false true = false := by decide

/-- V-E8: the four devices' addresses are valid, and a wrong family code is not. -/
theorem test_validRom :
    validRom deviceA = true ∧ validRom 0x7406050403028128 = true ∧ validRom 0x680000000000AA10 = true ∧
    validRom 0x3E00000000005510 = true ∧ validRom 0x9E06050403020129 = false := by decide

/-! ### The reference bus (20_memory.md R70 to R73) -/

/-- R71, R73: from a read slot in the place of a search's write slot, an idle poll is still 1 and a Reset slot puts the devices back into `Cmd([])`. -/
theorem test_lost_bus_revives :
    let b := (RefBus.onRead { devices := [deviceA], script := [], phase := .search 1 2 [deviceA] }).2
    b.onRead.1 = none ∧ (b.onSample .idlePoll).1 = some true ∧ (b.onSample .presence).1 = some false ∧
    (b.onSample .presence).2.phase = .cmd [] := by decide

/-- The same after a write slot in the place of a search's read slot, on a bus with no device. -/
theorem test_lost_empty_bus_revives :
    let b := RefBus.onWrite { devices := [], script := [], phase := .search 7 1 [] } true
    b.phase = .lost ∧ (b.onSample .idlePoll).1 = some true ∧ (b.onSample .presence).1 = some true := by decide

/-- V-B1 on the reference bus, from lost devices. -/
theorem test_reset_on_lost_bus :
    view (fun t => (t.res.present, t.trace.length))
      (exec .reset
        { onBus [] with environment := .refBus { devices := [deviceA], script := [], phase := .lost } }) =
      some (some true, 11) := by decide

/-! ### One call a step (10_state.md R21) -/

/-- The next state, for steps in a row. -/
def onward (s : State) : State := (view id (step s)).getD s

/-- V-T3 call by call: nothing at first, then one call a step, the position counting them. -/
theorem test_writeBit_by_call :
    ((List.range 4).map fun k =>
      let t := onward^[k + 1] (presented (.command { cw := 0x101 } false .byCall))
      (t.trace, t.status.busy, t.inCs, t.micro.map Micro.calls)) =
      [([], true, false, some 0), ([.wr 0 true], true, false, some 1),
        ([.wr 0 true, .cfg 0 .openDrain], true, false, some 2),
        ([.wr 0 true, .cfg 0 .openDrain, .csEnter], true, true, some 3)] := by decide

/-- The same at its last call and after it: BUSY until the last call returns (10_state.md R24), then idle. -/
theorem test_writeBit_by_call_ends :
    ([7, 8, 9].map fun k =>
      let t := onward^[k + 1] (presented (.command { cw := 0x101 } false .byCall))
      (t.trace.length, t.status.busy, t.micro.isSome)) = [(7, true, true), (8, false, false), (8, false, false)] := by
  decide

/-- RESET's early exit (41_bus_control.md R130): a poll that reads 1 is followed by the pulse. -/
theorem test_reset_by_call :
    (List.range 12).map (fun k => ((engineStep^[k] (start .reset (onDraws [false, true, false]))).trace.getLast?,
        (engineStep^[k] (start .reset (onDraws [false, true, false]))).res.present)) =
      [(none, none), (some (.wr 0 true), none), (some (.delay 2), none), (some (.rd 0 false), none),
        (some (.delay 2), none), (some (.rd 0 true), none), (some (.wr 0 false), none), (some (.delay 480), none),
        (some .csEnter, none), (some (.wr 0 true), none), (some (.delay 70), none), (some (.rd 0 false), none)] := by decide

/-- A codec has no call, so it ends where it begins. -/
theorem test_crc8_by_call :
    (start (.crc8 digits) State.reset).res.crc8 = some 0xA1 ∧ (start (.crc8 digits) State.reset).status.busy = false := by
  decide

/-- The hidden variables between two calls (10_state.md R36): the byte and bit index in the second byte of WRITE_BYTES. -/
theorem test_indices_by_call :
    (engineStep^[50] (start (.writeBytes [0x55, 0x01]) (onDraws []))).micro.map (fun m => (m.byteIx, m.bitIx)) =
      some (1, 0) := by decide

/-- While a command is live, a read waits and the engine goes on (20_memory.md R64), and a command has no step (70_reset_and_hazards.md R236). -/
theorem test_host_while_live :
    view (fun t => (t.inbox, t.trace))
        (step { start .skipRom (onDraws []) with inbox := [.readReg .status] }) = some ([.readReg .status], [.csEnter]) ∧
    (match step { start .skipRom (onDraws []) with inbox := [.command { cw := 0x12 } false .byCall] } with
      | .fault f => some f
      | .next _ => none
      | .refused _ => none) = some .commandWhileBusy := by decide

/-! ### Runs (70_reset_and_hazards.md R236) -/

/-- POWER, then RESET_SEARCH with its Search State kept, then TARGET_SEARCH with its own not kept. -/
def program : List HostCommand :=
  [{ command := { cw := 0x13 } }, { command := { cw := 0x20 }, keepAs := some ['s'] }, { command := { cw := 0x2821 } }]

/-- A view of a run's end. -/
def runView {α : Type} (f : RunState → α) (o : Host.Outcome RunState Fault Refusal) : Option α :=
  match o with
  | .next r => some (f r)
  | .fault _ => none
  | .refused _ => none

/-- What a run leaves to observe, from a faulted block, with one Search State of the host's from before (R233) and another under its name replaced. -/
theorem test_run_observed :
    runView (fun r => (r.observe, decide r.Clean))
      (run [(['s'], 7), (['t'], 9)] program { State.reset with status := { busy := false, faulted := true } }) =
      some
        ({ trace := [.wr 0 true, .cfg 0 .driven]
           results := [Res.empty, { Res.empty with ss := some 0 },
             { Res.empty with ss := some 0x400000000000000028 }]
           mode := .driven
           held := [(['s'], 0), (['t'], 9)] }, true) := by decide

/-- A run whose last command does not decode ends, and is not clean. -/
theorem test_run_not_clean :
    runView (fun r => (decide r.Ended, decide r.Clean, r.results))
      (run [] [{ command := { cw := 0x13 } }, { command := { cw := 0x33 } }] State.reset) =
      some (true, false, [Res.empty, Res.empty]) := by decide

/-- A command after that has no step. -/
theorem test_run_stops :
    (match run [] [{ command := { cw := 0x33 } }, { command := { cw := 0x13 } }] State.reset with
      | .fault f => some f
      | .next _ => none
      | .refused _ => none) = some .commandToFaultedBlock := by decide

/-! ### Steps -/

/-- A table word of the host's check runs as the first instruction after reset. -/
theorem test_withFetchWord :
    view (fun t => (t.res.ss, t.inbox)) (step (State.reset.withFetchWord 32 0x00002821)) =
      some (some 0x400000000000000028, []) := by decide

theorem test_decodeTableWord :
    decodeTableWord 32 0x00002821 = some (.targetSearch 0x28) ∧ decodeTableWord 32 0x00000022 = some (.search 0) ∧
      decodeTableWord 32 0x33 = none := by decide

/-- V-T15: reading a field without a value is a fault. -/
theorem test_read_of_no_value :
    (match step (presented (.readRes .bit)) with
      | .fault f => some f
      | .next _ => none
      | .refused _ => none) = some (.readOfNoValue .bit) := by decide

/-! ### Witnesses: for each statement with hypotheses, states and operands that meet them, clause by clause at the bounds -/

/-- Some next state, for the hypotheses that ask for one. -/
theorem completes (i : Instr) (s : State) : ∃ t, exec i s = .next t := by
  cases i <;> exact ⟨_, rfl⟩

/-- A faulted block. -/
def faulted (h : HostInput) : State := faultedState (presented h) .illegalCommand 0x33

/-- A busy block; no run reaches it between two steps. -/
def busy (h : HostInput) : State := { presented h with status := { busy := true, faulted := false } }

theorem witness_DecodeOfEncodeIsTheCommand :
    (Instr.search 0x400000000000000000).wellFormed = true ∧
    (Instr.checkCrc16 (List.replicate 65535 0xFF) 0xFFFF 0xFF 0xFF).wellFormed = true :=
  ⟨by decide, fit (by rw [List.length_replicate])⟩

theorem witness_EncodeOfDecodeIsTheWord :
    decode { cw := 0xFFFF0006 } = .ok (.readBytes 0xFFFF) ∧
    decode { cw := 0x00000022, ssIn := some 0xC00000000000000000 } = .ok (.search 0xC00000000000000000) := by decide

theorem witness_MatchAndMaskOfEveryRow :
    ∃ r ∈ opcodeMap, (0xFFFF0006 : CommandWord) &&& r.maskWord = r.matchWord ∧ r.op = .readBytes := by decide

theorem witness_ReservedOpcodeRaisesIllegalCommand :
    (presented (.command { cw := 0x33 } false .whole)).Accepts false ∧
    ∀ code ∈ [0x00, 0x07, 0x0F, 0x15, 0x1F, 0x23, 0x2F, 0x33, 0xFF], ReservedCode code := by decide

theorem witness_StepRunsTheDecodedCommand :
    (presented (.command { cw := 0x12 } false .whole)).Accepts false ∧ decode { cw := 0x12 } = .ok .skipRom ∧
    State.reset.inbox = [] := by decide

/-- From inside the host's window, where the critical section nests. -/
theorem witness_StepRunsTheDecodedCommand_nested :
    (State.initial { configAtReset with csNestable := true }).Accepts true := by decide

theorem witness_MalformedCommandTakesTheFault :
    (presented (.command { cw := 0x00000110 } false .whole)).Accepts false ∧
    decode { cw := 0x00000110 } = .error .nonZeroField := by decide

theorem witness_BadSearchStateOnlyAfterEveryOtherCheck :
    decode { cw := 0x00000022, ssIn := some 0x7FFFFFFFFFFFFFFFFF } = .error .searchStateRange ∧
    decode { cw := 0x00000031, dataIn := some [] } = .error .operandShape := by decide

theorem witness_FaultIsStickyUntilBlockReset_stays :
    (∃ t, step (faulted (.readReg .fault)) = .next t) ∧ (faulted (.readReg .fault)).status.faulted = true :=
  ⟨⟨_, rfl⟩, rfl⟩

theorem witness_FaultIsStickyUntilBlockReset_cleared :
    (∃ t, step (faulted .blockReset) = .next t) ∧ (faulted .blockReset).status.faulted = true ∧
    (faulted .blockReset).inbox = .blockReset :: [] ∧ (faulted .blockReset).status.busy = false :=
  ⟨⟨_, rfl⟩, rfl, rfl, rfl⟩

theorem witness_BlockResetSetsTheResetValues :
    (faulted .blockReset).inbox = .blockReset :: [] ∧ (busy .blockReset).inbox = .blockReset :: [] ∧
    (faulted .blockReset).status.busy = false ∧ (busy .blockReset).status.busy = true := by decide

theorem witness_EventsWithoutAStep :
    (busy (.command { cw := 0x10 } false .whole)).status.busy = true ∧
    (faulted (.command { cw := 0x10 } false .whole)).status = { busy := false, faulted := true } ∧
    (presented (.command { cw := 0x10 } true .whole)).cfg.csNestable = false ∧
    (presented (.command { cw := 0x10 } true .whole)).status = { busy := false, faulted := false } ∧
    (busy .blockReset).status.busy = true ∧ State.reset.status.busy = false := by decide

/-- A run, a command after it that has a step, and one after a fault that has none. -/
theorem witness_EventsWithoutAStep_runs :
    (∃ r, run [] program State.reset = .next r ∧
      ∃ t, step (r.state.present (.command { cw := 0x13 } false .whole)) = .next t) ∧
    ∃ r, run [] [{ command := { cw := 0x33 } }] State.reset = .next r ∧
      ∃ f, step (r.state.present (.command { cw := 0x13 } false .whole)) = .fault f :=
  ⟨⟨_, rfl, _, rfl⟩, _, rfl, _, rfl⟩

/-- The two hypotheses on the instruction, at the bounds of READ_BYTES, and a field of the table. -/
theorem witness_NoFaultAfterDecode :
    Instr.search 0 = .search 0 ∧ Instr.readBytes 0 = .readBytes 0 ∧ Instr.readBytes 0xFFFF = .readBytes 0xFFFF ∧
    .found ∈ mustWrite (.search 0) := by decide


theorem witness_HostReadDeliversOrFaults :
    (presented (.readRes .ok)).res.read .ok = none ∧
    ({ presented (.readRes .ok) with res := { Res.empty with ok := some false } }).res.read .ok = some (.bit false) ∧
    (presented (.readReg .mode)).inbox = .readReg .mode :: [] ∧ (presented (.readReg .mode)).micro = none ∧
    (start .skipRom State.reset).micro.isSome = true := by decide

theorem witness_RegisterBitsAsRead :
    2 ≤ 31 ∧ 16 ≤ 31 ∧ (faulted .blockReset).statusReg = 0x00000002 ∧ (faulted .blockReset).faultReg = 0x00003301 := by
  decide

theorem witness_ReadBitIssuesOneReadSlot :
    (onDraws [true]).environment.answer .readSlot (onDraws [true]).world (readHistory (onDraws [true])) =
      (true, .draws []) := by decide

theorem witness_ReadByteStoresFirstSampleInBitZero :
    (onDraws (bitsLsbFirst 0x80)).environment = .draws (bitsLsbFirst 0x80 ++ []) := by decide

theorem witness_WriteBytesSendsInOrder : ∃ t, exec (.writeBytes []) State.reset = .next t := completes _ _

theorem witness_ReadBytesReadsInOrder :
    [0x50, 0xFF].length = (2 : U16).toNat ∧
    (onDraws (([0x50, 0xFF] : List Byte).flatMap bitsLsbFirst)).environment =
      .draws (([0x50, 0xFF] : List Byte).flatMap bitsLsbFirst ++ []) := by decide

theorem witness_ReadBytesReadsInOrder_none : ([] : List Byte).length = (0 : U16).toNat := by decide

theorem witness_TransportDelaysAreFixed :
    State.reset.cfg.t.Lawful ∧ ∀ i ∈ [Instr.writeBit false, .readBit, .writeByte 0, .readByte, .writeBytes [0], .readBytes 1],
      ∃ t, exec i State.reset = .next t := by
  exact ⟨by decide, fun i _ => completes i _⟩

theorem witness_ResetHasThreeOutcomes_low :
    (onDraws (List.replicate 125 false)).environment =
      .draws (List.replicate (onDraws (List.replicate 125 false)).cfg.t.nIdlePolls false ++ []) := by decide

/-- The first poll and the last poll that can still go high. -/
theorem witness_ResetHasThreeOutcomes_idle :
    (0 < (onDraws [true, true]).cfg.t.nIdlePolls ∧
      (onDraws [true, true]).environment = .draws (List.replicate 0 false ++ true :: true :: [])) ∧
    (124 < (onDraws []).cfg.t.nIdlePolls ∧
      (onDraws (List.replicate 124 false ++ [true, false])).environment =
        .draws (List.replicate 124 false ++ true :: false :: [])) := by decide

theorem witness_ResetPulseIsFollowedByRecovery :
    view (fun t => decide (.wr 0 false ∈ t.trace)) (exec .reset (onDraws [true, false])) = some true ∧
    view (fun t => decide (.wr 0 false ∈ t.trace)) (exec .reset { onDraws [] with environment := .stuckLow }) =
      some false := by decide

theorem witness_ExhaustedSearchTouchesNothing :
    (0x809E06050403020128 : PackedSearch).getLsbD 71 = true ∧ (0xC00000000000000000 : PackedSearch).getLsbD 71 = true := by
  decide

theorem witness_SearchWithoutPresenceIsTheResetAlone :
    (0 : PackedSearch).getLsbD 71 = false ∧
    view (fun t => t.res.present) (exec .reset (onBus [])) = some (some false) := by decide

theorem witness_SearchIsTheWalkOfItsSamples : (0x40000000000000003A : PackedSearch).getLsbD 71 = false := by decide

theorem pairsOf_fine (a : Addr) : ∀ p ∈ pairsOf a, (p.1 && p.2) = false := by
  simp [pairsOf]

theorem isWalk_pairsOf (a : Addr) : IsWalk 64 (pairsOf a) :=
  .inl ⟨by simp [pairsOf], pairsOf_fine a⟩

/-- An abort at the first position and at the last. -/
theorem isWalk_abort : IsWalk 64 [(true, true)] ∧ IsWalk 64 (List.replicate 63 (false, true) ++ [(true, true)]) :=
  ⟨.inr ⟨[], rfl, by decide, by decide⟩, .inr ⟨List.replicate 63 (false, true), rfl, by decide, by decide⟩⟩

theorem witness_SearchFollowsExplicitDraws :
    (0 : PackedSearch).getLsbD 71 = false ∧ 0 < (onDraws []).cfg.t.nIdlePolls ∧ IsWalk 64 (pairsOf deviceA) ∧
    (onDraws (true :: false :: walkSamples (pairsOf deviceA))).environment =
      .draws (List.replicate 0 false ++ true :: false :: (walkSamples (pairsOf deviceA) ++ [])) :=
  ⟨by decide, by decide, isWalk_pairsOf deviceA, by rw [List.append_nil]; rfl⟩

/-- Index 64, with every clause met: a replayed bit before the index, a 1 at it, a 0 after it, and a last zero. -/
theorem witness_CompletedWalkBitsAndLastZero :
    (List.replicate 64 (false, false)).length = 64 ∧ (true, true) ∉ List.replicate 64 ((false, false) : Bit × Bit) ∧
    (walkOver (Walk.start { rom := 0, ld := 2, ldf := false }) (List.replicate 64 (false, false))).lastZero = 64 ∧
    (walkOver (Walk.start { rom := 0, ld := 64, ldf := false }) (List.replicate 64 (false, false))).lastZero = 63 := by
  decide

theorem witness_WalkOutcomes :
    IsWalk 64 [(true, true)] ∧ (true, true) ∈ [((true, true) : Bit × Bit)] ∧
    IsWalk 64 (pairsOf 0) ∧ (true, true) ∉ pairsOf 0 ∧
    (walkOver (Walk.start SearchState.s0) (pairsOf 0)).s.rom.extractLsb' 0 8 = 0 ∧
    IsWalk 64 (pairsOf deviceA) ∧ (true, true) ∉ pairsOf deviceA ∧
    (walkOver (Walk.start SearchState.s0) (pairsOf deviceA)).s.rom.extractLsb' 0 8 ≠ 0 :=
  ⟨isWalk_abort.1, by decide, isWalk_pairsOf 0, by decide, by decide, isWalk_pairsOf deviceA, by decide, by decide⟩

theorem witness_SearchKeepsTheIndexInRange :
    (unpackSearch 0x400000000000000002).ld = 64 ∧ (unpackSearch 0x400000000000000002).ldf = false ∧
    (unpackSearch 0x809E06050403020128).ld = 0 ∧ (unpackSearch 0x809E06050403020128).ldf = true ∧
    ∃ t, exec (.search 0x400000000000000002) State.reset = .next t :=
  ⟨by decide, by decide, by decide, by decide, completes _ _⟩

theorem witness_RomBufferUnobservableAtIndexZero :
    (unpackSearch 0).ld = 0 ∧ (unpackSearch 0xFFFFFFFFFFFFFFFF).ld = 0 ∧ (unpackSearch 0).ldf = false ∧
    (unpackSearch 0xFFFFFFFFFFFFFFFF).ldf = false := by decide

/-- The exhausted path, no presence (never idle and no pulse answered), and presence. -/
theorem witness_SearchTraceSizes_paths :
    State.reset.cfg.t.Lawful ∧ (0x809E06050403020128 : PackedSearch).getLsbD 71 = true ∧
    (0 : PackedSearch).getLsbD 71 = false ∧
    ResetShape Tcfg.nominal 125 none ∧ ResetShape Tcfg.nominal 0 (some true) ∧ ResetShape Tcfg.nominal 124 (some false) := by
  decide

theorem witness_SearchTraceSizes :
    Tcfg.nominal.Lawful ∧ (IsWalk 64 (pairsOf deviceA) ∧ (true, true) ∉ pairsOf deviceA) ∧
    IsWalk 64 (List.replicate 63 (false, true) ++ [(true, true)]) :=
  ⟨by decide, ⟨isWalk_pairsOf deviceA, by decide⟩, isWalk_abort.2⟩

theorem witness_LoneDeviceIsFoundOnce :
    1 ≤ (onBus [deviceA]).cfg.t.nIdlePolls ∧ deviceA.extractLsb' 0 8 ≠ 0 ∧
    (onBus [deviceA]).environment = .refBus { devices := [deviceA], script := [], phase := .idle } := by decide

theorem witness_EnumerationReturnsEveryDeviceOnce :
    (onBus [deviceA, 0x7406050403028128]).cfg.t.Lawful ∧ [deviceA, 0x7406050403028128] ≠ [] ∧
    [deviceA, 0x7406050403028128].Nodup ∧ (∀ a ∈ [deviceA, 0x7406050403028128], a.extractLsb' 0 8 ≠ 0) ∧
    (onBus [deviceA, 0x7406050403028128]).environment =
      .refBus { devices := [deviceA, 0x7406050403028128], script := [], phase := .idle } :=
  ⟨by decide, List.cons_ne_nil _ _, by decide, by simp [deviceA], rfl⟩

theorem witness_EnumerationNeedNotEnd :
    (onDraws [true]).cfg.t.Lawful ∧ (onDraws [true]).environment = .draws [true] := by decide

theorem witness_ConstantTablesMeetTheirRules :
    255 < 256 ∧ crc8Table[255]? = some 0x35 ∧ 15 < 16 ∧ oddParity[7]? = some true := by decide

/-- The lowest and the highest bit of a byte. -/
theorem witness_Crc16DetectsEverySingleBitError : 0 < 8 ∧ 7 < 8 := by decide

theorem witness_CodecsDependOnOperandsAlone :
    Instr.crc8 [1] ∈ [Instr.crc8 [1], .crc16 [1] 0, .checkCrc16 [1] 0 0 0] := by decide

theorem witness_InvariantHoldsAtReset : ({ configAtReset with csNestable := true, pin := 3 } : Config).t.Lawful := by decide

/-- Inside a command: before its first call, inside its window, and before its last call. -/
theorem witness_EveryStepKeepsTheInvariant_live :
    (start (.writeBit true) State.reset).Inv ∧ (engineStep^[4] (start (.writeBit true) State.reset)).Inv ∧
    (engineStep^[7] (start (.writeBit true) State.reset)).Inv ∧
    (engineStep^[4] (start (.writeBit true) State.reset)).inCs = true :=
  ⟨⟨by decide, by decide, by decide⟩, ⟨by decide, by decide, by decide⟩, ⟨by decide, by decide, by decide⟩, by decide⟩

/-- A command, a fault, a block reset and a read, each from a state that meets the invariant. -/
theorem witness_EveryStepKeepsTheInvariant :
    (presented (.command { cw := 0x13 } false .whole)).Inv ∧ (presented .blockReset).Inv ∧ (presented (.readReg .mode)).Inv ∧
    (∃ t, step (presented (.command { cw := 0x13 } false .whole)) = .next t) ∧
    (∃ t, step (presented (.command { cw := 0x33 } false .whole)) = .next t) ∧
    (∃ t, step (presented .blockReset) = .next t) ∧ ∃ t, step (presented (.readReg .mode)) = .next t :=
  ⟨⟨by decide, by decide, by decide⟩, ⟨by decide, by decide, by decide⟩, ⟨by decide, by decide, by decide⟩, ⟨_, rfl⟩, ⟨_, rfl⟩,
    ⟨_, rfl⟩, ⟨_, rfl⟩⟩

theorem witness_EveryCommandClosesItsWindows :
    (∃ t, exec .readBit State.reset = .next t) ∧ State.reset.inCs = false := ⟨completes _ _, rfl⟩

theorem witness_WindowDelaysAreBounded : ∃ t, exec (.writeBit false) State.reset = .next t := completes _ _

theorem witness_CallsAreBounded : ∃ t, exec (.readBytes 0) State.reset = .next t := completes _ _

/-- With a first and a last position to speak of. -/
theorem witness_CallsAreBounded_positions :
    view (fun t => t.trace.length) (exec (.writeBit true) State.reset) = some 8 ∧ 0 < 8 ∧ 7 < 8 := by decide

theorem witness_ModeAfterEveryCommand :
    (∃ t, exec .power State.reset = .next t) ∧ ∃ t, exec (.writeBytes []) State.reset = .next t := ⟨completes _ _, completes _ _⟩

theorem witness_OnlyTheTablesResultFieldsAreWritten :
    (∃ t, exec .readByte State.reset = .next t) ∧ .bit ∉ mayWrite .readByte := ⟨completes _ _, by decide⟩

theorem witness_CommandsLeaveTheRest : ∃ t, exec (.select deviceA) State.reset = .next t := completes _ _

theorem witness_WireHistoryOnlyGrows :
    (∃ t, step (presented .blockReset) = .next t) ∧ ∃ t, step (presented (.command { cw := 0x12 } false .whole)) = .next t :=
  ⟨⟨_, rfl⟩, ⟨_, rfl⟩⟩

theorem witness_InstancesAreSeparate :
    (∃ s, instantiate [] configAtReset = .next s) ∧
    (∃ s, instantiate [State.reset] { configAtReset with pin := 1 } = .next s) ∧
    (∃ sys, stepAt 1 [State.reset, State.initial { configAtReset with pin := 1 }] = .next sys) ∧
    pinsDistinct [State.reset, State.initial { configAtReset with pin := 1 }] = true ∧
    ¬({ Tcfg.nominal with nIdlePolls := 0 } : Tcfg).Lawful ∧ configAtReset.t.Lawful ∧
    ∃ o ∈ [State.reset], o.cfg.pin = configAtReset.pin :=
  ⟨⟨_, rfl⟩, ⟨_, rfl⟩, ⟨_, rfl⟩, by decide, by decide, by decide, State.reset, List.mem_singleton.mpr rfl, rfl⟩

/-- The two refusals of instantiation (00_scope.md R7, 60_exceptions.md R220). -/
theorem test_instantiate_refuses :
    instantiate [] { configAtReset with t := { Tcfg.nominal with nIdlePolls := 0 } } = .refused .configBreaksLaws ∧
    instantiate [State.reset] configAtReset = .refused .pinInUse := ⟨rfl, rfl⟩

end Sys2Proof.Tests
end

/-! ## The invariant of a block is kept by every step

Two ideas carry the proof. Between commands, every command that decodes leads from rest to rest (`exec_atRest`): a slot begins and ends with the
line in open-drain mode and the latch at 1, with its window closed. Inside a command nothing need be said of the position: the end of the command, which no step of
the timing engine changes, is at rest, and the trace after a step is a beginning of the trace at that end (`settle_inv`). -/

namespace Sys2Proof

/-! ### What a decoded command is (30_encoding.md R85) -/

/-- A command decodes exactly if it passes the checks of R85 in their order, to the operation its row builds. -/
theorem decode_eq_ok {c : Command} {i : Instr} :
    decode c = .ok i ↔ ∃ r, rowOf (opField c.cw) = some r ∧ fieldsFit r c.cw = true ∧ operandsFit r c = true ∧
      buildInstr r.op c = some i ∧ searchStateFits c = true := by
  unfold decode
  cases hrow : rowOf (opField c.cw) with
  | none => simp
  | some r =>
    cases hf : fieldsFit r c.cw <;> cases ho : operandsFit r c <;> cases hb : buildInstr r.op c <;>
      cases searchStateFits c <;> simp [hf, ho, hb]

/-- The operation built for a SEARCH carries the Search State presented. -/
theorem ssIn_of_buildInstr_search {op : Op} {c : Command} {p : PackedSearch}
    (h : buildInstr op c = some (.search p)) : c.ssIn = some p := by
  cases op with
  | search => simpa [buildInstr] using h
  | _ => simp [buildInstr, Option.bind_eq_some_iff] at h

end Sys2Proof

namespace Sys2Proof.Machine

/-- A SEARCH that decodes has an index of at most 64 (10_state.md R32). -/
theorem unpackSearch_ld_le_of_decode {c : Command} {p : PackedSearch} (h : decode c = .ok (.search p)) :
    (unpackSearch p).ld ≤ 64 := by
  obtain ⟨r, -, -, -, hbuild, hss⟩ := decode_eq_ok.mp h
  rw [searchStateFits, ssIn_of_buildInstr_search hbuild] at hss
  exact of_decide_eq_true hss

/-! ### Packed Search States (10_state.md R32) -/

/-- Every bit of a packed Search State. -/
theorem packSearch_getLsbD (ss : SearchState) (k : Nat) :
    (packSearch ss).getLsbD k =
      if k < 64 then ss.rom.getLsbD k else if k < 71 then (BitVec.ofNat 7 ss.ld).getLsbD (k - 64)
      else (BitVec.ofBool ss.ldf).getLsbD (k - 71) := by
  have h : (packSearch ss).getLsbD k = _ :=
    BitVec.getLsbD_append (x := BitVec.ofBool ss.ldf ++ BitVec.ofNat 7 ss.ld) (y := ss.rom)
  rw [h, BitVec.getLsbD_append, show k - 64 - 7 = k - 71 by omega]
  by_cases hrom : k < 64
  · simp [hrom]
  · by_cases hld : k < 71
    · simp [hrom, hld, show k - 64 < 7 by omega]
    · simp [hrom, hld, show ¬ k - 64 < 7 by omega]

/-- Unpacking undoes packing where the index fits its 7 bits. -/
theorem unpackSearch_packSearch {ss : SearchState} (h : ss.ld < 128) : unpackSearch (packSearch ss) = ss := by
  have hrom : (packSearch ss).extractLsb' 0 64 = ss.rom :=
    BitVec.eq_of_getLsbD_eq fun i hi => by simp [packSearch_getLsbD, hi]
  have hld : (packSearch ss).extractLsb' 64 7 = BitVec.ofNat 7 ss.ld :=
    BitVec.eq_of_getLsbD_eq fun i hi => by simp [packSearch_getLsbD, hi, show 64 + i < 71 by omega]
  have hldf : (packSearch ss).getLsbD 71 = ss.ldf := by rw [packSearch_getLsbD]; simp
  rw [unpackSearch, hrom, hld, hldf, BitVec.toNat_ofNat, Nat.mod_eq_of_lt h]

/-! ### The results a command can leave -/

/-- The condition of `State.ResultsFit` on the record alone (10_state.md R20, R33 (a)). -/
def Res.Fits (r : Res) : Prop :=
  (r.addr.isSome = true → r.found = some true) ∧ (r.ss.all fun p => decide ((unpackSearch p).ld ≤ 64)) = true

theorem resultsFit_iff (s : State) : s.ResultsFit ↔ s.res.Fits := Iff.rfl

theorem Res.fits_empty : Res.empty.Fits := ⟨nofun, rfl⟩

/-- A record without an address fits if its Search State, if any, has an index in range. -/
theorem Res.fits_of_ss {r : Res} {p : PackedSearch} (hss : r.ss = some p) (haddr : r.addr.isSome = true → r.found = some true)
    (hld : (unpackSearch p).ld ≤ 64) : r.Fits :=
  ⟨haddr, by rw [hss]; exact decide_eq_true hld⟩

/-- A packed Search State keeps an index in range. -/
theorem unpackSearch_packSearch_ld_le {ss : SearchState} (h : ss.ld ≤ 64) : (unpackSearch (packSearch ss)).ld ≤ 64 := by
  rwa [unpackSearch_packSearch (by omega)]

/-- A walk of at most `n` positions has at most `n` sample pairs. -/
theorem IsWalk.length_le {n : Nat} {pairs : List (Bit × Bit)} (h : IsWalk n pairs) : pairs.length ≤ n := by
  rcases h with ⟨hlen, -⟩ | ⟨before, rfl, hlt, -⟩
  · exact hlen.le
  · simpa using hlt

/-- The last zero lies before the position that a walk has reached. -/
theorem walkOver_lastZero_lt (pairs : List (Bit × Bit)) (w : Walk) (h : w.lastZero < w.pos) :
    (walkOver w pairs).lastZero < w.pos + pairs.length := by
  induction pairs generalizing w with
  | nil => exact h
  | cons p pairs ih =>
    obtain ⟨id, cmp⟩ := p
    rw [walkOver, List.length_cons]
    split
    · exact Nat.lt_add_right _ h
    · have hnext : (w.next id cmp).lastZero < (w.next id cmp).pos := by
        show lastZeroOf w.lastZero w.pos id cmp _ < w.pos + 1
        unfold lastZeroOf
        split <;> omega
      have hpos : (w.next id cmp).pos = w.pos + 1 := rfl
      have := ih (w.next id cmp) hnext
      omega

/-- The results of a walk over the 64 positions fit (42_search.md R155 to R157). -/
theorem walkResult_fits {ss : SearchState} {pairs : List (Bit × Bit)} (h : IsWalk 64 pairs) :
    (walkResult (walkOver (Walk.start ss) pairs)).Fits := by
  have hlast : (walkOver (Walk.start ss) pairs).lastZero < 1 + pairs.length :=
    walkOver_lastZero_lt pairs (Walk.start ss) Nat.one_pos
  have hlen := h.length_le
  unfold walkResult
  split
  · exact Res.fits_of_ss rfl (fun _ => rfl)
      (unpackSearch_packSearch_ld_le (show (walkOver (Walk.start ss) pairs).lastZero ≤ 64 by omega))
  · exact Res.fits_of_ss rfl nofun (unpackSearch_packSearch_ld_le (ss := SearchState.s0) (Nat.zero_le _))

/-- Every command whose Search State, if it takes one, has an index in range leaves results that fit. -/
theorem CommandEnds.fits {t : Tcfg} {slots : List Slot} {r : Res} {i : Instr} (h : CommandEnds t slots r i)
    (hi : ∀ p, i = .search p → (unpackSearch p).ld ≤ 64) : r.Fits := by
  cases i with
  | writeBit | writeByte | writeBytes | select | skipRom => obtain ⟨-, rfl⟩ := h; exact Res.fits_empty
  | readBit => obtain ⟨_, -, rfl⟩ := h; exact ⟨nofun, rfl⟩
  | readByte | readBytes => obtain ⟨_, -, -, rfl⟩ := h; exact ⟨nofun, rfl⟩
  | reset => obtain ⟨_, _, -, -, rfl⟩ := h; exact ⟨nofun, rfl⟩
  | power | depower => exact h.elim
  | resetSearch =>
    obtain ⟨-, rfl⟩ := h
    exact Res.fits_of_ss rfl nofun (unpackSearch_packSearch_ld_le (ss := SearchState.s0) (Nat.zero_le _))
  | targetSearch fam =>
    obtain ⟨-, rfl⟩ := h
    exact Res.fits_of_ss rfl nofun (unpackSearch_packSearch_ld_le (ss := SearchState.seeded fam) le_rfl)
  | search p =>
    rcases h with ⟨-, -, rfl⟩ | ⟨-, _, _, -, ⟨-, -, rfl⟩ | ⟨-, pairs, hwalk, -, rfl⟩⟩
    · exact Res.fits_of_ss rfl nofun (hi p rfl)
    · exact Res.fits_of_ss rfl nofun (unpackSearch_packSearch_ld_le (ss := SearchState.s0) (Nat.zero_le _))
    · exact walkResult_fits hwalk
  | crc8 => obtain ⟨-, _, rfl⟩ := h; exact ⟨nofun, rfl⟩
  | crc16 | checkCrc16 => obtain ⟨-, rfl⟩ := h; exact ⟨nofun, rfl⟩

/-! ### Traces that grow -/

theorem driveOf_append (a b : List WireEvent) : driveOf (a ++ b) = b.foldl Drive.after (driveOf a) := List.foldl_append

theorem sampleScan_append (a b : List WireEvent) : sampleScan (a ++ b) = b.foldl SampleScan.after (sampleScan a) :=
  List.foldl_append

theorem windowScan_append (a b : List WireEvent) : windowScan (a ++ b) = b.foldl windowAfter (windowScan a) :=
  List.foldl_append

@[simp] theorem neverInput_append (a b : List WireEvent) : neverInput (a ++ b) = (neverInput a && neverInput b) :=
  List.all_append

/-- The scan of the samples follows the drive state. -/
theorem drive_foldl (evs : List WireEvent) (x : SampleScan) :
    (evs.foldl SampleScan.after x).drive = evs.foldl Drive.after x.drive := by
  induction evs generalizing x with
  | nil => rfl
  | cons e evs ih =>
    have hstep : (x.after e).drive = x.drive.after e := by
      cases e with
      | wr _ l => cases l <;> rfl
      | _ => rfl
    rw [List.foldl_cons, ih, hstep, List.foldl_cons]

theorem sampleScan_drive (tr : List WireEvent) : (sampleScan tr).drive = driveOf tr := drive_foldl tr _

/-- A sample that was taken wrongly stays so. -/
theorem fine_of_foldl (evs : List WireEvent) (x : SampleScan) (h : (evs.foldl SampleScan.after x).fine = true) :
    x.fine = true := by
  induction evs generalizing x with
  | nil => exact h
  | cons e evs ih =>
    have hfine := ih (x.after e) h
    cases e with
    | rd _ l => exact (Bool.and_eq_true_iff.mp (Bool.and_eq_true_iff.mp hfine).1).1
    | wr _ l => cases l <;> exact hfine
    | _ => exact hfine

theorem samplesReleased_of_append {a b : List WireEvent} (h : samplesReleased (a ++ b) = true) :
    samplesReleased a = true :=
  fine_of_foldl b _ (by rwa [samplesReleased, sampleScan_append] at h)

/-- A broken pairing of windows stays broken. -/
theorem windowAfter_foldl_none (evs : List WireEvent) : evs.foldl windowAfter none = none := by
  induction evs with
  | nil => rfl
  | cons e evs ih => exact ih

theorem windowScan_ne_none_of_append {a b : List WireEvent} (h : windowScan (a ++ b) ≠ none) : windowScan a ≠ none := by
  intro ha
  rw [windowScan_append, ha, windowAfter_foldl_none] at h
  exact h rfl

/-! ### The events of slots -/

/-- What one poll leaves alone, any number of polls leaves alone. -/
theorem foldl_lowPolls {α : Type} {f : α → WireEvent → α} {x : α} {c : Config}
    (h : (pollEvents c false).foldl f x = x) (n : Nat) : (lowPolls c n).foldl f x = x := by
  induction n with
  | zero => rfl
  | succ n ih => rw [lowPolls_succ, List.foldl_append, h, ih]

/-- The events of a bus reset (30_encoding.md R95), its polls named. -/
theorem slotEvents_reset (c : Config) (lows : Nat) (presence : Option Bit) :
    (Slot.reset lows presence).events c = [.wr c.pin true] ++ (lowPolls c lows ++
      match presence with
      | none => []
      | some p => pollEvents c true ++ pulseEvents c p) := by
  cases presence <;> rfl

/-- A slot opens and closes its window (70_reset_and_hazards.md R240). -/
theorem windowScan_slot (c : Config) (sl : Slot) : windowScan (sl.events c) = some false := by
  cases sl with
  | write v => cases v <;> rfl
  | read l => rfl
  | reset lows presence =>
    have hpolls : (lowPolls c lows).foldl windowAfter (some false) = some false := foldl_lowPolls rfl lows
    rw [slotEvents_reset, windowScan_append, List.foldl_append]
    refine (congrArg (List.foldl windowAfter · _) hpolls).trans ?_
    cases presence <;> rfl

/-- Events whose windows are closed leave the scan where it was closed. -/
theorem windowScan_append_closed {a : List WireEvent} (h : windowScan a = some false) (b : List WireEvent) :
    windowScan (a ++ b) = windowScan b := by
  rw [windowScan_append, h]; rfl

theorem windowScan_slotEvents (c : Config) (slots : List Slot) : windowScan (slotEvents c slots) = some false := by
  induction slots with
  | nil => rfl
  | cons sl slots ih => exact (windowScan_append_closed (windowScan_slot c sl) _).trans ih

/-- The events of a command that issues slots open and close their windows in turn. -/
theorem windowScan_busEvents (c : Config) (m : Mode) (slots : List Slot) :
    windowScan (busEvents c m slots) = some false := by
  have hensure : windowScan (ensureEvents c m) = some false := by cases m <;> rfl
  cases slots with
  | nil => rfl
  | cons sl slots => rw [busEvents_cons, windowScan_append_closed hensure, windowScan_slotEvents]

/-- A slot never configures the pin as an input (20_memory.md R52 (c)). -/
theorem neverInput_slot (c : Config) (sl : Slot) : neverInput (sl.events c) = true := by
  cases sl with
  | write v => cases v <;> rfl
  | read l => rfl
  | reset lows presence =>
    have hpolls : neverInput (lowPolls c lows) = true := by
      simp [neverInput, lowPolls, pollEvents, isInput]
    rw [slotEvents_reset, neverInput_append, neverInput_append, hpolls]
    cases presence <;> rfl

theorem neverInput_busEvents (c : Config) (m : Mode) (slots : List Slot) : neverInput (busEvents c m slots) = true := by
  have hensure : neverInput (ensureEvents c m) = true := by cases m <;> rfl
  cases slots with
  | nil => rfl
  | cons sl slots =>
    rw [busEvents_cons, neverInput_append, hensure, slotEvents, neverInput, List.all_flatMap]
    exact List.all_eq_true.mpr fun x _ => neverInput_slot c x

/-- Between two slots: open-drain, the latch at 1, and every sample so far taken with the line released. -/
def SampleScan.BetweenSlots (x : SampleScan) : Prop :=
  x.drive.mode = some .openDrain ∧ x.drive.latch = some true ∧ x.fine = true

/-- A slot begins and ends between two slots (20_memory.md R52). -/
theorem SampleScan.BetweenSlots.slot {x : SampleScan} (h : x.BetweenSlots) (c : Config) (sl : Slot) :
    ((sl.events c).foldl SampleScan.after x).BetweenSlots := by
  obtain ⟨⟨mode, latch⟩, freed, fine⟩ := x
  obtain ⟨rfl, rfl, rfl⟩ := h
  cases sl with
  | write v => cases v <;> exact ⟨rfl, rfl, rfl⟩
  | read l => exact ⟨rfl, rfl, rfl⟩
  | reset lows presence =>
    have hpolls := foldl_lowPolls (f := SampleScan.after) (c := c)
      (x := { drive := { mode := some .openDrain, latch := some true }, freed := true, fine := true }) rfl lows
    rw [slotEvents_reset, List.foldl_append, List.foldl_append]
    refine (congrArg (fun x => (List.foldl SampleScan.after x _).BetweenSlots) hpolls).mpr ?_
    cases presence <;> exact ⟨rfl, rfl, rfl⟩

theorem SampleScan.BetweenSlots.slotEvents {x : SampleScan} (h : x.BetweenSlots) (c : Config) (slots : List Slot) :
    ((Machine.slotEvents c slots).foldl SampleScan.after x).BetweenSlots := by
  induction slots generalizing x with
  | nil => exact h
  | cons sl slots ih =>
    rw [show Machine.slotEvents c (sl :: slots) = sl.events c ++ Machine.slotEvents c slots from rfl, List.foldl_append]
    exact ih (h.slot c sl)

/-- EnsureOD leads to where a slot may begin (40_transport.md R110), from a trace whose pin mode is `m` and whose latch is 1 in open-drain mode. -/
theorem betweenSlots_ensureEvents {x : SampleScan} {m : Mode} (c : Config) (hfine : x.fine = true)
    (hmode : x.drive.mode = pinModeOf m) (hlatch : m = .openDrain → x.drive.latch = some true) :
    ((ensureEvents c m).foldl SampleScan.after x).BetweenSlots := by
  by_cases hm : m = .openDrain
  · subst hm
    exact ⟨hmode, hlatch rfl, hfine⟩
  · rw [ensureEvents, if_neg hm]
    exact ⟨rfl, rfl, hfine⟩

/-- Where a command that issues slots leaves the scan of the samples, if it begins at rest. -/
theorem betweenSlots_busEvents {s : State} (hs : s.Steady) (hr : s.AtRest) {slots : List Slot} (hne : slots ≠ []) :
    (sampleScan (s.trace ++ busEvents s.cfg s.mode slots)).BetweenSlots := by
  obtain ⟨-, -, htracks, ⟨-, hfine, -⟩, -⟩ := hs
  obtain ⟨-, -, hlatch⟩ := hr
  rw [busEvents, if_neg hne, sampleScan_append, List.foldl_append]
  refine (betweenSlots_ensureEvents s.cfg hfine ?_ fun hm => ?_).slotEvents s.cfg slots
  · rwa [sampleScan_drive]
  · rw [sampleScan_drive]
    exact hlatch (by rw [hm]; nofun)

/-! ### A command from rest ends at rest -/

/-- A command that issues slots (`finished`), or none, ends at rest. -/
theorem finished_atRest {s : State} (hs : s.Steady) (hr : s.AtRest) (hf : s.status.faulted = false) {slots : List Slot}
    {res : Res} (hres : res.Fits) (env : Environment) :
    (finished s slots res env).Steady ∧ (finished s slots res env).AtRest := by
  obtain ⟨hlaw, ⟨hfault, -⟩, htracks, ⟨hwin, hfine, hinput⟩, -⟩ := id hs
  obtain ⟨⟨-, -, hcs⟩, hunknown, hlatch⟩ := id hr
  have hcs' : inCsAfter s.inCs slots = false := by rw [hcs, inCsAfter, ite_self]
  have hwin' : windowScan (s.trace ++ busEvents s.cfg s.mode slots) = some (inCsAfter s.inCs slots) := by
    rw [windowScan_append_closed (hwin.trans (congrArg some hcs)), windowScan_busEvents, hcs']
  have hinput' : neverInput (s.trace ++ busEvents s.cfg s.mode slots) = true := by
    rw [neverInput_append, hinput, neverInput_busEvents]; rfl
  have hagrees : (finished s slots res env).FaultAgrees := ⟨fun _ => hfault hf, fun h => absurd (hf.symm.trans h) nofun⟩
  cases slots with
  | nil =>
    have htrace : (finished s [] res env).trace = s.trace := List.append_nil _
    refine ⟨⟨hlaw, hagrees, ?_, ⟨hwin', ?_, hinput'⟩, hres⟩, ⟨rfl, rfl, hcs'⟩, ?_, ?_⟩
    · rwa [State.TracksPin, htrace]
    · rwa [htrace]
    · rwa [htrace]
    · rwa [htrace]
  | cons sl slots =>
    obtain ⟨hmode, hlatch', hfine'⟩ := betweenSlots_busEvents hs hr (List.cons_ne_nil sl slots)
    rw [sampleScan_drive] at hmode hlatch'
    exact ⟨⟨hlaw, hagrees, hmode, ⟨hwin', hfine', hinput'⟩, hres⟩, ⟨rfl, rfl, hcs'⟩, nofun, fun _ => hlatch'⟩

/-- POWER and DEPOWER (`repowered`) end at rest. -/
theorem repowered_atRest {s : State} (hs : s.Steady) (hr : s.AtRest) (hf : s.status.faulted = false) {m : Mode} {p : PinMode}
    (hm : pinModeOf m = some p) (hp : p ≠ .input) : (repowered s m p).Steady ∧ (repowered s m p).AtRest := by
  obtain ⟨hlaw, ⟨hfault, -⟩, -, ⟨hwin, hfine, hinput⟩, -⟩ := hs
  obtain ⟨⟨-, -, hcs⟩, -, -⟩ := hr
  have hdrive : driveOf (repowered s m p).trace = { mode := some p, latch := some true } := driveOf_append ..
  refine ⟨⟨hlaw, ⟨fun _ => hfault hf, fun h => absurd (hf.symm.trans h) nofun⟩, ?_, ⟨?_, ?_, ?_⟩, Res.fits_empty⟩,
    ⟨rfl, rfl, hcs⟩, ?_, fun _ => ?_⟩
  · rw [State.TracksPin, hdrive]; exact hm.symm
  · show windowScan (s.trace ++ _) = some s.inCs
    rw [windowScan_append, hwin, hcs]; rfl
  · show (sampleScan (s.trace ++ _)).fine = true
    rw [sampleScan_append]; exact hfine
  · show neverInput (s.trace ++ _) = true
    rw [neverInput_append, hinput]
    cases p with
    | input => exact absurd rfl hp
    | openDrain => rfl
    | driven => rfl
  · intro hu
    rw [show m = .unknown from hu] at hm
    cases hm
  · rw [hdrive]

/-- Every command from rest, if it decodes, ends at rest (60_exceptions.md R204). -/
theorem exec_atRest {i : Instr} {s t : State} (hs : s.Steady) (hr : s.AtRest) (hf : s.status.faulted = false)
    (hi : ∀ p, i = .search p → (unpackSearch p).ld ≤ 64) (h : exec i s = .next t) : t.Steady ∧ t.AtRest := by
  rcases exec_cases h with ⟨slots, res, env, hends, rfl⟩ | ⟨-, rfl⟩ | ⟨-, rfl⟩
  · exact finished_atRest hs hr hf (hends.fits hi) env
  · exact repowered_atRest hs hr hf rfl nofun
  · exact repowered_atRest hs hr hf rfl nofun

/-! ### Between two calls of a command -/

/-- What shows at a live command between any two of its calls: it is busy, without a fault and without results, and its trace agrees with
`MODE` and `inCs`. What its samples must obey follows from its end, which has them all in its trace. -/
structure State.Underway (s : State) : Prop where
  laws : s.cfg.t.Lawful
  status : s.status = { busy := true, faulted := false }
  fault : s.fault = { code := .none, opc := 0 }
  res : s.res = Res.empty
  tracks : s.TracksPin
  window : windowScan s.trace = some s.inCs

/-- A command accepted at rest is under way. -/
theorem underway_accept {s : State} (hs : s.Steady) (hf : s.status.faulted = false) (i : Instr) :
    (accept i s).Underway := by
  obtain ⟨hlaw, ⟨hfault, -⟩, htracks, ⟨hwin, -, -⟩, -⟩ := hs
  exact ⟨hlaw, by rw [accept_status, hf], hfault hf, rfl, htracks, hwin⟩

/-- A live command is under way. -/
theorem State.Live.underway {s : State} (hl : s.Live) (hs : s.Steady) : s.Underway := by
  obtain ⟨hlaw, ⟨hfault, -⟩, htracks, ⟨hwin, -, -⟩, -⟩ := hs
  obtain ⟨hstatus, hres, -, -, -⟩ := hl
  exact ⟨hlaw, hstatus, hfault (by rw [hstatus]), hres, htracks, hwin⟩

/-- A call keeps MODE the trace's pin mode. -/
theorem perform_tracksPin {s : State} (c : Call) (h : s.TracksPin) : (c.perform s).TracksPin := by
  cases c <;> simp_all [State.TracksPin, driveOf_append, Drive.after, pinModeOf]

/-- A call that does not break the pairing of windows keeps `inCs` the window scan. -/
theorem perform_window {s : State} (c : Call) (h : windowScan s.trace = some s.inCs)
    (hne : windowScan (c.perform s).trace ≠ none) : windowScan (c.perform s).trace = some (c.perform s).inCs := by
  cases c <;> cases hcs : s.inCs <;> simp_all [windowScan_append, windowAfter]

/-- A call leaves a command under way, unless it breaks the pairing of windows. -/
theorem State.Underway.perform {s : State} (h : s.Underway) (c : Call) (hne : windowScan (c.perform s).trace ≠ none) :
    (c.perform s).Underway := by
  obtain ⟨hcfg, hstatus, hfault, hres, -⟩ := perform_fixed c s
  exact ⟨hcfg ▸ h.laws, hstatus.trans h.status, hfault.trans h.fault, hres.trans h.res, perform_tracksPin c h.tracks,
    perform_window c h.window hne⟩

/-- A sample leaves a command under way. -/
theorem State.Underway.sample {s : State} (h : s.Underway) (k : SampleKind) : (Machine.sample k s).2.Underway := by
  have htrace : (Machine.sample k s).2.trace = s.trace ++ [.rd s.cfg.pin (Machine.sample k s).1] := rfl
  refine ⟨h.laws, h.status, h.fault, h.res, ?_, ?_⟩
  · rw [State.TracksPin, htrace, driveOf_append]; exact h.tracks
  · show windowScan (Machine.sample k s).2.trace = some s.inCs
    rw [htrace, windowScan_append, h.window]
    cases s.inCs <;> rfl

/-- A block at rest meets the invariant. -/
theorem State.Inv.of_atRest {s : State} (hs : s.Steady) (hr : s.AtRest) : s.Inv := by
  obtain ⟨⟨-, hm, -⟩, -⟩ := id hr
  exact ⟨hs, fun _ => hr, fun h => by rw [hm] at h; cases h⟩

/-- A command under way whose end is at rest meets the invariant once what stands before its next call has taken effect. -/
theorem settle_inv {p : Program} {s : State} (hp : Stands p s) (hu : s.Underway)
    (hend : (runToEnd p s).Steady ∧ (runToEnd p s).AtRest) : (settle p s).Inv := by
  obtain ⟨hends, hendr⟩ := hend
  rcases settle_live p s hp with ⟨-, heq⟩ | ⟨q, hq, -, hstatus, hres, -, hshape⟩
  · rw [heq]; exact .of_atRest hends hendr
  · obtain ⟨hcfg, hmode, hfault, -, hcs, htrace, -⟩ := settle_fixed p s
    obtain ⟨evs, hevs⟩ := runToEnd_trace p s
    obtain ⟨-, -, -, ⟨-, hfine, hinput⟩, -⟩ := id hends
    rw [hevs] at hfine hinput
    rw [neverInput_append, Bool.and_eq_true_iff] at hinput
    have hstatus' := hstatus.trans hu.status
    have hres' := hres.trans hu.res
    obtain ⟨m, hm, -⟩ := id hq
    have hrest : (settle p s).rest.isSome = true := by
      rw [hq.rest_eq]
      rcases hshape with ⟨c, next, rfl⟩ | ⟨k, next, rfl⟩ <;> rfl
    refine ⟨⟨hcfg ▸ hu.laws, ⟨fun _ => hfault.trans hu.fault, fun h => ?_⟩, ?_, ⟨?_, ?_, ?_⟩, ?_⟩, fun h => ?_, fun _ =>
      ⟨hstatus', hres', hrest, ?_⟩⟩
    · rw [hstatus'] at h; cases h
    · rw [State.TracksPin, htrace, hmode]; exact hu.tracks
    · rw [htrace, hcs]; exact hu.window
    · rw [htrace]; exact samplesReleased_of_append hfine
    · rw [htrace]; exact hinput.1
    · rw [resultsFit_iff, hres']; exact Res.fits_empty
    · rw [hm] at h; cases h
    · rw [finishCommand_settle p s hp]; exact ⟨hends, hendr⟩

/-- A command begun at rest, if it decodes, meets the invariant. -/
theorem start_inv {i : Instr} {s : State} (hs : s.Steady) (hr : s.AtRest) (hf : s.status.faulted = false)
    (hi : ∀ p, i = .search p → (unpackSearch p).ld ≤ 64) : (start i s).Inv :=
  settle_inv (stands_accept i s) (underway_accept hs hf i) (exec_atRest hs hr hf hi (exec_eq i s))

/-- A step of the timing engine inside a command keeps the invariant: the command's end, which is at rest, stays the same, and its trace begins with the trace
after this step. -/
theorem engineStep_inv_of_live {s : State} (hs : s.Steady) (hl : s.Live) : (engineStep s).Inv := by
  have hu := hl.underway hs
  obtain ⟨-, -, hsome, hend⟩ := hl
  obtain ⟨p, hp⟩ := Option.isSome_iff_exists.mp hsome
  have hstands := stands_of_rest hp
  rw [show finishCommand s = runToEnd p s by rw [finishCommand, hp]] at hend
  rw [show engineStep s = p.advance s by rw [engineStep, hp]]
  cases p with
  | done r => exact .of_atRest hend.1 hend.2
  | call c next =>
    have hne : windowScan (c.perform s).trace ≠ none := by
      obtain ⟨⟨-, -, -, ⟨hwin, -, -⟩, -⟩, -⟩ := id hend
      obtain ⟨evs, hevs⟩ := runToEnd_trace next (c.perform s)
      rw [runToEnd_call, hevs] at hwin
      exact windowScan_ne_none_of_append (by rw [hwin]; nofun)
    exact settle_inv hstands.perform (hu.perform c hne) hend
  | sample k next => exact settle_inv hstands.sample (hu.sample k) hend
  | note n next =>
    obtain ⟨m, -, hrest⟩ := Option.bind_eq_some_iff.mp hp
    exact absurd hrest (rest_ne_note _ _ _ _ _)

/-! ### Every step -/

/-- A step of the timing engine keeps the invariant. -/
theorem engineStep_inv {s : State} (h : s.Inv) : (engineStep s).Inv := by
  obtain ⟨hs, -, hlive⟩ := id h
  cases hm : s.micro with
  | none => rwa [engineStep_none hm]
  | some m => exact engineStep_inv_of_live hs (hlive (by rw [hm]; rfl))

/-- A block that is not busy meets the invariant only at rest. -/
theorem State.Inv.atRest {s : State} (h : s.Inv) (hb : s.status.busy = false) : s.AtRest := by
  obtain ⟨-, hrest, hlive⟩ := h
  cases hm : s.micro with
  | none => exact hrest hm
  | some m =>
    obtain ⟨hstatus, -⟩ := hlive (by rw [hm]; rfl)
    rw [hstatus] at hb
    cases hb

/-- Taking a command fault at rest leaves the block at rest (60_exceptions.md R200). -/
theorem raiseFault_inv {s : State} (hs : s.Steady) (hr : s.AtRest) {code : FaultCode} (hcode : code ≠ .none) (opc : Byte) :
    (raiseFault code opc s).Inv := by
  obtain ⟨hlaw, -, htracks, hwire, -⟩ := hs
  obtain ⟨⟨-, -, hcs⟩, hunknown, hlatch⟩ := hr
  exact .of_atRest ⟨hlaw, ⟨nofun, fun _ => ⟨hcode, rfl⟩⟩, htracks, hwire, Res.fits_empty⟩ ⟨⟨rfl, rfl, hcs⟩, hunknown, hlatch⟩

/-- No failed decode check reports the cause NONE (60_exceptions.md R201). -/
theorem causeOf_ne_none (e : DecodeError) : causeOf e ≠ .none := by cases e <;> nofun

/-- Block reset leaves the block at rest (70_reset_and_hazards.md R230). -/
theorem blockReset_inv {s : State} (hs : s.Steady) : (blockReset s).Inv := by
  obtain ⟨hlaw, -⟩ := hs
  exact .of_atRest ⟨hlaw, ⟨fun _ => rfl, nofun⟩, rfl, ⟨rfl, rfl, rfl⟩, Res.fits_empty⟩
    ⟨⟨rfl, rfl, rfl⟩, fun _ => rfl, fun h => absurd rfl h⟩

/-- A command that decodes keeps the invariant at either pace. -/
theorem runAt_inv {pace : Pace} {i : Instr} {s t : State} (hs : s.Steady) (hr : s.AtRest) (hf : s.status.faulted = false)
    (hi : ∀ p, i = .search p → (unpackSearch p).ld ≤ 64) (h : runAt pace i s = .next t) : t.Inv := by
  cases pace with
  | whole =>
    obtain ⟨hts, htr⟩ := exec_atRest hs hr hf hi h
    exact .of_atRest hts htr
  | byCall =>
    obtain rfl := Host.Outcome.next.inj h
    exact start_inv hs hr hf hi

/-- Settles O52: by what a step can do (`step_cases`). A command from rest ends at rest (`exec_atRest`), and between its calls the invariant follows from that end
(`settle_inv`). -/
theorem everyStepKeepsTheInvariant : Obligations.EveryStepKeepsTheInvariant := by
  intro s t hinv hstep
  obtain ⟨hs, hrest, -⟩ := id hinv
  rcases step_cases hstep with ⟨rfl, -⟩ | ⟨c, w, pace, rest, -, ⟨hbusy, hfaulted, -⟩, hcommand⟩ | ⟨rest, -, -, rfl⟩ |
    ⟨f, rest, v, -, hm, -, rfl⟩ | ⟨r, rest, -, hm, rfl⟩
  · exact engineStep_inv hinv
  · have hr := hinv.atRest hbusy
    rcases hcommand with ⟨e, -, rfl⟩ | ⟨i, hdecode, hrun⟩
    · exact raiseFault_inv (s := { s with inbox := rest }) hs hr (causeOf_ne_none e) _
    · exact runAt_inv (s := { s with inbox := rest }) hs hr hfaulted
        (fun p hp => unpackSearch_ld_le_of_decode (hp ▸ hdecode)) hrun
  · exact blockReset_inv (s := { s with inbox := rest }) hs
  · exact .of_atRest hs (hrest hm)
  · exact .of_atRest hs (hrest hm)

end Sys2Proof.Machine

/-! ## The registers, the result record and the frame of every command (10_state.md)

What a command leaves is read off `CommandEnds` and `exec_cases`; what a host input does, off one equation for `step` per input. -/

namespace Sys2Proof.Machine

/-! ### Search States in range (10_state.md R33) -/

/-- The two properties of 10_state.md R33: an index of at most 64, and index 0 once the flag is set. -/
def SearchState.InRange (ss : SearchState) : Prop := ss.ld ≤ 64 ∧ (ss.ldf = true → ss.ld = 0)

theorem SearchState.s0_inRange : SearchState.s0.InRange := ⟨Nat.zero_le 64, fun _ => rfl⟩

/-- Packing and unpacking keep a Search State in range. -/
theorem SearchState.InRange.unpack_pack {ss : SearchState} (h : ss.InRange) : (unpackSearch (packSearch ss)).InRange := by
  have hld : ss.ld < 128 := Nat.lt_of_le_of_lt h.1 (by decide)
  rwa [unpackSearch_packSearch hld]

/-- A completed walk sets the flag only with index 0 (42_search.md R155), if the flag was clear before. -/
theorem completedState_inRange {ss : SearchState} {lastZero : Nat} (hldf : ss.ldf = false) (hle : lastZero ≤ 64) :
    (completedState ss lastZero).InRange := by
  refine ⟨hle, fun hset => ?_⟩
  simpa [completedState, hldf] using hset

/-- A walk does not touch the flag of its Search State (42_search.md R152). -/
theorem walkOver_ldf (pairs : List (Bit × Bit)) (w : Walk) : (walkOver w pairs).s.ldf = w.s.ldf := by
  induction pairs generalizing w with
  | nil => rfl
  | cons p pairs ih =>
    obtain ⟨id, cmp⟩ := p
    rw [walkOver]
    split
    · rfl
    · exact ih (w.next id cmp)

/-- The last zero of a walk over the 64 positions is one of them, or 0. -/
theorem walkOver_start_lastZero_le {ss : SearchState} {pairs : List (Bit × Bit)} (h : IsWalk 64 pairs) :
    (walkOver (Walk.start ss) pairs).lastZero ≤ 64 := by
  have hlt : (walkOver (Walk.start ss) pairs).lastZero < 1 + pairs.length :=
    walkOver_lastZero_lt pairs (Walk.start ss) Nat.one_pos
  have hlen := h.length_le
  omega

/-- The Search State that a walk returns (42_search.md R155 to R157): the completed one with a device found, `S0` otherwise. -/
theorem walkResult_ss (w : Walk) :
    (walkResult w).ss = some (packSearch
      (if foundOf w.aborted w.s.rom then completedState w.s w.lastZero else SearchState.s0)) := by
  unfold walkResult
  split <;> rfl

/-- A SEARCH returns a Search State in range, if its own was. -/
theorem CommandEnds.search_inRange {t : Tcfg} {slots : List Slot} {r : Res} {p : PackedSearch}
    (h : CommandEnds t slots r (.search p)) (hp : (unpackSearch p).InRange) :
    ∃ q, r.ss = some q ∧ (unpackSearch q).InRange := by
  rcases h with ⟨-, -, rfl⟩ | ⟨hldf, lows, presence, -, ⟨-, -, rfl⟩ | ⟨-, pairs, hwalk, -, rfl⟩⟩
  · exact ⟨p, rfl, hp⟩
  · exact ⟨_, rfl, SearchState.s0_inRange.unpack_pack⟩
  · refine ⟨_, walkResult_ss _, SearchState.InRange.unpack_pack ?_⟩
    split
    · exact completedState_inRange ((walkOver_ldf pairs _).trans hldf) (walkOver_start_lastZero_le hwalk)
    · exact SearchState.s0_inRange

/-- Settles O36: by the three paths of a SEARCH; a walk's index is a position it took, and its flag is set only with index 0. -/
theorem searchKeepsTheIndexInRange : Obligations.SearchKeepsTheIndexInRange := by
  intro p s t hld hldf hexec
  rcases exec_cases hexec with ⟨slots, res, env, hends, rfl⟩ | ⟨hi, -⟩ | ⟨hi, -⟩
  · exact hends.search_inRange ⟨hld, hldf⟩
  · cases hi
  · cases hi

/-! ### MODE and the trace (10_state.md R23) -/

theorem Slot.events_ne_nil (c : Config) (sl : Slot) : sl.events c ≠ [] := by
  cases sl with
  | write v => cases v <;> exact List.cons_ne_nil _ _
  | read l => exact List.cons_ne_nil _ _
  | reset lows presence => exact List.cons_ne_nil _ _

/-- Only a command without a slot adds no event. -/
theorem busEvents_eq_nil_iff {c : Config} {m : Mode} {slots : List Slot} : busEvents c m slots = [] ↔ slots = [] := by
  cases slots with
  | nil => simp
  | cons sl slots =>
    have hslots : slotEvents c (sl :: slots) ≠ [] :=
      List.append_ne_nil_of_left_ne_nil (sl.events_ne_nil c) (slotEvents c slots)
    simp [busEvents_cons, hslots]

/-- MODE after a command that issues slots or none, by its trace. -/
theorem finished_mode (s : State) (slots : List Slot) (res : Res) (env : Environment) :
    (finished s slots res env).mode = if (finished s slots res env).trace = s.trace then s.mode else .openDrain := by
  have htrace : (finished s slots res env).trace = s.trace ↔ slots = [] :=
    List.append_right_eq_self.trans busEvents_eq_nil_iff
  simp only [htrace]
  rfl

/-- POWER and DEPOWER add to the trace (41_bus_control.md R133, R134). -/
theorem repowered_trace_ne (s : State) (m : Mode) (p : PinMode) : (repowered s m p).trace ≠ s.trace :=
  fun h => List.cons_ne_nil _ _ (List.append_right_eq_self.mp h)

/-- Settles O56: a command's events are its slots' or POWER's and DEPOWER's two calls, and there is none exactly if there is no slot. -/
theorem modeAfterEveryCommand : Obligations.ModeAfterEveryCommand := by
  intro i s t hexec
  rcases exec_cases hexec with ⟨slots, res, env, hends, rfl⟩ | ⟨rfl, rfl⟩ | ⟨rfl, rfl⟩
  · have hne : i ≠ .power := by
      rintro rfl
      exact hends
    rw [if_neg hne, finished_mode]
  · rw [if_neg (repowered_trace_ne s _ _), if_pos rfl]; rfl
  · rw [if_neg (repowered_trace_ne s _ _), if_neg nofun]; rfl

/-! ### The fields of `RES` that hold a value (10_state.md R20) -/

/-- The fields of `RES`, in the order of the table of 10_state.md R20. -/
def ResField.all : List ResField := [.bit, .byte, .bytes, .present, .crc8, .crc16, .ok, .found, .addr, .ss]

theorem ResField.mem_all (f : ResField) : f ∈ ResField.all := by cases f <;> decide

@[simp] theorem Res.read_empty (f : ResField) : Res.empty.read f = none := by cases f <;> rfl

/-- The fields of a record that hold a value. -/
def Res.written (r : Res) : List ResField := ResField.all.filter fun f => (r.read f).isSome

/-- A field holds no value exactly if it is not among the written ones. -/
theorem Res.read_eq_none_iff {r : Res} {f : ResField} : r.read f = none ↔ f ∉ r.written := by
  simp [Res.written, ResField.mem_all]

/-- A walk's results are those of SEARCH's row in the table. -/
theorem walkResult_written_subset (w : Walk) : (walkResult w).written ⊆ [.found, .addr, .ss] := by
  unfold walkResult
  split
  · exact List.Subset.refl _
  · exact show [ResField.found, .ss] ⊆ [.found, .addr, .ss] by decide

/-- A command writes no field but those of its row in the table of 10_state.md R20. -/
theorem CommandEnds.written_subset {t : Tcfg} {slots : List Slot} {r : Res} {i : Instr} (h : CommandEnds t slots r i) :
    r.written ⊆ mayWrite i := by
  cases i with
  | writeBit | writeByte | writeBytes | select | skipRom => obtain ⟨-, rfl⟩ := h; exact List.Subset.refl _
  | readBit => obtain ⟨_, -, rfl⟩ := h; exact List.Subset.refl _
  | readByte => obtain ⟨_, -, -, rfl⟩ := h; exact List.Subset.refl _
  | readBytes => obtain ⟨_, -, -, rfl⟩ := h; exact List.Subset.refl _
  | reset => obtain ⟨_, _, -, -, rfl⟩ := h; exact List.Subset.refl _
  | power | depower => exact h.elim
  | resetSearch | targetSearch => obtain ⟨-, rfl⟩ := h; exact List.Subset.refl _
  | search p =>
    have hnone : [ResField.found, .ss] ⊆ mayWrite (.search p) := show _ ⊆ [ResField.found, .addr, .ss] by decide
    rcases h with ⟨-, -, rfl⟩ | ⟨-, _, _, -, ⟨-, -, rfl⟩ | ⟨-, pairs, -, -, rfl⟩⟩
    · exact hnone
    · exact hnone
    · exact walkResult_written_subset _
  | crc8 => obtain ⟨-, _, rfl⟩ := h; exact List.Subset.refl _
  | crc16 => obtain ⟨-, rfl⟩ := h; exact List.Subset.refl _
  | checkCrc16 => obtain ⟨-, rfl⟩ := h; exact List.Subset.refl _

/-- Settles O57: the fields that hold a value after a command are among those of its row. -/
theorem onlyTheTablesResultFieldsAreWritten : Obligations.OnlyTheTablesResultFieldsAreWritten := by
  intro i s t f hexec hf
  rcases exec_cases hexec with ⟨slots, res, env, hends, rfl⟩ | ⟨-, rfl⟩ | ⟨-, rfl⟩
  · exact Res.read_eq_none_iff.mpr fun hmem => hf (hends.written_subset hmem)
  · exact Res.read_empty f
  · exact Res.read_empty f

/-! ### The frame of every command -/

/-- Settles O58: `finished` and `repowered` write none of these fields. -/
theorem commandsLeaveTheRest : Obligations.CommandsLeaveTheRest := by
  intro i s t hexec
  rcases exec_cases hexec with ⟨slots, res, env, -, rfl⟩ | ⟨-, rfl⟩ | ⟨-, rfl⟩ <;>
    exact ⟨rfl, rfl, rfl, rfl, rfl, rfl, rfl⟩

/-! ### What a step does with each host input (60_exceptions.md R218) -/

theorem step_nil {s : State} (h : s.inbox = []) : step s = .next (engineStep s) := by rw [step, h]

/-- An input that waits leaves the step to the timing engine (20_memory.md R64). -/
theorem step_held {s : State} {x : HostInput} {rest : List HostInput} (h : s.inbox = x :: rest) (hheld : held x s = true) :
    step s = .next (engineStep s) := by
  simp only [step, h, hheld, if_true]

/-- An input that does not wait is taken. -/
theorem step_taken {s : State} {x : HostInput} {rest : List HostInput} (h : s.inbox = x :: rest) (hheld : held x s = false) :
    step s = stepInput x { s with inbox := rest } := by
  simp only [step, h, hheld, Bool.false_eq_true, if_false]

/-- Between commands every input is taken. -/
theorem held_of_micro_none {s : State} (h : s.micro = none) (x : HostInput) : held x s = false := by simp [held, h]

/-- A command that the block accepts and that decodes is run at its pace. -/
theorem step_command {s : State} {c : Command} {w : Bool} {pace : Pace} {rest : List HostInput} {i : Instr}
    (h : s.inbox = .command c w pace :: rest) (hacc : s.Accepts w) (hdecode : decode c = .ok i) :
    step s = runAt pace i { s with inbox := rest } := by
  have hadmit : admission w { s with inbox := rest } = none := (admission_none_iff w _).mpr hacc
  rw [step_taken h rfl, stepInput, stepCommand, hadmit, hdecode]

/-- Settles O6: an accepted command that decodes is run at its pace, and with no input the timing engine has the step. -/
theorem stepRunsTheDecodedCommand : Obligations.StepRunsTheDecodedCommand := by
  intro s c w rest i
  refine ⟨fun hin hacc hdecode => step_command hin hacc hdecode, fun hin hacc hdecode => step_command hin hacc hdecode,
    step_nil, fun hin hmicro => ?_⟩
  rw [step_nil hin, engineStep_none hmicro]

/-- A read of a `RES` field with a value delivers it. -/
theorem hostReadRes_some {f : ResField} {s : State} {v : HostValue} (h : s.res.read f = some v) :
    hostReadRes f s = .next (deliver v s) := by rw [hostReadRes, h]

/-- A read of a `RES` field without a value is a fault (10_state.md R20). -/
theorem hostReadRes_none {f : ResField} {s : State} (h : s.res.read f = none) :
    hostReadRes f s = .fault (.readOfNoValue f) := by rw [hostReadRes, h]

/-- Settles O14: a read is taken between commands and then delivers or faults; while a command is live it waits. -/
theorem hostReadDeliversOrFaults : Obligations.HostReadDeliversOrFaults := by
  refine ⟨fun r => ⟨rfl, rfl, rfl, rfl, rfl, rfl, rfl, rfl, rfl, rfl⟩, fun s => ⟨rfl, rfl, rfl⟩, fun s rest =>
    ⟨fun f hin hmicro => ⟨fun hnone => ?_, fun v hsome => ?_⟩, fun r hin hmicro => ?_, fun hlive => ⟨fun f hin => ?_, fun r hin => ?_⟩⟩⟩
  · exact (step_taken hin (held_of_micro_none hmicro _)).trans (hostReadRes_none hnone)
  · exact (step_taken hin (held_of_micro_none hmicro _)).trans (hostReadRes_some hsome)
  · exact step_taken hin (held_of_micro_none hmicro _)
  · exact step_held hin (held_iff.mpr ⟨rfl, hlive⟩)
  · exact step_held hin (held_iff.mpr ⟨rfl, hlive⟩)

/-! ### The registers as the host reads them (10_state.md R23 to R25) -/

/-- Every bit of STATUS (10_state.md R24). -/
theorem statusReg_getLsbD (s : State) (k : Nat) :
    s.statusReg.getLsbD k = if k = 0 then s.status.busy else if k = 1 then s.status.faulted else false := by
  have h : s.statusReg.getLsbD k = _ :=
    BitVec.getLsbD_append (x := 0#30 ++ BitVec.ofBool s.status.faulted) (y := BitVec.ofBool s.status.busy)
  rw [h, BitVec.getLsbD_append]
  match k with
  | 0 => simp
  | 1 => simp
  | k + 2 => simp

/-- Every bit of FAULT (10_state.md R25). -/
theorem faultReg_getLsbD (s : State) (k : Nat) :
    s.faultReg.getLsbD k =
      if k < 8 then s.fault.code.encoding.getLsbD k else if k < 16 then s.fault.opc.getLsbD (k - 8) else false := by
  have h : s.faultReg.getLsbD k = _ :=
    BitVec.getLsbD_append (x := 0#16 ++ s.fault.opc) (y := s.fault.code.encoding)
  rw [h, BitVec.getLsbD_append]
  by_cases hcode : k < 8
  · simp [hcode]
  · by_cases hopc : k < 16
    · simp [hcode, hopc, show k - 8 < 8 by omega]
    · simp [hcode, hopc, show ¬ k - 8 < 8 by omega]

/-- Settles O15: bit by bit for STATUS and FAULT, and by the three values of MODE. -/
theorem registerBitsAsRead : Obligations.RegisterBitsAsRead := by
  refine ⟨⟨rfl, rfl, rfl⟩, fun s => ⟨⟨?_, ?_, fun k hk => ?_⟩, ⟨?_, ?_, fun k hk => ?_⟩, ?_⟩⟩
  · rw [statusReg_getLsbD, if_pos rfl]
  · rw [statusReg_getLsbD, if_neg Nat.one_ne_zero, if_pos rfl]
  · rw [statusReg_getLsbD, if_neg (by omega), if_neg (by omega)]
  · exact BitVec.eq_of_getLsbD_eq fun i hi => by simp [faultReg_getLsbD, hi]
  · exact BitVec.eq_of_getLsbD_eq fun i hi => by simp [faultReg_getLsbD, hi, show 8 + i < 16 by omega]
  · rw [faultReg_getLsbD, if_neg (by omega), if_neg (by omega)]
  · unfold State.modeReg
    cases s.mode <;> decide

/-! ### After block reset (10_state.md R39) -/

/-- The CRC-8 table has an entry for every byte (10_state.md R28). -/
theorem crc8Table_length : crc8Table.length = 256 := by
  simp only [crc8Table, List.length_append, List.length_cons, List.length_nil]

/-- Settles O12: every register and table by its value. -/
theorem resetStateHoldsTheResetValues : Obligations.ResetStateHoldsTheResetValues :=
  ⟨rfl, by decide, by decide, Res.read_empty, rfl, rfl, rfl, crc8Table_length, rfl⟩

/-- A block after block reset of a lawful configuration is at rest. -/
theorem initial_inv {cfg : Config} (h : cfg.t.Lawful) : (State.initial cfg).Inv :=
  .of_atRest ⟨h, ⟨fun _ => rfl, nofun⟩, rfl, ⟨rfl, rfl, rfl⟩, Res.fits_empty⟩
    ⟨⟨rfl, rfl, rfl⟩, fun _ => rfl, fun hne => absurd rfl hne⟩

/-- The nominal timing record meets the laws of 00_scope.md R7. -/
theorem nominal_lawful : Tcfg.nominal.Lawful := by decide

/-- Settles O51: the block is at rest after block reset, and `State.reset` is that with the nominal timing. -/
theorem invariantHoldsAtReset : Obligations.InvariantHoldsAtReset :=
  ⟨fun _ h => initial_inv h, initial_inv nominal_lawful⟩

end Sys2Proof.Machine

/-! ## The calls issued only grow (20_memory.md R62)

`State.Extends` is a preorder, so an engine step is the call or sample it issues, then the settling that follows. -/

namespace Sys2Proof.Machine

/-- `t` comes after `s` on the same instance: the configuration is that of `s` (10_state.md R26), and every call that `s` has issued is still there, at its place
(20_memory.md R62). -/
def State.Extends (s t : State) : Prop := t.cfg = s.cfg ∧ s.history <+: t.history

theorem State.Extends.refl (s : State) : s.Extends s := ⟨rfl, List.prefix_rfl⟩

theorem State.Extends.trans {s t u : State} (hst : s.Extends t) (htu : t.Extends u) : s.Extends u :=
  ⟨htu.1.trans hst.1, hst.2.trans htu.2⟩

/-- With the calls before the last block reset as they are, it is enough that the trace grows. -/
theorem State.Extends.of_trace {s t : State} {evs : List WireEvent} (hcfg : t.cfg = s.cfg) (hearlier : t.earlier = s.earlier)
    (htrace : t.trace = s.trace ++ evs) : s.Extends t :=
  ⟨hcfg, evs, by rw [State.history, State.history, hearlier, htrace, List.append_assoc]⟩

/-- With the trace as it is too, nothing was issued. -/
theorem State.Extends.of_eq {s t : State} (hcfg : t.cfg = s.cfg) (hearlier : t.earlier = s.earlier) (htrace : t.trace = s.trace) :
    s.Extends t :=
  .of_trace hcfg hearlier (htrace.trans (List.append_nil _).symm)

/-- The states that `Obligations.WireHistoryOnlyGrows` allows after `s`. -/
theorem State.extends_iff {s t : State} :
    s.Extends t ↔ t.cfg = s.cfg ∧ ∃ evs, t.earlier ++ t.trace = s.earlier ++ s.trace ++ evs :=
  and_congr_right fun _ => exists_congr fun _ => eq_comm

/-! ### The timing engine -/

theorem perform_extends (c : Call) (s : State) : s.Extends (c.perform s) := by
  obtain ⟨hcfg, -, -, -, hearlier, -⟩ := perform_fixed c s
  obtain ⟨e, htrace⟩ := perform_trace c s
  exact .of_trace hcfg hearlier htrace

theorem sample_extends (k : SampleKind) (s : State) : s.Extends (sample k s).2 := .of_trace rfl rfl rfl

theorem settle_extends (p : Program) (s : State) : s.Extends (settle p s) := by
  obtain ⟨hcfg, -, -, -, -, htrace, hearlier, -⟩ := settle_fixed p s
  exact .of_eq hcfg hearlier htrace

theorem advance_extends (p : Program) (s : State) : s.Extends (p.advance s) := by
  cases p with
  | done r => exact settle_extends _ s
  | call c next => exact (perform_extends c s).trans (settle_extends next _)
  | sample k next => exact (sample_extends k s).trans (settle_extends _ _)
  | note n next => exact settle_extends _ s

theorem engineStep_extends (s : State) : s.Extends (engineStep s) := by
  unfold engineStep
  split
  next p _ => exact advance_extends p s
  next => exact .refl s

/-! ### Commands and block reset -/

theorem exec_extends {i : Instr} {s t : State} (h : exec i s = .next t) : s.Extends t := by
  rcases exec_cases h with ⟨_, _, _, -, rfl⟩ | ⟨-, rfl⟩ | ⟨-, rfl⟩ <;> exact .of_trace rfl rfl rfl

/-- A command that begins has issued no call yet. -/
theorem start_extends (i : Instr) (s : State) : s.Extends (start i s) :=
  State.Extends.trans (t := accept i s) (.of_eq rfl rfl rfl) (settle_extends _ _)

theorem runAt_extends {pace : Pace} {i : Instr} {s t : State} (h : runAt pace i s = .next t) : s.Extends t := by
  cases pace with
  | whole => exact exec_extends h
  | byCall =>
    obtain rfl := Host.Outcome.next.inj h
    exact start_extends i s

/-- Block reset moves the trace to the calls before it, and drops none (20_memory.md R50). -/
theorem blockReset_extends (s : State) : s.Extends (blockReset s) :=
  ⟨rfl, by simp [State.history]⟩

/-- Taking an input off the queue issues nothing. -/
theorem inbox_extends (s : State) (rest : List HostInput) : s.Extends { s with inbox := rest } := .of_eq rfl rfl rfl

/-! ### Every step -/

/-- Settles O59: by what a step can do (`step_cases`). The engine and a command add to the trace, block reset moves it to `earlier`, and a fault and a read issue no
call. -/
theorem wireHistoryOnlyGrows : Obligations.WireHistoryOnlyGrows := by
  intro s t hstep
  rw [← State.extends_iff]
  rcases step_cases hstep with ⟨rfl, -⟩ | ⟨c, w, pace, rest, -, -, ⟨e, -, rfl⟩ | ⟨i, -, hrun⟩⟩ | ⟨rest, -, -, rfl⟩ |
    ⟨f, rest, v, -, -, -, rfl⟩ | ⟨r, rest, -, -, rfl⟩
  · exact engineStep_extends s
  · exact .of_eq rfl rfl rfl
  · exact (inbox_extends s rest).trans (runAt_extends hrun)
  · exact (inbox_extends s rest).trans (blockReset_extends _)
  · exact .of_eq rfl rfl rfl
  · exact .of_eq rfl rfl rfl

end Sys2Proof.Machine

/-! ## Encoding, decoding and the opcode map (30_encoding.md)

Check (2) of R85 says that a word is one its row can spell (`mkWord_of_fieldsFit`), and check (3) that the operands are those its row takes. So the row of a
command is where both directions of the encoding meet. -/

namespace Sys2Proof

/-! ### Rows of the opcode map (30_encoding.md R84, R86) -/

/-- The codes of the rows are distinct. -/
theorem rowOf_code {r : OpRow} (h : r ∈ opcodeMap) : rowOf r.code = some r := by
  revert r
  decide

/-- A code has a row exactly if the row is in the table with that code. -/
theorem rowOf_eq_some_iff {code : Byte} {r : OpRow} : rowOf code = some r ↔ r ∈ opcodeMap ∧ code = r.code := by
  constructor
  · intro h
    rw [rowOf] at h
    exact ⟨List.mem_of_find?_eq_some h, (eq_of_beq (List.find?_some h :)).symm⟩
  · rintro ⟨hmem, rfl⟩
    exact rowOf_code hmem

/-- The codes without a row are those that R86 lists. -/
theorem rowOf_eq_none_iff {code : Byte} : rowOf code = none ↔ Machine.ReservedCode code := by
  revert code
  decide

/-! ### Match and mask words (30_encoding.md R85) -/

/-- `A[7:1]` of WRITE_BIT's word is zero exactly if the masked `A` is. -/
theorem and_upperBits_eq_zero_iff (a : Byte) : a &&& 254#8 = 0#8 ↔ a.extractLsb' 1 7 = 0#7 := by
  revert a
  decide

/-- A word matches a row exactly if it has the row's code and passes check (2) of R85, whatever the row. -/
theorem word_matches_iff (r : OpRow) (cw : CommandWord) :
    cw &&& r.maskWord = r.matchWord ↔ opField cw = r.code ∧ fieldsFit r cw = true := by
  have hbyte (b : Byte) : b &&& 255#8 = b := BitVec.and_allOnes
  have hlen (l : U16) : l &&& 65535#16 = l := BitVec.and_allOnes
  rw [← mkWord_fields cw]
  generalize lenField cw = l, aField cw = a, opField cw = o
  rw [OpRow.maskWord, OpRow.matchWord, mkWord_and, mkWord_inj, opField_mkWord, fieldsFit, aField_mkWord, lenField_mkWord]
  cases r.a <;> cases r.len <;> simp [hbyte, hlen, and_upperBits_eq_zero_iff, and_comm, and_assoc]

/-! ### The operands a command carries (30_encoding.md R81 to R83) -/

/-- Check (2) of R85, field by field. -/
theorem fieldsFit_iff {r : OpRow} {cw : CommandWord} :
    fieldsFit r cw = true ↔ (r.a = .zero → aField cw = 0#8) ∧ (r.a = .bit → (aField cw).extractLsb' 1 7 = 0#7) ∧
      (r.len = false → lenField cw = 0#16) := by
  cases ha : r.a <;> cases hl : r.len <;> simp [fieldsFit, ha, hl]

/-- Check (3) of R85, operand by operand. -/
theorem operandsFit_iff {r : OpRow} {c : Command} :
    operandsFit r c = true ↔ c.dataIn.isSome = r.data ∧ c.romIn.isSome = r.rom ∧ c.seed.isSome = r.seed ∧
      c.rx.isSome = r.rx ∧ c.ssIn.isSome = r.ss ∧ lengthAgrees c = true := by
  simp only [operandsFit, Bool.and_eq_true, beq_iff_eq, and_assoc]

/-- `LEN` says the length of data exactly if the data fits it (R82). -/
theorem lenOf_toNat_iff {data : List Byte} : data.length = (lenOf data).toNat ↔ lengthFits data = true :=
  ⟨fun h => decide_eq_true (by have := (lenOf data).isLt; omega), fun h => (lenOf_toNat h).symm⟩

/-- A command term is well-formed exactly if its own encoding passes the checks of R82 and R32 on operand values. -/
theorem wellFormed_iff (i : Instr) :
    i.wellFormed = true ↔ lengthAgrees (encode i) = true ∧ searchStateFits (encode i) = true := by
  cases i with
  | writeBytes data | crc8 data | crc16 data | checkCrc16 data =>
    simp [Instr.wellFormed, encode, lengthAgrees, searchStateFits, lenOf_toNat_iff]
  | search ss => simp [Instr.wellFormed, encode, lengthAgrees, searchStateFits, discrepancyFits]
  | _ => exact and_self_iff.symm

/-! ### Decoding an encoding -/

/-- The word and the operands of every command are those of a row. -/
theorem tableWord (i : Instr) : Laws.TableWord.Statement i := by
  cases i with
  | writeBit v => exact Laws.TableWord.writeBit v
  | readBit => exact Laws.TableWord.readBit
  | writeByte b => exact Laws.TableWord.writeByte b
  | readByte => exact Laws.TableWord.readByte
  | writeBytes data => exact Laws.TableWord.writeBytes data
  | readBytes n => exact Laws.TableWord.readBytes n
  | reset => exact Laws.TableWord.reset
  | select rom => exact Laws.TableWord.select rom
  | skipRom => exact Laws.TableWord.skipRom
  | power => exact Laws.TableWord.power
  | depower => exact Laws.TableWord.depower
  | resetSearch => exact Laws.TableWord.resetSearch
  | targetSearch fam => exact Laws.TableWord.targetSearch fam
  | search ss => exact Laws.TableWord.search ss
  | crc8 data => exact Laws.TableWord.crc8 data
  | crc16 data seed => exact Laws.TableWord.crc16 data seed
  | checkCrc16 data seed rx0 rx1 => exact Laws.TableWord.checkCrc16 data seed rx0 rx1

/-- The row of a command's code builds the command from its word and operands. -/
theorem buildInstr_encode {i : Instr} {r : OpRow} (h : rowOf (opField (encode i).cw) = some r) :
    buildInstr r.op (encode i) = some i := by
  cases i with
  | writeBit v =>
    rw [encode, opField_mkWord] at h
    obtain rfl := Option.some.inj h
    cases v <;> rfl
  | _ =>
    rw [encode, opField_mkWord] at h
    obtain rfl := Option.some.inj h
    simp [encode, buildInstr]

/-- Settles O1: the encoding has the word and operands of a row, which builds the command again. -/
theorem decodeOfEncodeIsTheCommand : Obligations.DecodeOfEncodeIsTheCommand := by
  intro i hwf
  obtain ⟨hlen, hindex⟩ := (wellFormed_iff i).mp hwf
  obtain ⟨r, -, hrow, hword, hdata, hrom, hseed, hrx, hss⟩ := tableWord i
  exact decode_eq_ok.mpr ⟨r, hrow, ((word_matches_iff r _).mp hword).2,
    operandsFit_iff.mpr ⟨hdata, hrom, hseed, hrx, hss, hlen⟩, buildInstr_encode hrow, hindex⟩

/-! ### Encoding what decodes -/

/-- The table lists the rows in the order of the operations. -/
theorem opcodeMap_getElem? {r : OpRow} (h : r ∈ opcodeMap) : opcodeMap[r.op.ctorIdx]? = some r := by
  revert r
  decide

/-- Data of the length that a `LEN` field says is encoded with that field. -/
theorem lenOf_of_lengthAgrees {c : Command} {data : List Byte} (hdata : c.dataIn = some data) (h : lengthAgrees c = true) :
    lenOf data = lenField c.cw := by
  rw [lengthAgrees, hdata] at h
  rw [lenOf, show data.length = (lenField c.cw).toNat from eq_of_beq h, BitVec.ofNat_toNat, BitVec.setWidth_eq]

/-- An `A` field whose bits 7:1 are zero is its bit 0 (R81). -/
theorem bit_of_upperBits_zero (a : Byte) : a.extractLsb' 1 7 = 0#7 → a = if a.getLsbD 0 then 1 else 0 := by
  revert a
  decide

/-- What a row lets through of an `A` field (R81). -/
def AUse.read : AUse → Byte → Byte
  | .zero, _ => 0
  | .bit, a => if a.getLsbD 0 then 1 else 0
  | .byte, a => a

/-- A word that passes check (2) of R85 holds nothing but what its row reads. -/
theorem mkWord_of_fieldsFit {r : OpRow} {cw : CommandWord} (hcode : opField cw = r.code) (h : fieldsFit r cw = true) :
    mkWord (if r.len then lenField cw else 0) (r.a.read (aField cw)) r.code = cw := by
  obtain ⟨hzero, hbit, hlen⟩ := fieldsFit_iff.mp h
  have ha : aField cw = r.a.read (aField cw) := by
    cases huse : r.a with
    | zero => exact hzero huse
    | bit => exact bit_of_upperBits_zero _ (hbit huse)
    | byte => rfl
  have hl : lenField cw = if r.len then lenField cw else 0 := by
    cases huse : r.len with
    | false => exact hlen huse
    | true => rfl
  rw [← ha, ← hl, ← hcode, mkWord_fields]

/-- A row's command is built from all that the row reads of the word, and from all operands. -/
theorem encode_of_buildInstr {r : OpRow} {c : Command} {i : Instr} (hmem : r ∈ opcodeMap)
    (hword : mkWord (if r.len then lenField c.cw else 0) (r.a.read (aField c.cw)) r.code = c.cw)
    (hoperands : operandsFit r c = true) (hbuild : buildInstr r.op c = some i) : encode i = c := by
  have hrow := opcodeMap_getElem? hmem
  obtain ⟨op, code, a, len, data, rom, seed, rx, ss⟩ := r
  obtain ⟨hdata, hrom, hseed, hrx, hss, hlen⟩ := operandsFit_iff.mp hoperands
  have hlenOf := fun d h => lenOf_of_lengthAgrees (data := d) h hlen
  obtain ⟨cw, dataIn, romIn, seedIn, rxIn, ssIn⟩ := c
  cases op with
  | writeBytes | crc8 | select | search =>
    obtain ⟨⟩ := Option.some.inj hrow
    obtain ⟨x, rfl, rfl⟩ := Option.map_eq_some_iff.mp hbuild
    simp_all [encode, AUse.read]
  | crc16 =>
    obtain ⟨⟩ := Option.some.inj hrow
    obtain ⟨d, rfl, hbuild⟩ := Option.bind_eq_some_iff.mp hbuild
    obtain ⟨init, rfl, rfl⟩ := Option.map_eq_some_iff.mp hbuild
    simp_all [encode, AUse.read]
  | checkCrc16 =>
    obtain ⟨⟩ := Option.some.inj hrow
    obtain ⟨d, rfl, hbuild⟩ := Option.bind_eq_some_iff.mp hbuild
    obtain ⟨init, rfl, hbuild⟩ := Option.bind_eq_some_iff.mp hbuild
    obtain ⟨received, rfl, rfl⟩ := Option.map_eq_some_iff.mp hbuild
    simp_all [encode, AUse.read]
  | _ =>
    obtain ⟨⟩ := Option.some.inj hrow
    obtain rfl := Option.some.inj hbuild
    simp_all [encode, AUse.read]

/-- Settles O2: the row builds the command from all it reads of the word and from all operands. -/
theorem encodeOfDecodeIsTheWord : Obligations.EncodeOfDecodeIsTheWord := by
  intro c i h
  obtain ⟨r, hrow, hfields, hoperands, hbuild, hindex⟩ := decode_eq_ok.mp h
  obtain ⟨hmem, hcode⟩ := rowOf_eq_some_iff.mp hrow
  obtain ⟨-, -, -, -, -, hlen⟩ := operandsFit_iff.mp hoperands
  have hencode : encode i = c := encode_of_buildInstr hmem (mkWord_of_fieldsFit hcode hfields) hoperands hbuild
  exact ⟨(wellFormed_iff i).mpr (by rw [hencode]; exact ⟨hlen, hindex⟩), hencode⟩

/-! ### The opcode map as words -/

/-- A word matches a row of the table exactly if its code has that row and it passes check (2) of R85. -/
theorem word_matches_row_iff {r : OpRow} (hr : r ∈ opcodeMap) (cw : CommandWord) :
    cw &&& r.maskWord = r.matchWord ↔ rowOf (opField cw) = some r ∧ fieldsFit r cw = true := by
  rw [word_matches_iff, rowOf_eq_some_iff, and_iff_right hr]

/-- Settles O3: a word matches a row exactly if `rowOf` gives that row, and it gives one row at most. -/
theorem matchAndMaskOfEveryRow : Obligations.MatchAndMaskOfEveryRow := by
  refine ⟨rfl, fun r hr => word_matches_row_iff hr, fun r hr r' hr' cw h h' => ?_⟩
  obtain ⟨hrow, -⟩ := (word_matches_row_iff hr cw).mp h
  obtain ⟨hrow', -⟩ := (word_matches_row_iff hr' cw).mp h'
  exact Option.some.inj (hrow.symm.trans hrow')

/-- Settles O4: each word is its command's encoding. -/
theorem vectorWordsDecode : Obligations.VectorWordsDecode :=
  ⟨decodeOfEncodeIsTheCommand (.writeBit true) rfl, decodeOfEncodeIsTheCommand (.writeByte 0xBE) rfl,
    decodeOfEncodeIsTheCommand (.writeBytes [0x55, 0x01]) rfl,
    decodeOfEncodeIsTheCommand (.select 0x9E06050403020128) rfl, decodeOfEncodeIsTheCommand (.targetSearch 0x28) rfl,
    decodeOfEncodeIsTheCommand (.checkCrc16 [0x31, 0x32, 0x33, 0x34, 0x35, 0x36, 0x37, 0x38, 0x39] 0 0xC2 0x44) rfl⟩

/-- A reserved code fails the first check (R85). -/
theorem decode_of_rowOf_none {c : Command} (h : rowOf (opField c.cw) = none) : decode c = .error .reservedOpcode := by
  rw [decode, h]

end Sys2Proof

namespace Sys2Proof.Machine

/-- A command that the block accepts and that does not decode is a fault (60_exceptions.md R200). -/
theorem step_malformed {s : State} {c : Command} {w : Bool} {pace : Pace} {rest : List HostInput} {e : DecodeError}
    (h : s.inbox = .command c w pace :: rest) (hacc : s.Accepts w) (hdecode : decode c = .error e) :
    step s = .next (faultedState { s with inbox := rest } (causeOf e) (opField c.cw)) := by
  have hadmit : admission w { s with inbox := rest } = none := (admission_none_iff w _).mpr hacc
  rw [step_taken h rfl, stepInput, stepCommand, hadmit, hdecode]
  rfl

/-- Settles O5: a code without a row does not decode, and what does not decode is a fault. -/
theorem reservedOpcodeRaisesIllegalCommand : Obligations.ReservedOpcodeRaisesIllegalCommand := by
  refine ⟨fun _ => rowOf_eq_none_iff, fun s c w pace rest hin hacc hreserved => ?_⟩
  exact step_malformed hin hacc (decode_of_rowOf_none (rowOf_eq_none_iff.mpr hreserved))

/-! ## Commands with the same trace (30_encoding.md R89)

A command that only writes issues the same slots from every state, so the traces of two such sequences are equal where their slots are. The levels of read slots are
the environment's, which sees the trace so far: there the two sides are followed slot by slot (`State.SameWire`). -/

/-- A command that completes leaves the rest of the list to run. -/
theorem execAll_cons {i : Instr} {s t : State} (h : exec i s = .next t) (is : List Instr) :
    execAll (i :: is) s = execAll is t := by
  rw [execAll, h]

/-! ### Write slots -/

/-- From every state the command completes and issues exactly these slots. -/
def Issues (i : Instr) (slots : List Slot) : Prop :=
  ∀ s : State, ∃ res env, exec i s = .next (finished s slots res env)

/-- It is enough that the command can end with no other slots. -/
theorem issues_of_ends {i : Instr} {slots : List Slot} (hp : i ≠ .power) (hd : i ≠ .depower)
    (h : ∀ t slots' res, CommandEnds t slots' res i → slots' = slots) : Issues i slots := by
  intro s
  obtain ⟨slots', res, env, hends, hexec⟩ := exec_finished i s hp hd
  obtain rfl := h _ _ _ hends
  exact ⟨res, env, hexec⟩

theorem issues_writeBit (v : Bit) : Issues (.writeBit v) [.write v] := issues_of_ends nofun nofun fun _ _ _ h => h.1

theorem issues_writeByte (b : Byte) : Issues (.writeByte b) (byteSlots b) := issues_of_ends nofun nofun fun _ _ _ h => h.1

theorem issues_writeBytes (data : List Byte) : Issues (.writeBytes data) (bytesSlots data) :=
  issues_of_ends nofun nofun fun _ _ _ h => h.1

theorem issues_select (rom : Addr) : Issues (.select rom) (bytesSlots (0x55 :: bytesLe rom)) :=
  issues_of_ends nofun nofun fun _ _ _ h => h.1

theorem issues_skipRom : Issues .skipRom (byteSlots 0xCC) := issues_of_ends nofun nofun fun _ _ _ h => h.1

/-- The slots of commands one after the other join to one slot sequence. -/
theorem execAll_of_issues {is : List Instr} {slots : List (List Slot)} (h : List.Forall₂ Issues is slots) (s : State) :
    ∃ t, execAll is s = some t ∧ t.trace = s.trace ++ busEvents s.cfg s.mode slots.flatten := by
  induction h generalizing s with
  | nil => exact ⟨s, rfl, (List.append_nil _).symm⟩
  | @cons i sl is slots hi _ ih =>
    obtain ⟨res, env, hexec⟩ := hi s
    obtain ⟨t, hall, htrace⟩ := ih (finished s sl res env)
    refine ⟨t, (execAll_cons hexec is).trans hall, ?_⟩
    rw [htrace, List.flatten_cons, ← busEvents_append, ← List.append_assoc]
    rfl

/-- Two lists of commands that issue the same slots leave the same trace. -/
theorem sameTrace_of_issues {a b : List Instr} {slots slots' : List (List Slot)} (ha : List.Forall₂ Issues a slots)
    (hb : List.Forall₂ Issues b slots') (h : slots.flatten = slots'.flatten) : SameTrace a b := by
  intro s
  obtain ⟨t, ht, httrace⟩ := execAll_of_issues ha s
  obtain ⟨u, hu, hutrace⟩ := execAll_of_issues hb s
  exact ⟨t, u, ht, hu, by rw [httrace, hutrace, h]⟩

/-! ### Read slots -/

/-- The two states stand at the same point of the wire: whatever an environment sees and answers with is equal. -/
structure State.SameWire (s t : State) : Prop where
  cfg : t.cfg = s.cfg
  mode : t.mode = s.mode
  trace : t.trace = s.trace
  earlier : t.earlier = s.earlier
  environment : t.environment = s.environment
  world : t.world = s.world

/-- The level that a read slot from `s` samples, and the environment after it. -/
def State.readAnswer (s : State) : Bit × Environment := s.environment.answer .readSlot s.world (readHistory s)

/-- At the same point of the wire, the same level is sampled. -/
theorem State.SameWire.readAnswer {s t : State} (h : s.SameWire t) : t.readAnswer = s.readAnswer := by
  simp only [State.readAnswer, readHistory, State.history, h.cfg, h.mode, h.trace, h.earlier, h.environment, h.world]

/-- The same slots lead to the same point, in the midst of a command or at its end. -/
theorem State.SameWire.bus_finished {s t : State} (h : s.SameWire t) (slots : List Slot) (env : Environment)
    (m : Option Micro) (res : Res) : (bus s slots env m).SameWire (finished t slots res env) where
  cfg := h.cfg
  mode := congrArg (modeAfter · slots) h.mode
  trace := by
    show t.trace ++ busEvents t.cfg t.mode slots = s.trace ++ busEvents s.cfg s.mode slots
    rw [h.cfg, h.mode, h.trace]
  earlier := h.earlier
  environment := rfl
  world := h.world

/-- READ_BIT is one read slot of the level the environment answers (40_transport.md R112). -/
theorem exec_readBit (s : State) :
    exec .readBit s =
      .next (finished s [.read s.readAnswer.1] { Res.empty with bit := some s.readAnswer.1 } s.readAnswer.2) := by
  obtain ⟨m, h⟩ := readBitBody_eq (accept .readBit s)
  exact runCommand_bus (h _)

/-- The loop of READ_BYTE comes to the same point of the wire as that many READ_BIT. -/
theorem readBits_sameWire (is : List Nat) (r : Byte) {s t : State} (h : s.SameWire t) :
    ∃ b s' t', (∀ next, runToEnd (readBits s.cfg.t s.mode is r next) s = runToEnd (next b) s') ∧
      execAll (List.replicate is.length .readBit) t = some t' ∧ s'.SameWire t' := by
  induction is generalizing r s t with
  | nil => exact ⟨r, s, t, fun _ => rfl, rfl, h⟩
  | cons i is ih =>
    obtain ⟨m₁, hnote⟩ := bitIx_eq i s
    have hnoted : (bus s [] s.environment m₁).SameWire t :=
      ⟨h.cfg, h.mode, h.trace.trans (List.append_nil _).symm, h.earlier, h.environment, h.world⟩
    obtain ⟨m₂, hread⟩ := readBitBody_eq (bus s [] s.environment m₁)
    obtain ⟨b, s', t', hrun, hall, hsame⟩ := ih (setBit r i t.readAnswer.1)
      (hnoted.bus_finished [.read t.readAnswer.1] t.readAnswer.2 m₂ { Res.empty with bit := some t.readAnswer.1 })
    refine ⟨b, s', t', fun next => ?_, ?_, hsame⟩
    · rw [← State.readAnswer, ← hnoted.readAnswer] at hread
      exact (hnote _).trans ((hread _).trans (hrun next))
    · exact (execAll_cons (exec_readBit t) _).trans hall

/-- READ_BYTE leaves the trace of eight READ_BIT, as every slot of it samples what the READ_BIT in its place does. -/
theorem sameTrace_readByte : SameTrace [.readByte] (List.replicate 8 .readBit) := by
  intro s
  have haccept : (accept .readByte s).SameWire s := ⟨rfl, rfl, rfl, rfl, rfl, rfl⟩
  obtain ⟨b, s', t, hrun, hall, hsame⟩ := readBits_sameWire (List.range 8) 0 haccept
  have hexec : exec .readByte s = .next (complete { Res.empty with byte := some b } s') :=
    congrArg Host.Outcome.next (hrun _)
  exact ⟨_, t, execAll_cons hexec [], hall, hsame.trace.symm⟩

/-- Settles O23: the slots of both sides are equal, and READ_BYTE's are followed one by one. -/
theorem traceEquivalences : Obligations.TraceEquivalences := by
  refine ⟨fun rom => ?_, ?_, fun b => ?_, sameTrace_readByte⟩
  · exact sameTrace_of_issues (.cons (issues_select rom) .nil)
      (.cons (issues_writeByte 0x55) (.cons (issues_writeBytes _) .nil)) rfl
  · exact sameTrace_of_issues (.cons issues_skipRom .nil) (.cons (issues_writeByte 0xCC) .nil) rfl
  · exact sameTrace_of_issues (slots' := (bitsLsbFirst b).map fun v => [.write v]) (.cons (issues_writeByte b) .nil)
      (List.forall₂_map_left_iff.mpr (List.forall₂_map_right_iff.mpr (List.forall₂_same.mpr fun v _ => issues_writeBit v))) rfl

end Sys2Proof.Machine

/-! ## The transport commands (40_transport.md)

Each command's next state is `finished` with its slots: the bodies' lemmas say so for the slots, and what is left is that bytes and their bits in wire order are two
forms of the same data (20_memory.md R54, R55), and what a slot costs in requested delay. -/

namespace Sys2Proof.Machine

/-! ### Bytes and their bits (20_memory.md R54, R55) -/

theorem getLsbD_setBit {w : Nat} (v : BitVec w) (i k : Nat) (l : Bit) (hk : k < w) :
    (setBit v i l).getLsbD k = if k = i then l else v.getLsbD k := by
  have hbit : (1#w <<< i).getLsbD k = decide (k = i) := by
    rw [← BitVec.twoPow_eq, BitVec.getLsbD_twoPow]
    by_cases h : k = i
    · simp [h, show i < w by omega]
    · simp [h, Ne.symm h]
  cases l with
  | false =>
    rw [setBit, if_neg Bool.false_ne_true, BitVec.getLsbD_and, BitVec.getLsbD_not, hbit]
    by_cases h : k = i <;> simp [h, hk]
  | true =>
    rw [setBit, if_pos rfl, BitVec.getLsbD_or, hbit]
    by_cases h : k = i <;> simp [h]

/-- Bits put one after the other, from index `n` on, stand at their indices. -/
theorem getLsbD_foldl_setBit (bits : List Bit) (n : Nat) (r : Byte) {k : Nat} (hk : k < 8) :
    ((bits.zipIdx n).foldl (fun acc p => setBit acc p.2 p.1) r).getLsbD k =
      if n ≤ k then bits.getD (k - n) (r.getLsbD k) else r.getLsbD k := by
  induction bits generalizing n r with
  | nil => simp
  | cons l bits ih =>
    rw [List.zipIdx_cons, List.foldl_cons, ih, getLsbD_setBit r n k l hk]
    rcases lt_trichotomy k n with h | rfl | h
    · simp [show ¬ n + 1 ≤ k by omega, show ¬ n ≤ k by omega, h.ne]
    · simp
    · rw [if_pos (Nat.succ_le_of_lt h), if_pos h.le, if_neg h.ne', show k - n = k - (n + 1) + 1 by omega, List.getD_cons_succ]

@[simp] theorem length_bitsLsbFirst (b : Byte) : (bitsLsbFirst b).length = 8 := rfl

/-- The byte of eight bits has them as its bits in wire order. -/
theorem bitsLsbFirst_byteOfBits {bits : List Bit} (h : bits.length = 8) : bitsLsbFirst (byteOfBits bits) = bits := by
  refine List.ext_getElem h.symm fun k hk hk' => ?_
  have hbyte : (byteOfBits bits).getLsbD k = _ := getLsbD_foldl_setBit bits 0 0 hk
  simp [bitsLsbFirst, hbyte, hk']

theorem bitsLsbFirst_injective : Function.Injective bitsLsbFirst := fun _ _ h =>
  BitVec.eq_of_getLsbD_eq fun i hi => List.map_inj_left.mp h i (List.mem_range.mpr hi)

theorem byteOfBits_bitsLsbFirst (b : Byte) : byteOfBits (bitsLsbFirst b) = b :=
  bitsLsbFirst_injective (bitsLsbFirst_byteOfBits rfl)

theorem length_flatMap_bitsLsbFirst (d : List Byte) : (d.flatMap bitsLsbFirst).length = 8 * d.length := by
  simp [List.length_flatMap, mul_comm]

theorem length_bytesOfBits (n : Nat) (bits : List Bit) : (bytesOfBits n bits).length = n := by
  induction n generalizing bits with
  | zero => rfl
  | succ n ih => rw [bytesOfBits, List.length_cons, ih]

theorem flatMap_bytesOfBits {n : Nat} {bits : List Bit} (h : bits.length = 8 * n) :
    (bytesOfBits n bits).flatMap bitsLsbFirst = bits := by
  induction n generalizing bits with
  | zero => exact (List.length_eq_zero_iff.mp h).symm
  | succ n ih =>
    rw [bytesOfBits, List.flatMap_cons, bitsLsbFirst_byteOfBits (by rw [List.length_take]; omega),
      ih (by rw [List.length_drop]; omega), List.take_append_drop]

theorem bytesOfBits_flatMap (d : List Byte) : bytesOfBits d.length (d.flatMap bitsLsbFirst) = d := by
  induction d with
  | nil => rfl
  | cons b d ih =>
    rw [List.flatMap_cons, List.length_cons, bytesOfBits, List.take_left' (length_bitsLsbFirst b),
      List.drop_left' (length_bitsLsbFirst b), byteOfBits_bitsLsbFirst, ih]

/-! ### The next state of each command -/

/-- WRITE_BIT is one write slot (40_transport.md R111). -/
theorem exec_writeBit (v : Bit) (s : State) :
    exec (.writeBit v) s = .next (finished s [.write v] Res.empty (s.environment.afterWrite v)) :=
  let ⟨_, h⟩ := writeBitBody_eq v (accept (.writeBit v) s)
  runCommand_bus (h _)

/-- WRITE_BYTE is the byte's write slots (40_transport.md R113). -/
theorem exec_writeByte (b : Byte) (s : State) :
    exec (.writeByte b) s = .next (finished s (byteSlots b) Res.empty (s.environment.afterWrites (bitsLsbFirst b))) :=
  let ⟨_, h⟩ := writeByteBody_eq b (accept (.writeByte b) s)
  runCommand_bus (h _)

/-- WRITE_BYTES is the bytes' write slots (40_transport.md R115). -/
theorem exec_writeBytes (data : List Byte) (s : State) :
    exec (.writeBytes data) s =
      .next (finished s (bytesSlots data) Res.empty (s.environment.afterWrites (data.flatMap bitsLsbFirst))) :=
  let ⟨_, h⟩ := writeBytesBody_eq data (accept (.writeBytes data) s)
  runCommand_bus (h _)

/-- READ_BYTE under explicit draws reads the byte they spell (40_transport.md R114). -/
theorem exec_readByte_draws {s : State} {bits rest : List Bit} (hs : s.environment = .draws (bits ++ rest))
    (hlen : bits.length = 8) :
    exec .readByte s =
      .next (finished s (bits.map .read) { Res.empty with byte := some (byteOfBits bits) } (.draws rest)) :=
  let ⟨_, h⟩ := readByteBody_draws bits rest (accept .readByte s) hs hlen
  runCommand_bus (h _)

/-- READ_BYTES under explicit draws reads the bytes they spell (40_transport.md R116). -/
theorem exec_readBytes_draws {s : State} {n : U16} {bits rest : List Bit} (hs : s.environment = .draws (bits ++ rest))
    (hlen : bits.length = 8 * n.toNat) :
    exec (.readBytes n) s =
      .next (finished s (bits.map .read) { Res.empty with bytes := some (bytesOfBits n.toNat bits) } (.draws rest)) :=
  let ⟨_, h⟩ := readBytesFrom_draws 0 n.toNat bits rest (accept (.readBytes n) s) hs hlen
  runCommand_bus (h _)

/-- The events of a write slot, the bit only in its two delays (40_transport.md R111). -/
theorem slotEvents_write (c : Config) (v : Bit) :
    (Slot.write v).events c =
      [.csEnter, .wr c.pin false, .delay (if v then c.t.tW1Low else c.t.tW0Low), .wr c.pin true, .csExit,
        .delay (if v then c.t.tW1Rel else c.t.tW0Rel)] := by
  cases v <;> rfl

/-- The trace of a command of one slot: EnsureOD's events, then the slot's. -/
theorem finished_trace_singleton (s : State) (sl : Slot) (res : Res) (env : Environment) :
    (finished s [sl] res env).trace = s.trace ++ ensureEvents s.cfg s.mode ++ sl.events s.cfg := by
  show s.trace ++ (ensureEvents s.cfg s.mode ++ (sl.events s.cfg ++ [])) = _
  rw [List.append_nil, List.append_assoc]

/-- Settles O16: WRITE_BIT is one write slot (`exec_writeBit`). -/
theorem writeBitIssuesOneWriteSlot : Obligations.WriteBitIssuesOneWriteSlot := by
  intro v s
  rw [exec_writeBit, ← slotEvents_write s.cfg v]
  exact congrArg Host.Outcome.next
    (State.ext rfl rfl rfl rfl rfl rfl rfl (finished_trace_singleton ..) rfl rfl rfl rfl rfl)

/-- Settles O17: READ_BIT is one read slot of the level answered (`exec_readBit`). -/
theorem readBitIssuesOneReadSlot : Obligations.ReadBitIssuesOneReadSlot := by
  intro s l env h
  rw [exec_readBit, State.readAnswer, h]
  exact congrArg Host.Outcome.next
    (State.ext rfl rfl rfl rfl rfl rfl rfl (finished_trace_singleton ..) rfl rfl rfl rfl rfl)

/-- Settles O18: the eight write slots are those of the byte's bits from bit 0 up. -/
theorem writeByteSendsBitZeroFirst : Obligations.WriteByteSendsBitZeroFirst := fun b s => exec_writeByte b s

/-- Settles O19: the byte of the eight levels sampled has them as its bits, from bit 0 up. -/
theorem readByteStoresFirstSampleInBitZero : Obligations.ReadByteStoresFirstSampleInBitZero := by
  refine ⟨fun s => ?_, fun s b rest hs => ?_⟩
  · obtain ⟨_, _, env, ⟨bits, hlen, rfl, rfl⟩, hexec⟩ := exec_finished .readByte s nofun nofun
    refine ⟨byteOfBits bits, env, ?_⟩
    rw [hexec]
    nth_rw 1 [← bitsLsbFirst_byteOfBits hlen]
    rfl
  · rw [exec_readByte_draws hs rfl, byteOfBits_bitsLsbFirst]

/-- Settles O20: with no byte there is no slot, and `finished` leaves the trace and MODE. -/
theorem writeBytesSendsInOrder : Obligations.WriteBytesSendsInOrder := by
  refine ⟨exec_writeBytes, fun s t h => ?_⟩
  obtain rfl := Host.Outcome.next.inj ((exec_writeBytes [] s).symm.trans h)
  exact ⟨List.append_nil _, rfl⟩

/-- Settles O21: the bytes of the levels sampled have them as their bits, in order. -/
theorem readBytesReadsInOrder : Obligations.ReadBytesReadsInOrder := by
  refine ⟨fun n s => ?_, fun n s d rest hd hs => ?_⟩
  · obtain ⟨_, _, env, ⟨bits, hlen, rfl, rfl⟩, hexec⟩ := exec_finished (.readBytes n) s nofun nofun
    exact ⟨bytesOfBits n.toNat bits, env, length_bytesOfBits _ _, by rw [flatMap_bytesOfBits hlen, hexec]⟩
  · rw [exec_readBytes_draws hs (by rw [length_flatMap_bitsLsbFirst, hd]), ← hd, bytesOfBits_flatMap]

/-! ### Requested delays (40_transport.md R117) -/

@[simp] theorem totalDelay_append (a b : List WireEvent) : totalDelay (a ++ b) = totalDelay a + totalDelay b := by
  simp [totalDelay]

/-- EnsureOD requests no delay (40_transport.md R110). -/
@[simp] theorem totalDelay_ensureEvents (c : Config) (m : Mode) : totalDelay (ensureEvents c m) = 0 := by
  cases m <;> rfl

theorem totalDelay_slotEvents (c : Config) (slots : List Slot) :
    totalDelay (slotEvents c slots) = (slots.map fun sl => totalDelay (sl.events c)).sum := by
  induction slots with
  | nil => rfl
  | cons sl slots ih => rw [slotEvents, List.flatMap_cons, totalDelay_append, ← slotEvents, ih, List.map_cons, List.sum_cons]

/-- A command requests the delays of its slots. -/
theorem totalDelay_busEvents (c : Config) (m : Mode) (slots : List Slot) :
    totalDelay (busEvents c m slots) = (slots.map fun sl => totalDelay (sl.events c)).sum := by
  cases slots with
  | nil => rfl
  | cons sl slots => rw [busEvents_cons, totalDelay_append, totalDelay_ensureEvents, zero_add, totalDelay_slotEvents]

/-- Slots that each request the same delay. -/
theorem totalDelay_busEvents_map {c : Config} {f : Bit → Slot} {n : Nat} (h : ∀ v, totalDelay ((f v).events c) = n) (m : Mode)
    (bits : List Bit) : totalDelay (busEvents c m (bits.map f)) = bits.length * n := by
  simp [totalDelay_busEvents, Function.comp_def, h]

/-- A write slot takes `tWSlot`, whatever its bit (00_scope.md R7 (a)). -/
theorem totalDelay_write {c : Config} (h : c.t.Lawful) (v : Bit) : totalDelay ((Slot.write v).events c) = c.t.tWSlot := by
  obtain ⟨hslot, -⟩ := h
  rw [slotEvents_write]
  cases v <;> simp [totalDelay, requestedBy, Tcfg.tWSlot, hslot]

/-- A read slot takes `tRSlot`, as its points are in order (00_scope.md R7 (b)). -/
theorem totalDelay_read {c : Config} (h : c.t.Lawful) (l : Bit) : totalDelay ((Slot.read l).events c) = c.t.tRSlot := by
  obtain ⟨-, ⟨-, hsample, hslot⟩, -⟩ := h
  simp only [totalDelay, Slot.events, requestedBy, List.map_cons, List.map_nil, List.sum_cons, List.sum_nil]
  omega

/-- It is enough that the slots with which the command can end request the delay. -/
theorem requestsDelay_of_ends {i : Instr} {total : Tcfg → Nat} (hp : i ≠ .power) (hd : i ≠ .depower)
    (h : ∀ (c : Config) (m : Mode) slots res, c.t.Lawful → CommandEnds c.t slots res i →
      totalDelay (busEvents c m slots) = total c.t) : RequestsDelay i total := by
  intro s t hlaw hexec
  rcases exec_cases hexec with ⟨slots, res, env, hends, rfl⟩ | ⟨hi, -⟩ | ⟨hi, -⟩
  · exact ⟨busEvents s.cfg s.mode slots, rfl, h s.cfg s.mode slots res hlaw hends⟩
  · exact absurd hi hp
  · exact absurd hi hd

/-- The write slots of a byte sequence are those of its bits. -/
theorem bytesSlots_eq_map (data : List Byte) : bytesSlots data = (data.flatMap bitsLsbFirst).map .write :=
  List.map_flatMap.symm

/-- Settles O22: a command's slots are as many as its opcode and `LEN` say, and each takes `tWSlot` or `tRSlot`. -/
theorem transportDelaysAreFixed : Obligations.TransportDelaysAreFixed := by
  refine ⟨fun v => ?_, ?_, fun b => ?_, ?_, fun data => ?_, fun n => ?_⟩ <;>
    refine requestsDelay_of_ends nofun nofun fun c m slots res hlaw hends => ?_
  · obtain ⟨rfl, -⟩ := hends
    exact (totalDelay_busEvents_map (totalDelay_write hlaw) m [v]).trans (one_mul _)
  · obtain ⟨l, rfl, -⟩ := hends
    exact (totalDelay_busEvents_map (totalDelay_read hlaw) m [l]).trans (one_mul _)
  · obtain ⟨rfl, -⟩ := hends
    exact totalDelay_busEvents_map (totalDelay_write hlaw) m (bitsLsbFirst b)
  · obtain ⟨bits, hlen, rfl, -⟩ := hends
    rw [totalDelay_busEvents_map (totalDelay_read hlaw), hlen]
  · obtain ⟨rfl, -⟩ := hends
    rw [bytesSlots_eq_map, totalDelay_busEvents_map (totalDelay_write hlaw), length_flatMap_bitsLsbFirst]
  · obtain ⟨bits, hlen, rfl, -⟩ := hends
    rw [totalDelay_busEvents_map (totalDelay_read hlaw), hlen]

end Sys2Proof.Machine

/-! ## Bus control (41_bus_control.md)

Each command's next state is `finished` with its slots, POWER's and DEPOWER's is `repowered`. A bus reset is its idle-wait (EnsureOD's events, the release of the line
and the polls) and then, where the line went high, the pulse: the wait neither pulls the line low nor opens a window, so both belong to the pulse. -/

namespace Sys2Proof.Machine

/-! ### The two ROM commands (41_bus_control.md R131, R132) -/

/-- SELECT is the write slots of Match ROM and of the address bytes (41_bus_control.md R131). -/
theorem exec_select (rom : Addr) (s : State) :
    exec (.select rom) s = .next (finished s (bytesSlots (0x55 :: bytesLe rom)) Res.empty
      (s.environment.afterWrites ((0x55 :: bytesLe rom : List Byte).flatMap bitsLsbFirst))) :=
  let ⟨_, h⟩ := selectProgram_eq rom (accept (.select rom) s)
  runCommand_bus h

/-- SKIP_ROM is the write slots of its byte (41_bus_control.md R132). -/
theorem exec_skipRom (s : State) :
    exec .skipRom s = .next (finished s (byteSlots 0xCC) Res.empty (s.environment.afterWrites (bitsLsbFirst 0xCC))) :=
  let ⟨_, h⟩ := writeByteBody_eq skipRomByte (accept .skipRom s)
  runCommand_bus (h _)

/-- The bytes of an address by their bit fields, family code first (20_memory.md R55). -/
theorem bytesLe_eq (rom : Addr) :
    bytesLe rom = [rom.extractLsb' 0 8, rom.extractLsb' 8 8, rom.extractLsb' 16 8, rom.extractLsb' 24 8,
      rom.extractLsb' 32 8, rom.extractLsb' 40 8, rom.extractLsb' 48 8, rom.extractLsb' 56 8] := rfl

/-- Settles O26: the slots of SELECT (`exec_select`), its address bytes written out. -/
theorem selectSendsMatchRomAndTheAddress : Obligations.SelectSendsMatchRomAndTheAddress := by
  intro rom s
  rw [exec_select, ← bytesLe_eq]

/-- Settles O27: the slots of SKIP_ROM (`exec_skipRom`), its byte written out from bit 0 up. -/
theorem skipRomSendsItsByte : Obligations.SkipRomSendsItsByte := by
  intro s
  have hslots : byteSlots 0xCC = [.write false, .write false, .write true, .write true, .write false, .write false,
      .write true, .write true] := by decide
  rw [exec_skipRom, hslots]

/-! ### Power and depower (41_bus_control.md R133, R134) -/

/-- Settles O28: after POWER the pin is driven, so the write slot begins with EnsureOD's two events. -/
theorem powerAndDepowerSetTheMode : Obligations.PowerAndDepowerSetTheMode := by
  refine fun s => ⟨exec_power s, exec_depower s, fun v => ?_⟩
  refine ⟨_, (execAll_cons (exec_power s) _).trans (execAll_cons (exec_writeBit v _) _), rfl, ?_⟩
  have hensure : ensureEvents s.cfg .driven = [.wr s.cfg.pin true, .cfg s.cfg.pin .openDrain] := rfl
  rw [finished_trace_singleton]
  simp [repowered, hensure, slotEvents]

/-! ### What RESET does (41_bus_control.md R130, R135) -/

/-- RESET under explicit draws that stay low (41_bus_control.md R130). -/
theorem exec_reset_draws_low {s : State} {rest : List Bit}
    (hs : s.environment = .draws (List.replicate s.cfg.t.nIdlePolls false ++ rest)) :
    exec .reset s = .next
      (finished s [.reset s.cfg.t.nIdlePolls none] { Res.empty with present := some false } (.draws rest)) :=
  let ⟨_, h⟩ := resetBody_draws_low rest (accept .reset s) hs
  runCommand_bus (h _)

/-- RESET under explicit draws that go high after `lows` zeros and then give the presence sample (41_bus_control.md R130). -/
theorem exec_reset_draws_idle {s : State} {lows : Nat} {p : Bit} {rest : List Bit} (hlt : lows < s.cfg.t.nIdlePolls)
    (hs : s.environment = .draws (List.replicate lows false ++ true :: p :: rest)) :
    exec .reset s = .next
      (finished s [.reset lows (some p)] { Res.empty with present := some (!p) } (.draws rest)) :=
  let ⟨_, h⟩ := resetBody_draws_idle lows p rest (accept .reset s) hlt hs
  runCommand_bus (h _)

@[simp] theorem totalDelay_pollEvents (c : Config) (l : Bit) : totalDelay (pollEvents c l) = c.t.tIdlePoll := rfl

@[simp] theorem totalDelay_lowPolls (c : Config) (n : Nat) : totalDelay (lowPolls c n) = n * c.t.tIdlePoll := by
  induction n with
  | zero => exact (zero_mul _).symm
  | succ n ih => rw [lowPolls_succ, totalDelay_append, totalDelay_pollEvents, ih, Nat.succ_mul, Nat.add_comm]

@[simp] theorem totalDelay_pulseEvents (c : Config) (p : Bit) :
    totalDelay (pulseEvents c p) = c.t.tRstLow + c.t.tPresence + c.t.tRecovery := by
  simp [pulseEvents, totalDelay, requestedBy, Nat.add_assoc]

/-- What a bus reset requests: its polls, and the pulse's three delays where there is a pulse (41_bus_control.md R135). -/
theorem totalDelay_reset (c : Config) (lows : Nat) (presence : Option Bit) :
    totalDelay ((Slot.reset lows presence).events c) =
      if presence = none then lows * c.t.tIdlePoll
      else (lows + 1) * c.t.tIdlePoll + c.t.tRstLow + c.t.tPresence + c.t.tRecovery := by
  have hrelease : totalDelay [.wr c.pin true] = 0 := rfl
  rw [slotEvents_reset, totalDelay_append, totalDelay_append, totalDelay_lowPolls, hrelease, zero_add]
  cases presence with
  | none => rfl
  | some p => simp [Nat.succ_mul, Nat.add_assoc]

/-- Settles O24: the slot with which RESET ends has the shape, and the delay follows from it. -/
theorem resetHasThreeOutcomes : Obligations.ResetHasThreeOutcomes := by
  refine ⟨fun s => ?_, fun s rest => exec_reset_draws_low, fun s lows p rest => exec_reset_draws_idle⟩
  obtain ⟨_, _, env, ⟨lows, presence, hshape, rfl, rfl⟩, hexec⟩ := exec_finished .reset s nofun nofun
  refine ⟨lows, presence, env, hshape, hexec, ?_⟩
  rw [totalDelay_slotEvents, List.map_singleton, List.sum_singleton, totalDelay_reset]
  rcases hshape with ⟨rfl, rfl⟩ | ⟨hsome, -⟩
  · rfl
  · have hpulse : presence ≠ none := Option.isSome_iff_ne_none.mp hsome
    rw [if_neg hpulse, if_neg hpulse]

/-! ### Where RESET's pulse stands (41_bus_control.md R136) -/

/-- The events of a RESET from MODE `m` until it has polled `lows` zeros. -/
def idleWait (c : Config) (m : Mode) (lows : Nat) : List WireEvent :=
  ensureEvents c m ++ [.wr c.pin true] ++ lowPolls c lows

/-- A RESET that never idled issues its wait alone. -/
theorem busEvents_reset_none (c : Config) (m : Mode) (lows : Nat) :
    busEvents c m [.reset lows none] = idleWait c m lows := by
  simp [busEvents_cons, slotEvents, slotEvents_reset, idleWait]

/-- Where the line went high, the last poll and the pulse follow the wait. -/
theorem busEvents_reset_some (c : Config) (m : Mode) (lows : Nat) (p : Bit) :
    busEvents c m [.reset lows (some p)] = idleWait c m lows ++ pollEvents c true ++ pulseEvents c p := by
  simp [busEvents_cons, slotEvents, slotEvents_reset, idleWait]

/-- The event neither pulls the pin low nor opens a window. -/
def Waits (c : Config) (e : WireEvent) : Prop := e ≠ .wr c.pin false ∧ e ≠ .csEnter

theorem waits_pollEvents (c : Config) (l : Bit) : ∀ e ∈ pollEvents c l, Waits c e := by
  simp [pollEvents, Waits]

theorem waits_idleWait (c : Config) (m : Mode) (lows : Nat) : ∀ e ∈ idleWait c m lows, Waits c e := by
  have hensure : ∀ e ∈ ensureEvents c m, Waits c e := by cases m <;> simp [ensureEvents, Waits]
  have hpolls : ∀ e ∈ lowPolls c lows, Waits c e := by
    intro e he
    obtain ⟨poll, hpoll, he⟩ := List.mem_flatten.mp he
    obtain rfl := List.eq_of_mem_replicate hpoll
    exact waits_pollEvents c false e he
  simp only [idleWait, List.forall_mem_append]
  exact ⟨⟨hensure, by simp [Waits]⟩, hpolls⟩

/-- Settles O25: a RESET with a presence sample ends with the pulse, before which nothing opens a window; one without is its wait alone. -/
theorem resetPulseIsFollowedByRecovery : Obligations.ResetPulseIsFollowedByRecovery := by
  intro s t evs hexec htrace
  obtain ⟨_, _, env, ⟨lows, presence, -, rfl, rfl⟩, hfin⟩ := exec_finished .reset s nofun nofun
  obtain rfl := Host.Outcome.next.inj (hfin.symm.trans hexec)
  obtain rfl : busEvents s.cfg s.mode [.reset lows presence] = evs := List.append_cancel_left htrace
  cases presence with
  | none =>
    have hwait := waits_idleWait s.cfg s.mode lows
    rw [busEvents_reset_none]
    exact ⟨fun hlow => absurd rfl (hwait _ hlow).1, fun _ => ⟨fun hwindow => (hwait _ hwindow).2 rfl, rfl⟩⟩
  | some p =>
    have hwait : ∀ e ∈ idleWait s.cfg s.mode lows ++ pollEvents s.cfg true, Waits s.cfg e :=
      List.forall_mem_append.mpr ⟨waits_idleWait s.cfg s.mode lows, waits_pollEvents s.cfg true⟩
    have hpulse : .wr s.cfg.pin false ∈ pulseEvents s.cfg p := List.mem_cons_self
    rw [busEvents_reset_some]
    refine ⟨fun _ => ⟨_, p, fun hwindow => (hwait _ hwindow).2 rfl, ?_, rfl⟩,
      fun hlow => absurd (List.mem_append_right _ hpulse) hlow⟩
    cases p <;> rfl

end Sys2Proof.Machine

/-! ## The device search engine (42_search.md)

A SEARCH is one of three paths (`execSearch_ends`), and what its walk does is a function of its sample pairs (`walkOver`, `walkSlots`). So the statements are about
lists of pairs: which bits and which last zero they give, and how many calls their slots are. -/

namespace Sys2Proof.Machine

/-! ### Search States without a call (42_search.md R150, R151, R153) -/

/-- The packed form by its byte 8, the tag (index and flag), and its ROM (10_state.md R32). -/
theorem packSearch_eq_append {rom : Addr} {ld : Nat} {ldf : Bit} {tag : Byte}
    (h : BitVec.ofBool ldf ++ BitVec.ofNat 7 ld = tag) :
    packSearch { rom := rom, ld := ld, ldf := ldf } = (tag ++ rom : BitVec 72) := by
  rw [← h]; rfl

/-- The seed is the family code in byte 0, with index 64 and the flag clear (42_search.md R151). -/
theorem packSearch_seeded (fam : Byte) : packSearch (SearchState.seeded fam) = (0x40#8 ++ 0#56 ++ fam : BitVec 72) := by
  have hrom : addrOf [fam, 0, 0, 0, 0, 0, 0, 0] = (0#56 ++ fam : BitVec 64) := by
    simp [addrOf, BitVec.setWidth_eq_append]
  have hassoc : (0x40#8 ++ (0#56 ++ fam) : BitVec 72) = 0x40#8 ++ 0#56 ++ fam := BitVec.append_assoc'
  rw [SearchState.seeded, packSearch_eq_append (tag := 0x40#8) rfl, hrom, hassoc]

/-- Settles O29: neither micro-program has a call. -/
theorem freshSearchStates : Obligations.FreshSearchStates := by
  refine fun s => ⟨runCommand_done _ _ s, fun fam => ?_⟩
  rw [← packSearch_seeded]
  exact runCommand_done _ _ s

/-- SEARCH of an exhausted Search State gives it back (42_search.md R153). -/
theorem exec_search_exhausted {p : PackedSearch} (s : State) (hp : (unpackSearch p).ldf = true) :
    exec (.search p) s = .next (finished s [] (noDeviceResult p) s.environment) := by
  have hprogram : searchProgram s.cfg.t s.mode p = .done (noDeviceResult p) := if_pos hp
  show runCommand _ (searchProgram s.cfg.t s.mode p) s = _
  rw [hprogram, runCommand_done]

/-- Settles O30: bit 71 is the flag. -/
theorem exhaustedSearchTouchesNothing : Obligations.ExhaustedSearchTouchesNothing :=
  fun _ s hp => exec_search_exhausted s hp

/-- A SEARCH that is not exhausted begins with a bus reset (42_search.md R152). -/
theorem exec_search_of_ldf {p : PackedSearch} (s : State) (hp : (unpackSearch p).ldf = false) :
    exec (.search p) s = .next (runToEnd
      (resetBody s.cfg.t s.mode fun present =>
        if present then searchWalk s.cfg.t (unpackSearch p) else .done noPresenceResult) (accept (.search p) s)) := by
  have hclear : ¬(unpackSearch p).ldf = true := by simp [hp]
  show Host.Outcome.next (runToEnd (searchProgram s.cfg.t s.mode p) _) = _
  rw [searchProgram, if_neg hclear]
  rfl

/-! ### The hidden state decides nothing (10_state.md R36) -/

/-- A micro-program ends in the same state whatever the hidden state it began with: no call or sample reads it, and the end discards it. -/
theorem runToEnd_micro (p : Program) (s : State) (m : Option Micro) : runToEnd p { s with micro := m } = runToEnd p s := by
  induction p generalizing s m with
  | done r => rfl
  | call c next ih =>
    have hcall : c.perform { s with micro := m } = { c.perform s with micro := m.map Micro.advance } := by cases c <;> rfl
    rw [runToEnd_call, hcall, ih, runToEnd_call]
  | sample k next ih => exact ih (sample k s).1 (sample k s).2 _
  | note n next ih =>
    have hnote : ∃ m', n.apply { s with micro := m } = { n.apply s with micro := m' } := by cases n <;> exact ⟨_, rfl⟩
    obtain ⟨m', hnote⟩ := hnote
    rw [runToEnd_note, hnote, ih, runToEnd_note]

/-- Which command is live decides nothing. -/
theorem runToEnd_accept (p : Program) (i j : Instr) (s : State) : runToEnd p (accept i s) = runToEnd p (accept j s) :=
  runToEnd_micro p (accept j s) _

/-- The same slots lead to the same end. -/
theorem runToEnd_bus_micro (p : Program) (s : State) (slots : List Slot) (env : Environment) (m m' : Option Micro) :
    runToEnd p (bus s slots env m) = runToEnd p (bus s slots env m') :=
  runToEnd_micro p (bus s slots env m') m

/-! ### No presence (42_search.md R154) -/

/-- Settles O31: RESET and SEARCH run the same bus reset, and without presence both end with it. -/
theorem searchWithoutPresenceIsTheResetAlone : Obligations.SearchWithoutPresenceIsTheResetAlone := by
  intro p s t hp hreset habsent
  obtain ⟨lows, presence, env, m, -, h⟩ := resetBody_eq (accept (.search p) s)
  have ht : runToEnd (resetProgram s.cfg.t s.mode) (accept .reset s) = t := Host.Outcome.next.inj hreset
  rw [runToEnd_accept _ _ (.search p), resetProgram] at ht
  obtain rfl := (h _).symm.trans ht
  have hnone : (presence == some false) = false := Option.some.inj habsent
  rw [exec_search_of_ldf s hp]
  refine congrArg Host.Outcome.next ((h _).trans ?_)
  rw [hnone]
  rfl

/-! ### Every environment, and explicit draws (42_search.md R152) -/

/-- Settles O32: the paths of SEARCH (`exec_finished`) but the exhausted one. -/
theorem searchIsTheWalkOfItsSamples : Obligations.SearchIsTheWalkOfItsSamples := by
  intro p s hp
  obtain ⟨_, _, env, hends, hexec⟩ := exec_finished (.search p) s nofun nofun
  rcases hends with ⟨hset, -⟩ | ⟨-, lows, presence, hshape, ⟨habsent, rfl, rfl⟩ | ⟨hpresent, pairs, hwalk, rfl, rfl⟩⟩
  · exact absurd (hp.symm.trans hset) nofun
  · exact ⟨lows, presence, env, hshape, .inl ⟨habsent, hexec⟩⟩
  · exact ⟨lows, presence, env, hshape, .inr ⟨hpresent, pairs, hwalk, hexec⟩⟩

/-- A SEARCH whose bus reset sees presence and whose walk takes the pairs given (42_search.md R152 steps 2 to 6). -/
theorem exec_search_of_walk {p : PackedSearch} {s : State} {lows : Nat} {pairs : List (Bit × Bit)} {e₁ e₂ : Environment}
    {m₁ : Option Micro} (hp : (unpackSearch p).ldf = false)
    (hreset : ∀ next, runToEnd (resetBody s.cfg.t s.mode next) (accept (.search p) s) =
      runToEnd (next true) (bus (accept (.search p) s) [.reset lows (some false)] e₁ m₁))
    (hwalk : ∀ u : State, u.cfg = s.cfg → u.mode = .openDrain → u.environment = e₁.afterWrites (bitsLsbFirst 0xF0) →
      ∃ m, ∀ next, runToEnd (walkLoop s.cfg.t 64 (Walk.start (unpackSearch p)) next) u =
        runToEnd (next (walkOver (Walk.start (unpackSearch p)) pairs))
          (bus u (walkSlots (Walk.start (unpackSearch p)) pairs) e₂ m)) :
    exec (.search p) s = .next (finished s (walkSearchSlots p lows pairs)
      (walkResult (walkOver (Walk.start (unpackSearch p)) pairs)) e₂) := by
  obtain ⟨m₂, hbyte⟩ := writeByteBody_eq searchRomByte (bus (accept (.search p) s) [.reset lows (some false)] e₁ m₁)
  rw [bus_bus, bus_environment] at hbyte
  obtain ⟨m, hloop⟩ := hwalk (bus (accept (.search p) s) ([.reset lows (some false)] ++ byteSlots searchRomByte)
    (e₁.afterWrites (bitsLsbFirst searchRomByte)) m₂) rfl rfl rfl
  rw [bus_bus] at hloop
  rw [exec_search_of_ldf s hp]
  exact congrArg Host.Outcome.next ((hreset _).trans ((hbyte _).trans (hloop _)))

/-- Settles O33: the draws are used up in the order of the slots. -/
theorem searchFollowsExplicitDraws : Obligations.SearchFollowsExplicitDraws := by
  intro p s lows pairs rest hp hlt hwalk hs
  obtain ⟨m₁, hreset⟩ := resetBody_draws_idle lows false (walkSamples pairs ++ rest) (accept (.search p) s) hlt hs
  refine exec_search_of_walk hp hreset fun u hcfg hmode henv => ?_
  rw [afterWrites_draws] at henv
  rw [← hcfg]
  exact walkLoop_draws 64 _ u hmode rfl pairs rest hwalk henv

/-! ### The bits and the last zero of a walk (42_search.md R152, R155, R160) -/

/-- The pairs of a walk that goes on at its first pair. -/
theorem not_mem_abort_cons {id cmp : Bit} {pairs : List (Bit × Bit)} :
    (true, true) ∉ (id, cmp) :: pairs ↔ (id && cmp) = false ∧ (true, true) ∉ pairs := by
  cases id <;> cases cmp <;> simp

theorem walkOver_cons {id cmp : Bit} (h : (id && cmp) = false) (w : Walk) (pairs : List (Bit × Bit)) :
    walkOver w ((id, cmp) :: pairs) = walkOver (w.next id cmp) pairs := by
  rw [walkOver, h]; rfl

/-- A walk is aborted exactly by a pair of ones (42_search.md R156). -/
theorem walkOver_aborted_iff {w : Walk} {pairs : List (Bit × Bit)} :
    (walkOver w pairs).aborted = true ↔ w.aborted = true ∨ (true, true) ∈ pairs := by
  induction pairs generalizing w with
  | nil => simp [walkOver]
  | cons pair pairs ih =>
    obtain ⟨id, cmp⟩ := pair
    cases hab : id && cmp with
    | true =>
      obtain ⟨rfl, rfl⟩ : id = true ∧ cmp = true := by simpa using hab
      simp [walkOver]
    | false =>
      have hmem : (true, true) ∈ (id, cmp) :: pairs ↔ (true, true) ∈ pairs := by
        rw [← not_iff_not, not_mem_abort_cons]; simp [hab]
      rw [walkOver_cons hab, ih, hmem]; rfl

/-- Writing one position of a ROM buffer leaves the others. -/
theorem romBit_setRomBit {p q : Nat} (hp : 1 ≤ p) (hq : 1 ≤ q) (hq64 : q ≤ 64) (rom : Addr) (l : Bit) :
    romBit (setRomBit rom p l) q = if q = p then l else romBit rom q := by
  have hindex : q - 1 = p - 1 ↔ q = p := by omega
  rw [romBit, setRomBit, getLsbD_setBit _ _ _ _ (show q - 1 < 64 by omega)]
  simp only [hindex, romBit]

/-- The direction by the table of 42_search.md R160. -/
theorem directionOf_eq (ss : SearchState) (pos : Nat) (id cmp : Bit) :
    directionOf ss pos id cmp =
      if id ≠ cmp then id else if pos < ss.ld then romBit ss.rom pos else decide (pos = ss.ld) := by
  simp [directionOf, beq_eq_decide]

/-- A position changes no direction taken after it. -/
theorem directionOf_next {w : Walk} {q : Nat} (hpos : 1 ≤ w.pos) (hlt : w.pos < q) (hq : q ≤ 64) (a b id cmp : Bit) :
    directionOf (w.next a b).s q id cmp = directionOf w.s q id cmp := by
  have hbit : romBit (w.next a b).s.rom q = romBit w.s.rom q :=
    (romBit_setRomBit hpos (by omega) hq _ _).trans (if_neg hlt.ne')
  rw [directionOf, hbit]
  rfl

/-- A walk leaves the positions before its first. -/
theorem romBit_walkOver_of_lt {w : Walk} {q : Nat} (hq : 1 ≤ q) (hlt : q < w.pos) (hq64 : q ≤ 64)
    (pairs : List (Bit × Bit)) : romBit (walkOver w pairs).s.rom q = romBit w.s.rom q := by
  induction pairs generalizing w with
  | nil => rfl
  | cons pair pairs ih =>
    obtain ⟨id, cmp⟩ := pair
    cases hab : id && cmp with
    | true => rw [walkOver, hab]; rfl
    | false =>
      have hnext : q < (w.next id cmp).pos := Nat.lt_succ_of_lt hlt
      rw [walkOver_cons hab, ih hnext]
      exact (romBit_setRomBit (by omega) hq hq64 _ _).trans (if_neg hlt.ne)

/-- A walk records at its first position the direction taken there. -/
theorem romBit_walkOver_first {w : Walk} {id cmp : Bit} (hpos : 1 ≤ w.pos) (h64 : w.pos ≤ 64) (pairs : List (Bit × Bit)) :
    romBit (walkOver (w.next id cmp) pairs).s.rom w.pos = directionOf w.s w.pos id cmp := by
  rw [romBit_walkOver_of_lt hpos (Nat.lt_succ_self w.pos) h64]
  exact (romBit_setRomBit hpos hpos h64 _ _).trans (if_pos rfl)

/-- A walk that no pair aborts records at each position the direction that its pair gives. -/
theorem romBit_walkOver {w : Walk} {pairs : List (Bit × Bit)} {k : Nat} {id cmp : Bit} (hpos : 1 ≤ w.pos)
    (hk : w.pos + k ≤ 64) (hgo : (true, true) ∉ pairs) (hpair : pairs[k]? = some (id, cmp)) :
    romBit (walkOver w pairs).s.rom (w.pos + k) = directionOf w.s (w.pos + k) id cmp := by
  induction pairs generalizing w k with
  | nil => simp at hpair
  | cons pair pairs ih =>
    obtain ⟨a, b⟩ := pair
    obtain ⟨hab, hgo⟩ := not_mem_abort_cons.mp hgo
    rw [walkOver_cons hab]
    cases k with
    | zero =>
      obtain ⟨rfl, rfl⟩ : a = id ∧ b = cmp := by simpa using hpair
      exact romBit_walkOver_first hpos hk pairs
    | succ k =>
      have hshift : w.pos + (k + 1) = (w.next a b).pos + k := by
        show _ = w.pos + 1 + k
        omega
      rw [← directionOf_next hpos (show w.pos < w.pos + (k + 1) by omega) hk a b, hshift]
      exact ih (Nat.le_succ_of_le hpos) (hshift ▸ hk) hgo hpair

/-- The last zero of a walk is the one before, or a discrepancy of the walk that took 0. -/
theorem walkOver_lastZero {w : Walk} {pairs : List (Bit × Bit)} (hpos : 1 ≤ w.pos) (h64 : w.pos + pairs.length ≤ 65)
    (hgo : (true, true) ∉ pairs) :
    (walkOver w pairs).lastZero = w.lastZero ∨
      ∃ k, (walkOver w pairs).lastZero = w.pos + k ∧ pairs[k]? = some (false, false) ∧
        romBit (walkOver w pairs).s.rom (w.pos + k) = false := by
  induction pairs generalizing w with
  | nil => exact .inl rfl
  | cons pair pairs ih =>
    obtain ⟨id, cmp⟩ := pair
    obtain ⟨hab, hgo⟩ := not_mem_abort_cons.mp hgo
    rw [List.length_cons] at h64
    rw [walkOver_cons hab]
    have hnext : (w.next id cmp).pos = w.pos + 1 := rfl
    rcases ih (w := w.next id cmp) (by omega) (by omega) hgo with hlast | ⟨k, hlast, hpair, hbit⟩
    · rw [hlast]
      by_cases hzero : (id == cmp && !directionOf w.s w.pos id cmp) = true
      · refine .inr ⟨0, if_pos hzero, ?_, ?_⟩
        · revert hzero hab
          cases id <;> cases cmp <;> simp
        · rw [Nat.add_zero, romBit_walkOver_first hpos (by omega)]
          simpa using (Bool.and_eq_true_iff.mp hzero).2
      · exact .inl (if_neg hzero)
    · rw [hnext, Nat.add_right_comm, Nat.add_assoc] at hlast hbit
      exact .inr ⟨k + 1, hlast, hpair, hbit⟩

/-- Every discrepancy of a walk after its last zero took 1. -/
theorem romBit_walkOver_of_lastZero_lt {w : Walk} {pairs : List (Bit × Bit)} {k : Nat} (hpos : 1 ≤ w.pos)
    (h64 : w.pos + pairs.length ≤ 65) (hgo : (true, true) ∉ pairs) (hpair : pairs[k]? = some (false, false))
    (hlt : (walkOver w pairs).lastZero < w.pos + k) : romBit (walkOver w pairs).s.rom (w.pos + k) = true := by
  induction pairs generalizing w k with
  | nil => simp at hpair
  | cons pair pairs ih =>
    obtain ⟨id, cmp⟩ := pair
    obtain ⟨hab, hrest⟩ := not_mem_abort_cons.mp hgo
    rw [List.length_cons] at h64
    rw [walkOver_cons hab] at hlt ⊢
    have hnext : (w.next id cmp).pos = w.pos + 1 := rfl
    cases k with
    | zero =>
      obtain ⟨rfl, rfl⟩ : id = false ∧ cmp = false := by simpa using hpair
      rw [Nat.add_zero, romBit_walkOver_first hpos (by omega)]
      by_contra hdir
      have hlast : (w.next false false).lastZero = w.pos := if_pos (by simpa using hdir)
      rcases walkOver_lastZero (w := w.next false false) (pairs := pairs) (by omega) (by omega) hrest with h | ⟨k, h, -, -⟩ <;> omega
    | succ k =>
      have hshift : w.pos + (k + 1) = (w.next id cmp).pos + k := by omega
      rw [hshift] at hlt ⊢
      exact ih (by omega) (by omega) hrest hpair hlt

/-- Settles O34: the bits by `romBit_walkOver`, the last zero by the two lemmas about it. -/
theorem completedWalkBitsAndLastZero : Obligations.CompletedWalkBitsAndLastZero := by
  intro ss pairs hlen hgo w
  have h64 : (Walk.start ss).pos + pairs.length ≤ 65 := by rw [hlen]; exact le_rfl
  have hindex : ∀ {pos : Nat}, 1 ≤ pos → (Walk.start ss).pos + (pos - 1) = pos := fun h => Nat.add_sub_cancel' h
  have hrange : ∀ {pos : Nat} {pair : Bit × Bit}, 1 ≤ pos → pairs[pos - 1]? = some pair → pos ≤ 64 := by
    intro pos pair hpos hpair
    obtain ⟨hlt, -⟩ := List.getElem?_eq_some_iff.mp hpair
    omega
  refine ⟨fun pos id cmp hpos hpair => ?_, fun hne => ?_, ?_, fun pos hlt hpair => ?_⟩
  · have hbit := romBit_walkOver (w := Walk.start ss) le_rfl (by rw [hindex hpos]; exact hrange hpos hpair) hgo hpair
    rw [hindex hpos, directionOf_eq] at hbit
    exact hbit
  · rcases walkOver_lastZero (w := Walk.start ss) le_rfl h64 hgo with hlast | ⟨k, hlast, hpair, hbit⟩
    · exact absurd hlast hne
    · have hk : w.lastZero - 1 = k := by rw [hlast]; exact Nat.add_sub_cancel_left 1 k
      exact ⟨by rw [hk]; exact hpair, by rw [hlast]; exact hbit⟩
  · have hlast : w.lastZero < 1 + pairs.length := walkOver_lastZero_lt pairs (Walk.start ss) Nat.one_pos
    omega
  · have hpos : 1 ≤ pos := by omega
    have hbit := romBit_walkOver_of_lastZero_lt (w := Walk.start ss) le_rfl h64 hgo hpair (by rw [hindex hpos]; exact hlt)
    rwa [hindex hpos] at hbit

/-! ### The result of a walk (42_search.md R155 to R157) -/

/-- A walk that is aborted or has a zero family code gives no device. -/
theorem walkResult_of_not_found {w : Walk} (h : w.aborted = true ∨ familyOf w.s.rom = 0) : walkResult w = noPresenceResult := by
  have hnone : ¬foundOf w.aborted w.s.rom = true := by rcases h with h | h <;> simp [foundOf, h]
  rw [walkResult, if_neg hnone, noPresenceResult]

/-- Any other walk gives its device, and its last zero as the new index. -/
theorem walkResult_of_found {w : Walk} (hgo : w.aborted = false) (hfamily : familyOf w.s.rom ≠ 0) (hldf : w.s.ldf = false) :
    walkResult w = { Res.empty with
      found := some true
      addr := some w.s.rom
      ss := some (packSearch { rom := w.s.rom, ld := w.lastZero, ldf := decide (w.lastZero = 0) }) } := by
  have hfound : foundOf w.aborted w.s.rom = true := by simpa [foundOf, hgo] using hfamily
  rw [walkResult, if_pos hfound, completedState, hldf, Bool.false_or, beq_eq_decide]

/-- Settles O35: the pair of ones decides the abort, byte 0 the rest. -/
theorem walkOutcomes : Obligations.WalkOutcomes := by
  intro ss pairs hldf hwalk w
  have habort : w.aborted = true ↔ (true, true) ∈ pairs := walkOver_aborted_iff.trans (or_iff_right nofun)
  refine ⟨fun hmem => walkResult_of_not_found (.inl (habort.mpr hmem)), fun _ hfamily => walkResult_of_not_found (.inr hfamily),
    fun hgo hfamily => walkResult_of_found ?_ hfamily ((walkOver_ldf pairs _).trans hldf)⟩
  exact Bool.eq_false_iff.mpr (mt habort.mp hgo)

/-! ### The ROM buffer at index 0 (42_search.md R159) -/

/-- Two walks at index 0 that agree but for their ROM buffers. -/
structure Walk.AlikeAtZero (w w' : Walk) : Prop where
  ld : w.s.ld = 0
  ld' : w'.s.ld = 0
  ldf : w'.s.ldf = w.s.ldf
  pos : w'.pos = w.pos
  lastZero : w'.lastZero = w.lastZero
  aborted : w'.aborted = w.aborted

/-- At index 0 the direction is read from the samples alone. -/
theorem directionOf_of_ld_zero {ss : SearchState} {pos : Nat} (hld : ss.ld = 0) (hpos : 1 ≤ pos) (id cmp : Bit) :
    directionOf ss pos id cmp = if id ≠ cmp then id else false := by
  rw [directionOf_eq, hld, if_neg (Nat.not_lt_zero pos), decide_eq_false (Nat.ne_of_gt hpos)]

/-- At the same pair both take the same direction. -/
theorem Walk.AlikeAtZero.direction {w w' : Walk} (h : w.AlikeAtZero w') (hpos : 1 ≤ w.pos) (id cmp : Bit) :
    directionOf w'.s w'.pos id cmp = directionOf w.s w.pos id cmp := by
  rw [h.pos, directionOf_of_ld_zero h.ld hpos, directionOf_of_ld_zero h.ld' hpos]

theorem Walk.AlikeAtZero.next {w w' : Walk} (h : w.AlikeAtZero w') (hpos : 1 ≤ w.pos) (id cmp : Bit) :
    (w.next id cmp).AlikeAtZero (w'.next id cmp) where
  ld := h.ld
  ld' := h.ld'
  ldf := h.ldf
  pos := congrArg Nat.succ h.pos
  lastZero := by
    show lastZeroOf w'.lastZero w'.pos id cmp _ = lastZeroOf w.lastZero w.pos id cmp _
    rw [h.direction hpos, h.lastZero, h.pos]
  aborted := h.aborted

/-- The same pairs lead to walks that agree but for their ROM buffers. -/
theorem Walk.AlikeAtZero.walkOver {w w' : Walk} (h : w.AlikeAtZero w') (hpos : 1 ≤ w.pos) (pairs : List (Bit × Bit)) :
    (walkOver w pairs).AlikeAtZero (walkOver w' pairs) := by
  induction pairs generalizing w w' with
  | nil => exact h
  | cons pair pairs ih =>
    obtain ⟨id, cmp⟩ := pair
    cases hab : id && cmp with
    | true =>
      obtain ⟨rfl, rfl⟩ : id = true ∧ cmp = true := by simpa using hab
      exact { h with aborted := rfl }
    | false =>
      rw [walkOver_cons hab, walkOver_cons hab]
      exact ih (h.next hpos id cmp) (Nat.le_succ_of_le hpos)

/-- A walk of all 64 positions from index 0 leaves a ROM buffer that its pairs alone decide. -/
theorem walkOver_start_rom_eq {ss ss' : SearchState} (hld : ss.ld = 0) (hld' : ss'.ld = 0) {pairs : List (Bit × Bit)}
    (hlen : pairs.length = 64) (hgo : (true, true) ∉ pairs) :
    (walkOver (Walk.start ss') pairs).s.rom = (walkOver (Walk.start ss) pairs).s.rom := by
  refine BitVec.eq_of_getLsbD_eq fun i hi => ?_
  have hpair : pairs[i]? = some (pairs[i].1, pairs[i].2) := List.getElem?_eq_getElem (by omega)
  have hbit : ∀ {ss : SearchState}, ss.ld = 0 → romBit (walkOver (Walk.start ss) pairs).s.rom (1 + i) =
      if pairs[i].1 ≠ pairs[i].2 then pairs[i].1 else false := by
    intro ss hld
    rw [← directionOf_of_ld_zero hld (Nat.le_add_right 1 i)]
    exact romBit_walkOver (w := Walk.start ss) le_rfl (show 1 + i ≤ 64 by omega) hgo hpair
  have h := (hbit hld').trans (hbit hld).symm
  rwa [romBit, romBit, Nat.add_sub_cancel_left] at h

/-- The result of a walk from index 0 does not depend on the ROM buffer it began with. -/
theorem walkResult_start_eq {ss ss' : SearchState} (h : (Walk.start ss).AlikeAtZero (Walk.start ss')) {pairs : List (Bit × Bit)}
    (hwalk : IsWalk 64 pairs) : walkResult (walkOver (Walk.start ss') pairs) = walkResult (walkOver (Walk.start ss) pairs) := by
  have hend := h.walkOver le_rfl pairs
  rcases hwalk with ⟨hlen, hall⟩ | ⟨before, rfl, -, -⟩
  · have hrom := walkOver_start_rom_eq (ss := ss) (ss' := ss') h.ld h.ld' hlen fun hmem => absurd (hall _ hmem) nofun
    simp only [walkResult, completedState, hrom, hend.aborted, hend.lastZero, hend.ldf]
  · have habort : (walkOver (Walk.start ss) (before ++ [(true, true)])).aborted = true :=
      walkOver_aborted_iff.mpr (.inr (by simp))
    rw [walkResult_of_not_found (.inl habort), walkResult_of_not_found (.inl (hend.aborted.trans habort))]

/-- What the note of the walk writes is not read. -/
theorem runToEnd_noteWalk (w : Walk) (s : State) (next : Program) :
    runToEnd (.note (.walk w) next) s = runToEnd next (bus s [] s.environment s.micro) := by
  rw [bus_nil]
  exact runToEnd_micro next s _

/-- The samples of a position do not depend on the walk. -/
theorem walkPosition_samples (s : State) (hmode : s.mode = .openDrain) :
    ∃ id cmp e, ∀ w, ∃ m,
      PositionTakes w s id cmp (if id && cmp then e else e.afterWrite (directionOf w.s w.pos id cmp)) m := by
  obtain ⟨id, e₁, m₁, h₁⟩ := readBitBody_some s
  obtain ⟨cmp, e₂, m₂, h₂⟩ := readBitBody_some (bus s [.read id] e₁ m₁)
  rw [hmode] at h₁
  rw [bus_bus] at h₂
  exact ⟨id, cmp, e₂, fun w => walkPosition_step h₁ h₂⟩

/-- Two walks at index 0 that agree but for their ROM buffers run alike, if what follows does for the same pairs. -/
theorem walkLoop_alike {n : Nat} {w w' : Walk} {s : State} {t : Tcfg} {next next' : Walk → Program} (h : w.AlikeAtZero w')
    (hpos : 1 ≤ w.pos) (hw : w.aborted = false) (hmode : s.mode = .openDrain) (ht : s.cfg.t = t)
    (hnext : ∀ pairs, IsWalk n pairs → ∀ u, runToEnd (next' (walkOver w' pairs)) u = runToEnd (next (walkOver w pairs)) u) :
    runToEnd (walkLoop t n w' next') s = runToEnd (walkLoop t n w next) s := by
  induction n generalizing w w' s with
  | zero => exact hnext [] (isWalk_zero.mpr rfl) s
  | succ n ih =>
    subst ht
    obtain ⟨id, cmp, e, hsamples⟩ := walkPosition_samples (bus s [] s.environment s.micro) hmode
    obtain ⟨m, htake⟩ := hsamples w
    obtain ⟨m', htake'⟩ := hsamples w'
    cases hab : id && cmp with
    | true =>
      obtain ⟨rfl, rfl⟩ : id = true ∧ cmp = true := by simpa using hab
      rw [walkLoop_abort (runToEnd_noteWalk w s) htake, walkLoop_abort (runToEnd_noteWalk w' s) htake',
        runToEnd_bus_micro _ _ _ _ m' m]
      exact hnext [(true, true)] (isWalk_cons.mpr rfl) _
    | false =>
      rw [walkLoop_take hw hab (runToEnd_noteWalk w s) htake,
        walkLoop_take (h.aborted.trans hw) hab (runToEnd_noteWalk w' s) htake', h.direction hpos,
        runToEnd_bus_micro _ _ _ _ m' m]
      refine ih (h.next hpos id cmp) (Nat.le_succ_of_le hpos) hw rfl rfl fun pairs hwalk u => ?_
      have hcons := hnext ((id, cmp) :: pairs) (isWalk_cons.mpr (by simpa [hab] using hwalk)) u
      rwa [walkOver_cons hab, walkOver_cons hab] at hcons

/-- Settles O37: the two SEARCH run the same bus reset and the same byte, and walks that are alike. -/
theorem romBufferUnobservableAtIndexZero : Obligations.RomBufferUnobservableAtIndexZero := by
  intro p p' s hld hld' hldf hldf'
  have halike : (Walk.start (unpackSearch p')).AlikeAtZero (Walk.start (unpackSearch p)) :=
    { ld := hld', ld' := hld, ldf := hldf.trans hldf'.symm, pos := rfl, lastZero := rfl, aborted := rfl }
  obtain ⟨lows, presence, env, m, -, hreset⟩ := resetBody_eq (accept (.search p) s)
  rw [exec_search_of_ldf s hldf, exec_search_of_ldf s hldf', runToEnd_accept _ (.search p') (.search p)]
  refine congrArg Host.Outcome.next ((hreset _).trans (Eq.trans ?_ (hreset _).symm))
  cases hpresence : presence == some false with
  | false => rfl
  | true =>
    obtain ⟨m', hbyte⟩ := writeByteBody_eq searchRomByte (bus (accept (.search p) s) [.reset lows presence] env m)
    refine (hbyte _).trans (Eq.trans ?_ (hbyte _).symm)
    refine walkLoop_alike halike le_rfl rfl rfl rfl fun pairs hwalk u => ?_
    rw [walkResult_start_eq halike hwalk]

/-! ### The size of a SEARCH (42_search.md R165) -/

theorem slotEvents_cons (c : Config) (sl : Slot) (slots : List Slot) :
    slotEvents c (sl :: slots) = sl.events c ++ slotEvents c slots := rfl

theorem length_slotEvents_write (c : Config) (v : Bit) : ((Slot.write v).events c).length = 6 := by cases v <;> rfl

theorem length_lowPolls (c : Config) (n : Nat) : (lowPolls c n).length = 2 * n := by
  simp [lowPolls, pollEvents, Nat.mul_comm]

/-- The calls of a bus reset: the release, two a poll, and eight for the pulse (41_bus_control.md R135). -/
theorem length_slotEvents_reset (c : Config) (lows : Nat) (presence : Option Bit) :
    ((Slot.reset lows presence).events c).length = if presence = none then 1 + 2 * lows else 9 + 2 * (lows + 1) := by
  rw [slotEvents_reset, List.length_append, List.length_append, length_lowPolls]
  cases presence with
  | none => rfl
  | some p =>
    simp [pollEvents, pulseEvents]
    omega

/-- A number of calls and a requested delay. -/
def HasSize (evs : List WireEvent) (calls delay : Nat) : Prop := evs.length = calls ∧ totalDelay evs = delay

theorem HasSize.append {a b : List WireEvent} {m n d e : Nat} (ha : HasSize a m d) (hb : HasSize b n e) :
    HasSize (a ++ b) (m + n) (d + e) := by
  obtain ⟨hm, hd⟩ := ha
  obtain ⟨hn, he⟩ := hb
  exact ⟨by rw [List.length_append, hm, hn], by rw [totalDelay_append, hd, he]⟩

/-- EnsureOD's size (40_transport.md R110). -/
theorem hasSize_ensureEvents (c : Config) (m : Mode) : HasSize (ensureEvents c m) (ensureSize m) 0 := by
  cases m <;> exact ⟨rfl, rfl⟩

/-- A byte's eight write slots. -/
theorem hasSize_byteSlots {c : Config} (h : c.t.Lawful) (b : Byte) :
    HasSize (slotEvents c (byteSlots b)) 48 (8 * c.t.tWSlot) := by
  constructor
  · simp [slotEvents, List.length_flatMap, byteSlots, length_slotEvents_write, Function.comp_def]
  · exact totalDelay_busEvents_map (totalDelay_write h) .openDrain (bitsLsbFirst b)

/-- The two read slots of a position. -/
theorem hasSize_samples {c : Config} (h : c.t.Lawful) (id cmp : Bit) :
    HasSize (slotEvents c [.read id, .read cmp]) 16 (2 * c.t.tRSlot) := by
  refine ⟨rfl, ?_⟩
  simp [totalDelay_slotEvents, totalDelay_read h, Nat.two_mul]

/-- A full position: two read slots and a write slot. -/
theorem hasSize_position {c : Config} (h : c.t.Lawful) (id cmp v : Bit) :
    HasSize (slotEvents c [.read id, .read cmp, .write v]) 22 (2 * c.t.tRSlot + c.t.tWSlot) := by
  rw [show [Slot.read id, .read cmp, .write v] = [.read id, .read cmp] ++ [.write v] from rfl, slotEvents_append]
  refine (hasSize_samples h id cmp).append (n := 6) ⟨?_, ?_⟩
  · simpa [slotEvents] using length_slotEvents_write c v
  · simpa [totalDelay_slotEvents] using totalDelay_write h v

/-- The positions of a walk before a list of pairs, each of them full, and then the slots for that list from where the walk has come. -/
theorem walkSlots_append_hasSize {c : Config} (h : c.t.Lawful) (w : Walk) {before rest : List (Bit × Bit)} {calls delay : Nat}
    (hgo : ∀ p ∈ before, (p.1 && p.2) = false) (hrest : ∀ w, HasSize (slotEvents c (walkSlots w rest)) calls delay) :
    HasSize (slotEvents c (walkSlots w (before ++ rest))) (before.length * 22 + calls)
      (before.length * (2 * c.t.tRSlot + c.t.tWSlot) + delay) := by
  induction before generalizing w with
  | nil => simpa using hrest w
  | cons pair before ih =>
    obtain ⟨id, cmp⟩ := pair
    have hab : ¬(id && cmp) = true := by simpa using hgo _ List.mem_cons_self
    have hpos := (hasSize_position h id cmp (directionOf w.s w.pos id cmp)).append
      (ih (w.next id cmp) fun p hp => hgo p (List.mem_cons_of_mem _ hp))
    rw [List.cons_append, walkSlots, if_neg hab, slotEvents_append, List.length_cons, Nat.succ_mul, Nat.succ_mul,
      Nat.add_right_comm, Nat.add_comm _ 22, Nat.add_right_comm, Nat.add_comm _ (2 * c.t.tRSlot + c.t.tWSlot)]
    exact hpos

/-- The size of a walk of at most 64 positions. -/
theorem hasSize_walkSlots {c : Config} (h : c.t.Lawful) (w : Walk) {pairs : List (Bit × Bit)} (hwalk : IsWalk 64 pairs) :
    ((true, true) ∉ pairs →
      HasSize (slotEvents c (walkSlots w pairs)) (64 * 22) (64 * (2 * c.t.tRSlot + c.t.tWSlot))) ∧
    ((true, true) ∈ pairs →
      HasSize (slotEvents c (walkSlots w pairs)) ((pairs.length - 1) * 22 + 16)
        ((pairs.length - 1) * (2 * c.t.tRSlot + c.t.tWSlot) + 2 * c.t.tRSlot)) := by
  rcases hwalk with ⟨hlen, hall⟩ | ⟨before, rfl, -, hall⟩
  · refine ⟨fun _ => ?_, fun hmem => absurd (hall _ hmem) nofun⟩
    have hsize := walkSlots_append_hasSize h w (rest := []) hall fun _ => ⟨rfl, rfl⟩
    rwa [List.append_nil, hlen] at hsize
  · refine ⟨fun hgo => absurd (List.mem_append_right _ List.mem_cons_self) hgo, fun _ => ?_⟩
    rw [List.length_append, List.length_singleton, Nat.add_sub_cancel]
    exact walkSlots_append_hasSize h w hall fun _ => hasSize_samples h true true

/-- The size of a bus reset with presence. -/
theorem hasSize_reset_present (c : Config) (lows : Nat) :
    HasSize ((Slot.reset lows (some false)).events c) (9 + 2 * (lows + 1))
      ((lows + 1) * c.t.tIdlePoll + c.t.tRstLow + c.t.tPresence + c.t.tRecovery) :=
  ⟨length_slotEvents_reset .., totalDelay_reset ..⟩

/-- A bus reset alone, after events of EnsureOD. -/
theorem resetSize_of_hasSize {c : Config} {evs : List WireEvent} {e : Nat} (h : HasSize evs e 0) (lows : Nat)
    (presence : Option Bit) : ResetSize c.t e lows presence (evs ++ slotEvents c [.reset lows presence]) := by
  obtain ⟨hlen, hdelay⟩ := h
  have hslot : slotEvents c [.reset lows presence] = (Slot.reset lows presence).events c := List.append_nil _
  rw [ResetSize, hslot, List.length_append, totalDelay_append, hlen, hdelay, length_slotEvents_reset, totalDelay_reset, zero_add]
  split <;> exact ⟨rfl, rfl⟩

/-- A SEARCH with presence, after events of EnsureOD. -/
theorem walkSearchSize_of_hasSize {c : Config} (h : c.t.Lawful) {evs : List WireEvent} {e : Nat} (hevs : HasSize evs e 0)
    (p : PackedSearch) (lows : Nat) {pairs : List (Bit × Bit)} (hwalk : IsWalk 64 pairs) :
    WalkSearchSize c.t e lows pairs (evs ++ slotEvents c (walkSearchSlots p lows pairs)) := by
  have hbefore := hevs.append ((hasSize_reset_present c lows).append (hasSize_byteSlots h 0xF0))
  obtain ⟨hfull, habort⟩ := hasSize_walkSlots h (Walk.start (unpackSearch p)) hwalk
  have hevents : evs ++ slotEvents c (walkSearchSlots p lows pairs) =
      evs ++ ((Slot.reset lows (some false)).events c ++ slotEvents c (byteSlots 0xF0)) ++
        slotEvents c (walkSlots (Walk.start (unpackSearch p)) pairs) := by
    simp [walkSearchSlots, slotEvents_cons]
  rw [hevents]
  constructor
  · intro hgo
    obtain ⟨hlen, hdelay⟩ := hbefore.append (hfull hgo)
    exact ⟨by rw [hlen]; ring, by rw [hdelay]; ring⟩
  · intro hmem
    obtain ⟨hlen, hdelay⟩ := hbefore.append (habort hmem)
    exact ⟨by rw [hlen]; ring, by rw [hdelay]; ring⟩

/-- Settles O38: by the path that SEARCH ends on, with EnsureOD's events before its slots. -/
theorem searchTraceSizes : Obligations.SearchTraceSizes := by
  refine ⟨fun p s hlaw => ?_, fun c p lows pairs hlaw hwalk => walkSearchSize_of_hasSize hlaw (evs := []) ⟨rfl, rfl⟩ p lows hwalk⟩
  obtain ⟨slots, res, env, hends, hexec⟩ := exec_finished (.search p) s nofun nofun
  have hensure := hasSize_ensureEvents s.cfg s.mode
  refine ⟨_, busEvents s.cfg s.mode slots, hexec, rfl, ?_⟩
  rcases hends with ⟨hset, rfl, -⟩ | ⟨hclear, lows, presence, hshape, hpath⟩
  · exact ⟨fun _ => rfl, fun hclear => absurd (hclear.symm.trans hset) nofun⟩
  · refine ⟨fun hset => absurd (hclear.symm.trans hset) nofun, fun _ => ⟨lows, presence, hshape, fun habsent => ?_,
      fun hpresent => ?_⟩⟩
    · rcases hpath with ⟨-, rfl, -⟩ | ⟨hpresent, -⟩
      · exact ⟨rfl, resetSize_of_hasSize hensure lows presence⟩
      · exact absurd hpresent habsent
    · rcases hpath with ⟨habsent, -⟩ | ⟨-, pairs, hwalk, rfl, -⟩
      · exact absurd hpresent habsent
      · subst hpresent
        exact ⟨pairs, hwalk, rfl, walkSearchSize_of_hasSize hlaw hensure p lows hwalk⟩

end Sys2Proof.Machine

/-! ## SEARCH on the reference bus (20_memory.md R70 to R72, 42_search.md R162)

At each position the devices that are still active answer the wired-AND of their bits and of their complements, and those with the bit of the direction taken stay
active (`devicePairs`). So the path found is a device's, and a pair is a discrepancy exactly where some device leaves that path. With the bits and the last zero of a
completed walk (`completedWalkBitsAndLastZero`) it follows that the device found is the next one after the device found last, in the order of the bit strings, and that
the new index is the last position at which a later device parts from it. An enumeration is then an induction on the devices still to come. -/

namespace Sys2Proof.Machine

/-! ### The answers of the active devices (20_memory.md R72) -/

/-- What the active devices answer to the first read slot of a position. -/
def idBit (act : List Addr) (pos : Nat) : Bit := act.all fun a => romBit a pos

/-- What they answer to the second. -/
def cmpBit (act : List Addr) (pos : Nat) : Bit := act.all fun a => !romBit a pos

/-- The direction that the walk takes by these answers. -/
def directionAmong (w : Walk) (act : List Addr) : Bit := directionOf w.s w.pos (idBit act w.pos) (cmpBit act w.pos)

/-- The devices that stay active. -/
def staying (w : Walk) (act : List Addr) : List Addr := act.filter fun a => romBit a w.pos == directionAmong w act

/-- The sample pairs of `n` positions of the walk on the reference bus. -/
def devicePairs : Nat → Walk → List Addr → List (Bit × Bit)
  | 0, _, _ => []
  | n + 1, w, act =>
    (idBit act w.pos, cmpBit act w.pos) ::
      devicePairs n (w.next (idBit act w.pos) (cmpBit act w.pos)) (staying w act)

/-- The devices agree on the bit, and the samples give it, or they differ, and the samples are both 0 (20_memory.md R72). -/
theorem samples_cases {act : List Addr} (hne : act ≠ []) (pos : Nat) :
    (∃ v, idBit act pos = v ∧ cmpBit act pos = !v ∧ ∀ x ∈ act, romBit x pos = v) ∨
    (idBit act pos = false ∧ cmpBit act pos = false ∧ ∀ v, ∃ x ∈ act, romBit x pos = v) := by
  obtain ⟨y, hy⟩ := List.exists_mem_of_ne_nil act hne
  by_cases hone : ∃ x ∈ act, romBit x pos = true
  · by_cases hzero : ∃ x ∈ act, romBit x pos = false
    · refine .inr ⟨?_, ?_, fun v => ?_⟩
      · simpa [idBit] using hzero
      · simpa [cmpBit] using hone
      · cases v with
        | false => exact hzero
        | true => exact hone
    · have hall : ∀ x ∈ act, romBit x pos = true := by simpa using hzero
      exact .inl ⟨true, by simpa [idBit] using hall, by simpa [cmpBit] using hone, hall⟩
  · have hall : ∀ x ∈ act, romBit x pos = false := by simpa using hone
    exact .inl ⟨false, by simpa [idBit] using ⟨y, hy, hall y hy⟩, by simpa [cmpBit] using hall, hall⟩

/-- As long as a device is active, no pair aborts the walk. -/
theorem samples_go {act : List Addr} (hne : act ≠ []) (pos : Nat) : (idBit act pos && cmpBit act pos) = false := by
  rcases samples_cases hne pos with ⟨v, hid, hcmp, -⟩ | ⟨hid, hcmp, -⟩
  · rw [hid, hcmp]; exact Bool.and_not_self v
  · rw [hid, hcmp]; rfl

/-- Where the devices agree, the direction is their bit. -/
theorem directionAmong_of_agree {w : Walk} {act : List Addr} {v : Bit} (hid : idBit act w.pos = v)
    (hcmp : cmpBit act w.pos = !v) : directionAmong w act = v := by
  rw [directionAmong, directionOf_eq, hid, hcmp, if_pos (by cases v <;> decide)]

/-- Some device stays active. -/
theorem staying_ne_nil (w : Walk) {act : List Addr} (hne : act ≠ []) : staying w act ≠ [] := by
  suffices h : ∃ x ∈ act, romBit x w.pos = directionAmong w act by
    obtain ⟨x, hx, hbit⟩ := h
    exact List.ne_nil_of_mem (List.mem_filter.mpr ⟨hx, beq_iff_eq.mpr hbit⟩)
  rcases samples_cases hne w.pos with ⟨v, hid, hcmp, hall⟩ | ⟨-, -, hboth⟩
  · obtain ⟨x, hx⟩ := List.exists_mem_of_ne_nil act hne
    exact ⟨x, hx, (hall x hx).trans (directionAmong_of_agree hid hcmp).symm⟩
  · exact hboth _

/-- The pair is a discrepancy exactly if some active device leaves at this position. -/
theorem samples_discrepancy_iff (w : Walk) {act : List Addr} (hne : act ≠ []) :
    (idBit act w.pos = false ∧ cmpBit act w.pos = false) ↔ ∃ x ∈ act, romBit x w.pos ≠ directionAmong w act := by
  rcases samples_cases hne w.pos with ⟨v, hid, hcmp, hall⟩ | ⟨hid, hcmp, hboth⟩
  · rw [directionAmong_of_agree hid hcmp, hid, hcmp]
    refine ⟨fun h => ?_, fun ⟨x, hx, hbit⟩ => absurd (hall x hx) hbit⟩
    cases v <;> simp at h
  · obtain ⟨x, hx, hbit⟩ := hboth !directionAmong w act
    exact ⟨fun _ => ⟨x, hx, by rw [hbit]; exact Bool.not_ne_self _⟩, fun _ => ⟨hid, hcmp⟩⟩

@[simp] theorem length_devicePairs (n : Nat) (w : Walk) (act : List Addr) : (devicePairs n w act).length = n := by
  induction n generalizing w act with
  | zero => rfl
  | succ n ih => rw [devicePairs, List.length_cons, ih]

theorem devicePairs_go (n : Nat) (w : Walk) {act : List Addr} (hne : act ≠ []) : (true, true) ∉ devicePairs n w act := by
  induction n generalizing w act with
  | zero => exact List.not_mem_nil
  | succ n ih => exact not_mem_abort_cons.mpr ⟨samples_go hne w.pos, ih _ (staying_ne_nil w hne)⟩

/-! ### The bus in the course of a SEARCH -/

/-- A sample is what the environment answers. -/
theorem sample_of_answer {k : SampleKind} {s : State} {l : Bit} {env : Environment}
    (h : s.environment.answer k s.world s.history = (l, env)) :
    ∃ m, sample k s = (l, issued s [.rd s.cfg.pin l] env m) :=
  ⟨(sample k s).2.micro, by simp [sample, h, issued, issue, hear]⟩

/-- An idle poll on the reference bus is 1 (20_memory.md R71). -/
theorem poll_refBus {s : State} {b : RefBus} (hs : s.environment = .refBus b) :
    ∃ m, sample .idlePoll (delay s.cfg.t.tIdlePoll s) = (true, issued s (pollEvents s.cfg true) (.refBus b) m) := by
  obtain ⟨m, h⟩ := sample_of_answer (k := .idlePoll) (s := delay s.cfg.t.tIdlePoll s) (l := true) (env := .refBus b)
    (by rw [delay_environment, hs]; rfl)
  exact ⟨m, by rw [h]; simp [issued, pollEvents]⟩

/-- The presence sample is 0 exactly with a device, and the devices collect a command from there (20_memory.md R71). -/
theorem resetPulse_refBus {s : State} {b : RefBus} (hs : s.environment = .refBus b) :
    ∃ m, ∀ next, runToEnd (resetPulse s.cfg.t next) s =
      runToEnd (next !b.devices.isEmpty)
        { issued s (pulseEvents s.cfg b.devices.isEmpty) (.refBus (b.moveTo (.cmd []))) m with inCs := false } := by
  have hbefore : (beforePresence s).environment = .refBus b := hs
  obtain ⟨m, h⟩ := sample_of_answer (k := .presence) (s := beforePresence s) (l := b.devices.isEmpty)
    (env := .refBus (b.moveTo (.cmd []))) (by rw [hbefore]; rfl)
  exact resetPulse_step h

/-- A bus reset on the reference bus is idle at its first poll. -/
theorem resetBody_refBus {s : State} {b : RefBus} (hidle : 1 ≤ s.cfg.t.nIdlePolls) (hs : s.environment = .refBus b) :
    ∃ m, ∀ next, runToEnd (resetBody s.cfg.t s.mode next) s =
      runToEnd (next !b.devices.isEmpty)
        (bus s [.reset 0 (some b.devices.isEmpty)] (.refBus (b.moveTo (.cmd []))) m) := by
  obtain ⟨n, hn⟩ := Nat.exists_eq_add_of_le' hidle
  obtain ⟨m₀, henter⟩ := resetBody_enter s
  obtain ⟨m₁, hpoll⟩ := poll_refBus (b := b)
    (s := { s with mode := .openDrain, trace := s.trace ++ ensureEvents s.cfg s.mode ++ [.wr s.cfg.pin true], micro := m₀ }) hs
  obtain ⟨m, hpulse⟩ := resetPulse_refBus (b := b)
    (s := issued { s with mode := .openDrain, trace := s.trace ++ ensureEvents s.cfg s.mode ++ [.wr s.cfg.pin true], micro := m₀ }
      (pollEvents s.cfg true) (.refBus b) m₁) rfl
  rw [hn] at henter
  refine ⟨m, fun next => (henter next).trans ((idlePolls_step hpoll n _).trans ((hpulse next).trans ?_))⟩
  congr 1
  ext1 <;> simp [issued, busEvents, slotEvents, Slot.events, inCsAfter, Slot.opensWindow]

/-- Search ROM starts a search among all devices (20_memory.md R71). -/
theorem afterWrites_searchRomByte (b : RefBus) :
    (Environment.refBus (b.moveTo (.cmd []))).afterWrites (bitsLsbFirst searchRomByte) =
      .refBus (b.moveTo (.search 1 0 b.devices)) := rfl

theorem readBitBody_of_answer {s : State} {l : Bit} {env : Environment}
    (h : s.environment.answer .readSlot s.world (readHistory s) = (l, env)) :
    ∃ m, ∀ next, runToEnd (readBitBody s.cfg.t s.mode next) s = runToEnd (next l) (bus s [.read l] env m) := by
  simpa only [h] using readBitBody_eq s

/-- Where the devices stand before a position, those of the list active, and after the last one (20_memory.md R72). -/
def phaseAt (pos : Nat) (act : List Addr) : BusPhase := if pos ≤ 64 then .search pos 0 act else .other

/-- A position on the reference bus (20_memory.md R72). -/
theorem walkPosition_refBus {w : Walk} {s : State} {b : RefBus} {act : List Addr} (hne : act ≠ []) (hmode : s.mode = .openDrain)
    (hs : s.environment = .refBus (b.moveTo (.search w.pos 0 act))) :
    ∃ m, PositionTakes w s (idBit act w.pos) (cmpBit act w.pos)
      (.refBus (b.moveTo (phaseAt (w.pos + 1) (staying w act)))) m := by
  obtain ⟨m₁, h₁⟩ := readBitBody_of_answer (s := s) (l := idBit act w.pos)
    (env := .refBus (b.moveTo (.search w.pos 1 act))) (by rw [hs]; rfl)
  obtain ⟨m₂, h₂⟩ := readBitBody_of_answer
    (s := bus s [.read (idBit act w.pos)] (.refBus (b.moveTo (.search w.pos 1 act))) m₁) (l := cmpBit act w.pos)
    (env := .refBus (b.moveTo (.search w.pos 2 act))) rfl
  rw [hmode] at h₁
  rw [bus_bus] at h₂
  obtain ⟨m, h⟩ := walkPosition_step (w := w) h₁ h₂
  rw [if_neg (by simp [samples_go hne w.pos])] at h
  exact ⟨m, h⟩

/-- The walk on the reference bus has the pairs that its devices answer. -/
theorem walkLoop_refBus {n : Nat} {w : Walk} {s : State} {b : RefBus} {act : List Addr} (hne : act ≠ [])
    (hn : w.pos + n = 65) (hw : w.aborted = false) (hmode : s.mode = .openDrain)
    (hs : s.environment = .refBus (b.moveTo (phaseAt w.pos act))) :
    ∃ m, ∀ next, runToEnd (walkLoop s.cfg.t n w next) s =
      runToEnd (next (walkOver w (devicePairs n w act)))
        (bus s (walkSlots w (devicePairs n w act)) (.refBus (b.moveTo .other)) m) := by
  induction n generalizing w s act with
  | zero =>
    rw [phaseAt, if_neg (by omega)] at hs
    refine ⟨s.micro, fun next => ?_⟩
    rw [show walkSlots w (devicePairs 0 w act) = [] from rfl, ← hs, bus_nil]
    rfl
  | succ n ih =>
    rw [phaseAt, if_pos (by omega)] at hs
    have hgo := samples_go hne w.pos
    obtain ⟨m₁, htake⟩ := walkPosition_refBus (s := bus s [] s.environment s.micro) hne hmode hs
    obtain ⟨m, h⟩ := ih (w := w.next (idBit act w.pos) (cmpBit act w.pos))
      (s := bus s [.read (idBit act w.pos), .read (cmpBit act w.pos), .write (directionAmong w act)]
        (.refBus (b.moveTo (phaseAt (w.pos + 1) (staying w act)))) m₁)
      (staying_ne_nil w hne) (by rw [← hn]; exact Nat.succ_add_eq_add_succ w.pos n) hw rfl rfl
    refine ⟨m, fun next => (walkLoop_take hw hgo (runToEnd_noteWalk w s) htake next).trans ((h next).trans ?_)⟩
    rw [devicePairs, walkOver_cons hgo, walkSlots, hgo, bus_bus]
    rfl

/-- The walk variables with which a SEARCH from `ss` ends on the reference bus. -/
def walkAmong (devices : List Addr) (ss : SearchState) : Walk :=
  walkOver (Walk.start ss) (devicePairs 64 (Walk.start ss) devices)

/-- SEARCH on the reference bus (42_search.md R152). -/
theorem exec_search_refBus {p : PackedSearch} {s : State} {b : RefBus} (hidle : 1 ≤ s.cfg.t.nIdlePolls)
    (hp : (unpackSearch p).ldf = false) (hs : s.environment = .refBus b) (hne : b.devices ≠ []) :
    ∃ slots, exec (.search p) s =
      .next (finished s slots (walkResult (walkAmong b.devices (unpackSearch p))) (.refBus (b.moveTo .other))) := by
  obtain ⟨m, hreset⟩ := resetBody_refBus (s := accept (.search p) s) hidle hs
  rw [List.isEmpty_eq_false_iff.mpr hne] at hreset
  refine ⟨_, exec_search_of_walk hp hreset fun u hcfg hmode henv => ?_⟩
  rw [← hcfg]
  exact walkLoop_refBus hne rfl rfl hmode (henv.trans (afterWrites_searchRomByte b))

/-! ### Addresses as bit strings (42_search.md R162) -/

/-- Equal bits at the positions from `lo` on and before `hi`. -/
def AgreeOn (lo hi : Nat) (x y : Addr) : Prop := ∀ q, lo ≤ q → q < hi → romBit x q = romBit y q

/-- Equal up to position `p`, where `x` has 0 and `y` has 1. -/
structure PartsAt (p : Nat) (x y : Addr) : Prop where
  agree : AgreeOn 1 p x y
  zero : romBit x p = false
  one : romBit y p = true

/-- The order of the bit strings read from position 1 to 64, 0 before 1. -/
def Before (x y : Addr) : Prop := ∃ p, 1 ≤ p ∧ p ≤ 64 ∧ PartsAt p x y

theorem agreeOn_self (p : Nat) (x y : Addr) : AgreeOn p p x y := fun _ hq hlt => absurd hlt (Nat.not_lt.mpr hq)

theorem AgreeOn.symm {lo hi : Nat} {x y : Addr} (h : AgreeOn lo hi x y) : AgreeOn lo hi y x :=
  fun q hlo hhi => (h q hlo hhi).symm

theorem AgreeOn.trans {lo hi : Nat} {x y z : Addr} (hxy : AgreeOn lo hi x y) (hyz : AgreeOn lo hi y z) : AgreeOn lo hi x z :=
  fun q hlo hhi => (hxy q hlo hhi).trans (hyz q hlo hhi)

theorem AgreeOn.mono {lo hi hi' : Nat} {x y : Addr} (h : AgreeOn lo hi x y) (hle : hi' ≤ hi) : AgreeOn lo hi' x y :=
  fun q hlo hhi => h q hlo (Nat.lt_of_lt_of_le hhi hle)

/-- Agreement one position further on, if there is any. -/
theorem agreeOn_succ_left_iff {lo hi : Nat} (hlt : lo < hi) {x y : Addr} :
    AgreeOn lo hi x y ↔ romBit x lo = romBit y lo ∧ AgreeOn (lo + 1) hi x y := by
  refine ⟨fun h => ⟨h lo le_rfl hlt, fun q hq => h q (Nat.le_of_succ_le hq)⟩, fun ⟨hbit, h⟩ q hq hhi => ?_⟩
  rcases Nat.eq_or_lt_of_le hq with rfl | hlt'
  · exact hbit
  · exact h q hlt' hhi

/-- An address is its 64 positions. -/
theorem AgreeOn.eq {x y : Addr} (h : AgreeOn 1 65 x y) : x = y :=
  BitVec.eq_of_getLsbD_eq fun i hi => h (i + 1) (Nat.le_add_left 1 i) (by omega)

/-- Of two addresses one comes before the other, by the first position at which they differ. -/
theorem before_or_before {x y : Addr} (hne : x ≠ y) : Before x y ∨ Before y x := by
  have hex : ∃ q, 1 ≤ q ∧ q < 65 ∧ romBit x q ≠ romBit y q := by
    by_contra h
    exact hne (AgreeOn.eq fun q hq hlt => by_contra fun hbit => h ⟨q, hq, hlt, hbit⟩)
  obtain ⟨hp, hp65, hbit⟩ := Nat.find_spec hex
  have hagree : AgreeOn 1 (Nat.find hex) x y := fun q hq hlt => by
    by_contra hdiff
    exact Nat.find_min hex hlt ⟨hq, hlt.trans hp65, hdiff⟩
  cases hx : romBit x (Nat.find hex) with
  | false => exact .inl ⟨_, hp, Nat.le_of_lt_succ hp65, hagree, hx, by simpa [hx] using hbit.symm⟩
  | true => exact .inr ⟨_, hp, Nat.le_of_lt_succ hp65, hagree.symm, by simpa [hx] using hbit.symm, hx⟩

/-- The bits of the reversed address, position 1 highest. -/
theorem testBit_reverse (x : Addr) {p : Nat} (hp : 1 ≤ p) (h64 : p ≤ 64) : x.reverse.toNat.testBit (64 - p) = romBit x p := by
  rw [BitVec.testBit_toNat, BitVec.getLsbD_reverse, BitVec.getMsbD, romBit]
  simp [show 64 - p < 64 by omega, show 63 - (64 - p) = p - 1 by omega]

theorem Before.reverse_lt {x y : Addr} (h : Before x y) : x.reverse.toNat < y.reverse.toNat := by
  obtain ⟨p, hp, h64, hagree, hzero, hone⟩ := h
  refine Nat.lt_of_testBit (64 - p) ((testBit_reverse x hp h64).trans hzero) ((testBit_reverse y hp h64).trans hone)
    fun j hj => ?_
  by_cases hj64 : j < 64
  · rw [show j = 64 - (64 - j) by omega, testBit_reverse x (by omega) (by omega), testBit_reverse y (by omega) (by omega)]
    exact hagree _ (by omega) (by omega)
  · rw [BitVec.testBit_toNat, BitVec.testBit_toNat, BitVec.getLsbD_of_ge _ _ (by omega), BitVec.getLsbD_of_ge _ _ (by omega)]

/-- The order of the bit strings is that of the reversed addresses. -/
theorem before_iff {x y : Addr} : Before x y ↔ x.reverse.toNat < y.reverse.toNat := by
  refine ⟨Before.reverse_lt, fun h => ?_⟩
  rcases before_or_before (x := x) (y := y) (by rintro rfl; exact lt_irrefl _ h) with hbefore | hafter
  · exact hbefore
  · exact absurd hafter.reverse_lt h.asymm

/-! ### What a SEARCH on the reference bus finds (42_search.md R155, R160, R162) -/

/-- A discrepancy of the walk is a position at which some active device leaves the path found. -/
theorem devicePairs_discrepancy_iff {n : Nat} {w : Walk} {act : List Addr} {k : Nat} (hne : act ≠ []) (hpos : 1 ≤ w.pos)
    (h64 : w.pos + n ≤ 65) (hk : k < n) :
    (devicePairs n w act)[k]? = some (false, false) ↔
      ∃ x ∈ act, AgreeOn w.pos (w.pos + k) x (walkOver w (devicePairs n w act)).s.rom ∧
        romBit x (w.pos + k) ≠ romBit (walkOver w (devicePairs n w act)).s.rom (w.pos + k) := by
  induction n generalizing w act k with
  | zero => exact absurd hk (Nat.not_lt_zero k)
  | succ n ih =>
    have hfirst := romBit_walkOver_first (id := idBit act w.pos) (cmp := cmpBit act w.pos) hpos (by omega)
      (devicePairs n (w.next (idBit act w.pos) (cmpBit act w.pos)) (staying w act))
    rw [devicePairs, walkOver_cons (samples_go hne w.pos)]
    cases k with
    | zero =>
      simp only [List.getElem?_cons_zero, Option.some.injEq, Prod.mk.injEq, Nat.add_zero, agreeOn_self, true_and, hfirst]
      exact samples_discrepancy_iff w hne
    | succ k =>
      have hshift : w.pos + (k + 1) = (w.next (idBit act w.pos) (cmpBit act w.pos)).pos + k := by
        show _ = w.pos + 1 + k
        omega
      rw [List.getElem?_cons_succ, ih (staying_ne_nil w hne) (Nat.le_succ_of_le hpos) (by show w.pos + 1 + n ≤ 65; omega)
        (by omega), ← hshift]
      refine exists_congr fun x => ?_
      rw [agreeOn_succ_left_iff (show w.pos < w.pos + (k + 1) by omega), hfirst, staying, List.mem_filter, beq_iff_eq]
      simp only [and_assoc]
      rfl

/-- The path found is that of some active device. -/
theorem exists_agreeOn_walkOver {n : Nat} {w : Walk} {act : List Addr} (hne : act ≠ []) (hpos : 1 ≤ w.pos)
    (h64 : w.pos + n ≤ 65) : ∃ x ∈ act, AgreeOn w.pos (w.pos + n) x (walkOver w (devicePairs n w act)).s.rom := by
  induction n generalizing w act with
  | zero =>
    obtain ⟨x, hx⟩ := List.exists_mem_of_ne_nil act hne
    exact ⟨x, hx, agreeOn_self _ _ _⟩
  | succ n ih =>
    obtain ⟨x, hx, hagree⟩ := ih (w := w.next (idBit act w.pos) (cmpBit act w.pos)) (staying_ne_nil w hne)
      (Nat.le_succ_of_le hpos) (by show w.pos + 1 + n ≤ 65; omega)
    obtain ⟨hx, hbit⟩ := List.mem_filter.mp hx
    rw [devicePairs, walkOver_cons (samples_go hne w.pos)]
    refine ⟨x, hx, (agreeOn_succ_left_iff (by omega)).mpr ⟨?_, ?_⟩⟩
    · rw [romBit_walkOver_first hpos (by omega)]
      exact beq_iff_eq.mp hbit
    · rw [← Nat.add_assoc, Nat.add_right_comm]
      exact hagree

/-- Some device parts from the path `r` at position `p`, with 1 where the path has 0. -/
def IsBranch (devices : List Addr) (r : Addr) (p : Nat) : Prop := ∃ x ∈ devices, PartsAt p r x

/-- `d` is the last such position, 0 if there is none. -/
structure IsLastBranch (devices : List Addr) (r : Addr) (d : Nat) : Prop where
  le : d ≤ 64
  branch : d ≠ 0 → IsBranch devices r d
  last : ∀ p, d < p → p ≤ 64 → ¬IsBranch devices r p

/-- Without a last branch no device comes after. -/
theorem IsLastBranch.not_before {devices : List Addr} {r x : Addr} (h : IsLastBranch devices r 0) (hx : x ∈ devices) :
    ¬Before r x := by
  rintro ⟨p, hp, h64, hparts⟩
  exact h.last p hp h64 ⟨x, hx, hparts⟩

/-- A Search State in the midst of an enumeration: a fresh one, or the last device found with its last branch as index. -/
def Enumerates (devices : List Addr) (ss : SearchState) : Prop :=
  ss.ld ≠ 0 → ss.rom ∈ devices ∧ IsLastBranch devices ss.rom ss.ld

section found
variable {devices : List Addr} {ss : SearchState} (hne : devices ≠ [])
include hne

/-- The device found is on the bus. -/
theorem walkAmong_mem : (walkAmong devices ss).s.rom ∈ devices := by
  obtain ⟨x, hx, hagree⟩ := exists_agreeOn_walkOver (n := 64) (w := Walk.start ss) hne le_rfl le_rfl
  rw [walkAmong, ← hagree.eq]
  exact hx

/-- The pair of a position is a discrepancy exactly if a device leaves there. -/
theorem walkAmong_discrepancy_iff {p : Nat} (hp : 1 ≤ p) (h64 : p ≤ 64) :
    (devicePairs 64 (Walk.start ss) devices)[p - 1]? = some (false, false) ↔
      ∃ x ∈ devices, AgreeOn 1 p x (walkAmong devices ss).s.rom ∧ romBit x p ≠ romBit (walkAmong devices ss).s.rom p := by
  have h := devicePairs_discrepancy_iff (n := 64) (w := Walk.start ss) (k := p - 1) hne le_rfl le_rfl (by omega)
  rwa [show (Walk.start ss).pos + (p - 1) = p from Nat.add_sub_cancel' hp] at h

/-- Where a device leaves, the direction is the one of 42_search.md R160. -/
theorem walkAmong_bit {p : Nat} (hp : 1 ≤ p) (h64 : p ≤ 64) {x : Addr} (hx : x ∈ devices)
    (hagree : AgreeOn 1 p x (walkAmong devices ss).s.rom) (hbit : romBit x p ≠ romBit (walkAmong devices ss).s.rom p) :
    romBit (walkAmong devices ss).s.rom p = if p < ss.ld then romBit ss.rom p else decide (p = ss.ld) := by
  have hpair := (walkAmong_discrepancy_iff hne hp h64).mpr ⟨x, hx, hagree, hbit⟩
  obtain ⟨hbits, -⟩ := completedWalkBitsAndLastZero ss _ (length_devicePairs 64 _ _) (devicePairs_go 64 (Walk.start ss) hne)
  exact (hbits p false false hp hpair).trans (if_neg (by decide))

/-- The new index is the last branch of the device found. -/
theorem walkAmong_isLastBranch : IsLastBranch devices (walkAmong devices ss).s.rom (walkAmong devices ss).lastZero := by
  obtain ⟨-, hzero, hle, hlast⟩ :=
    completedWalkBitsAndLastZero ss _ (length_devicePairs 64 _ _) (devicePairs_go 64 (Walk.start ss) hne)
  refine ⟨hle, fun hne0 => ?_, ?_⟩
  · obtain ⟨hpair, hbit⟩ := hzero hne0
    obtain ⟨x, hx, hagree, hdiff⟩ := (walkAmong_discrepancy_iff hne (Nat.one_le_iff_ne_zero.mpr hne0) hle).mp hpair
    exact ⟨x, hx, hagree.symm, hbit, by simpa using hdiff.trans_eq hbit⟩
  · rintro p hlt h64 ⟨x, hx, hagree, hpath, hone⟩
    have hdiff : romBit x p ≠ romBit (walkAmong devices ss).s.rom p := by rw [hpath, hone]; decide
    have hpair := (walkAmong_discrepancy_iff hne (by omega) h64).mpr ⟨x, hx, hagree.symm, hdiff⟩
    exact absurd (hpath.symm.trans (hlast p hlt hpair)) Bool.false_ne_true

/-- Before the index, the walk follows the device found last (42_search.md R160). -/
theorem walkAmong_agree (hss : Enumerates devices ss) : AgreeOn 1 ss.ld ss.rom (walkAmong devices ss).s.rom := by
  intro q hq hlt
  obtain ⟨hmem, hlast⟩ := hss (by omega)
  induction q using Nat.strong_induction_on with
  | _ q ih =>
    by_contra hbit
    have hagree : AgreeOn 1 q ss.rom (walkAmong devices ss).s.rom := fun r hr hrq => ih r hrq hr (by omega)
    have h := walkAmong_bit hne hq (by have := hlast.le; omega) hmem hagree hbit
    exact hbit (h.trans (if_pos hlt)).symm

/-- The device found comes after the one found last: it takes the branch at the index. -/
theorem before_walkAmong (hss : Enumerates devices ss) (hld : ss.ld ≠ 0) : Before ss.rom (walkAmong devices ss).s.rom := by
  obtain ⟨hmem, hlast⟩ := hss hld
  obtain ⟨x, hx, hparts⟩ := hlast.branch hld
  have hfollow := walkAmong_agree hne hss
  have hpos : 1 ≤ ss.ld := Nat.one_le_iff_ne_zero.mpr hld
  refine ⟨ss.ld, hpos, hlast.le, hfollow, hparts.zero, ?_⟩
  by_contra hbit
  have hdiff : romBit x ss.ld ≠ romBit (walkAmong devices ss).s.rom ss.ld := fun h => hbit (h.symm.trans hparts.one)
  have h := walkAmong_bit hne hpos hlast.le hx (hparts.agree.symm.trans hfollow) hdiff
  rw [if_neg (lt_irrefl _)] at h
  exact hbit (h.trans (decide_eq_true rfl))

/-- No device in between: one that comes before the device found does not come after the one found last. -/
theorem not_before_of_before_walkAmong (hss : Enumerates devices ss) {x : Addr} (hx : x ∈ devices)
    (hbefore : Before x (walkAmong devices ss).s.rom) : ss.ld ≠ 0 ∧ ¬Before ss.rom x := by
  obtain ⟨p, hp, h64, hagree, hzero, hone⟩ := hbefore
  have h := walkAmong_bit hne hp h64 hx hagree (by rw [hzero, hone]; decide)
  rw [hone] at h
  have hfollow := walkAmong_agree hne hss
  by_cases hlt : p < ss.ld
  · rw [if_pos hlt] at h
    have hafter : Before x ss.rom :=
      ⟨p, hp, h64, hagree.trans (hfollow.symm.mono hlt.le), hzero, h.symm⟩
    exact ⟨by omega, fun hss => absurd hafter.reverse_lt hss.reverse_lt.asymm⟩
  · rw [if_neg hlt] at h
    obtain rfl : p = ss.ld := by simpa using h.symm
    refine ⟨by omega, ?_⟩
    rintro ⟨q, hq, hq64, hparts⟩
    obtain ⟨-, hlast⟩ := hss (by omega)
    rcases lt_trichotomy q ss.ld with hlt | rfl | hgt
    · have hsame := (hagree.trans hfollow.symm) q hq hlt
      rw [hparts.zero, hparts.one] at hsame
      exact absurd hsame (by decide)
    · exact absurd (hzero.symm.trans hparts.one) Bool.false_ne_true
    · exact hlast.last q hgt hq64 ⟨x, hx, hparts⟩

end found

/-! ### One SEARCH of an enumeration (42_search.md R155, R157) -/

/-- The Search State that a SEARCH from `ss` returns on the reference bus, its ROM the device found (42_search.md R155). -/
def stateAfter (devices : List Addr) (ss : SearchState) : SearchState where
  rom := (walkAmong devices ss).s.rom
  ld := (walkAmong devices ss).lastZero
  ldf := decide ((walkAmong devices ss).lastZero = 0)

/-- The Search State of a device found, its index the last branch and exhausted without one. -/
structure FoundLast (devices : List Addr) (ss : SearchState) : Prop where
  mem : ss.rom ∈ devices
  last : IsLastBranch devices ss.rom ss.ld
  ldf : ss.ldf = decide (ss.ld = 0)

theorem foundLast_stateAfter {devices : List Addr} (hne : devices ≠ []) (ss : SearchState) :
    FoundLast devices (stateAfter devices ss) where
  mem := walkAmong_mem hne
  last := walkAmong_isLastBranch hne
  ldf := rfl

theorem FoundLast.enumerates {devices : List Addr} {ss : SearchState} (h : FoundLast devices ss) : Enumerates devices ss :=
  fun _ => ⟨h.mem, h.last⟩

/-- The state a SEARCH returned is the one the next is given. -/
theorem FoundLast.unpack_pack {devices : List Addr} {ss : SearchState} (h : FoundLast devices ss) :
    unpackSearch (packSearch ss) = ss :=
  unpackSearch_packSearch (Nat.lt_of_le_of_lt h.last.le (by decide))

/-- SEARCH on the reference bus, its devices with family codes, finds a device (42_search.md R157). -/
theorem exec_search_finds {p : PackedSearch} {s : State} {b : RefBus} (hidle : 1 ≤ s.cfg.t.nIdlePolls)
    (hp : (unpackSearch p).ldf = false) (hs : s.environment = .refBus b) (hne : b.devices ≠ [])
    (hfamily : ∀ a ∈ b.devices, familyOf a ≠ 0) :
    ∃ slots, exec (.search p) s = .next (finished s slots
      { Res.empty with
        found := some true
        addr := some (stateAfter b.devices (unpackSearch p)).rom
        ss := some (packSearch (stateAfter b.devices (unpackSearch p))) }
      (.refBus (b.moveTo .other))) := by
  obtain ⟨slots, hexec⟩ := exec_search_refBus hidle hp hs hne
  have hgo : (walkAmong b.devices (unpackSearch p)).aborted = false :=
    Bool.eq_false_iff.mpr fun habort =>
      (walkOver_aborted_iff.mp habort).elim nofun (devicePairs_go 64 (Walk.start (unpackSearch p)) hne)
  have hldf : (walkAmong b.devices (unpackSearch p)).s.ldf = false := (walkOver_ldf _ _).trans hp
  rw [walkResult_of_found hgo (hfamily _ (walkAmong_mem hne)) hldf] at hexec
  exact ⟨slots, hexec⟩

/-- A device has no branch from itself, so a lone device is the last. -/
theorem IsLastBranch.eq_zero_of_lone {a : Addr} {d : Nat} (h : IsLastBranch [a] a d) : d = 0 := by
  by_contra hd
  obtain ⟨x, hx, hparts⟩ := h.branch hd
  obtain rfl := List.mem_singleton.mp hx
  exact absurd (hparts.zero.symm.trans hparts.one) Bool.false_ne_true

/-- On a bus with one device, the state returned has it as ROM and is exhausted. -/
theorem FoundLast.eq_of_lone {a : Addr} {ss : SearchState} (h : FoundLast [a] ss) : ss = { rom := a, ld := 0, ldf := true } := by
  obtain ⟨rom, ld, ldf⟩ := ss
  obtain ⟨hmem, hlast, hldf⟩ := h
  obtain rfl : rom = a := List.mem_singleton.mp hmem
  obtain rfl : ld = 0 := hlast.eq_zero_of_lone
  rw [show ldf = true from hldf]

/-- Settles O39: the device found is the lone one, and the state returned is exhausted. -/
theorem loneDeviceIsFoundOnce : Obligations.LoneDeviceIsFoundOnce := by
  intro a script phase s hidle hfamily hs
  have hne : [a] ≠ [] := List.cons_ne_nil a []
  obtain ⟨slots, hexec⟩ := exec_search_finds (p := 0) hidle rfl hs hne (List.forall_mem_singleton.mpr hfamily)
  have hpack : packSearch { rom := a, ld := 0, ldf := true } = (0x80#8 ++ a : BitVec 72) := packSearch_eq_append rfl
  have hset : (unpackSearch (0x80#8 ++ a : BitVec 72)).ldf = true := by
    rw [← hpack, unpackSearch_packSearch (Nat.succ_pos 127)]
  rw [(foundLast_stateAfter hne (unpackSearch 0)).eq_of_lone, hpack] at hexec
  exact ⟨_, hexec, rfl, _, exec_search_exhausted _ hset, rfl, List.append_nil _⟩

/-! ### The whole enumeration (42_search.md R162) -/

/-- The devices that come after an address. -/
def devicesAfter (devices : List Addr) (a : Addr) : List Addr :=
  devices.filter fun x => a.reverse.toNat < x.reverse.toNat

/-- The devices that an enumeration has still to return. -/
def remaining (devices : List Addr) (ss : SearchState) : List Addr :=
  if ss.ld = 0 then devices else devicesAfter devices ss.rom

theorem mem_devicesAfter {devices : List Addr} {a x : Addr} : x ∈ devicesAfter devices a ↔ x ∈ devices ∧ Before a x := by
  simp [devicesAfter, before_iff]

theorem mem_remaining {devices : List Addr} {ss : SearchState} {x : Addr} :
    x ∈ remaining devices ss ↔ x ∈ devices ∧ (ss.ld ≠ 0 → Before ss.rom x) := by
  by_cases hld : ss.ld = 0 <;> simp [remaining, hld, mem_devicesAfter]

theorem Before.trans {x y z : Addr} (hxy : Before x y) (hyz : Before y z) : Before x z :=
  before_iff.mpr (hxy.reverse_lt.trans hyz.reverse_lt)

theorem not_before_self (x : Addr) : ¬Before x x := fun h => lt_irrefl _ h.reverse_lt

/-- The device found is the first of the remaining ones. -/
theorem remaining_perm {devices : List Addr} (hne : devices ≠ []) (hnodup : devices.Nodup) {ss : SearchState}
    (hss : Enumerates devices ss) :
    (remaining devices ss).Perm
      ((stateAfter devices ss).rom :: devicesAfter devices (stateAfter devices ss).rom) := by
  have hafter : (devicesAfter devices (stateAfter devices ss).rom).Nodup := hnodup.filter _
  have hrest : (remaining devices ss).Nodup := by
    unfold remaining
    split
    · exact hnodup
    · exact hnodup.filter _
  refine (List.perm_ext_iff_of_nodup hrest (hafter.cons fun h => not_before_self _ (mem_devicesAfter.mp h).2)).mpr
    fun x => ?_
  rw [List.mem_cons, mem_remaining, mem_devicesAfter]
  constructor
  · rintro ⟨hx, hlater⟩
    by_cases heq : x = (stateAfter devices ss).rom
    · exact .inl heq
    rcases before_or_before heq with hbefore | hbefore
    · obtain ⟨hld, hnot⟩ := not_before_of_before_walkAmong hne hss hx hbefore
      exact absurd (hlater hld) hnot
    · exact .inr ⟨hx, hbefore⟩
  · rintro (rfl | ⟨hx, hbefore⟩)
    · exact ⟨walkAmong_mem hne, before_walkAmong hne hss⟩
    · exact ⟨hx, fun hld => (before_walkAmong hne hss hld).trans hbefore⟩

/-- What the host's loop returned: the devices expected, in order, then no device, and an exhausted Search State. -/
structure EnumeratesTo (expected : List Addr) (r : List Addr × PackedSearch × State) : Prop where
  perm : r.1.Perm expected
  sorted : r.1.Pairwise fun a b => a.reverse.toNat < b.reverse.toNat
  ended : r.2.2.res.found = some false
  exhausted : (unpackSearch r.2.1).ldf = true

/-- From an exhausted Search State, none. -/
theorem enumerate_exhausted {p : PackedSearch} (hp : (unpackSearch p).ldf = true) (n : Nat) (s : State) :
    EnumeratesTo [] (enumerate (n + 1) p s) := by
  rw [enumerate, exec_search_exhausted s hp]
  exact ⟨.refl _, .nil, rfl, hp⟩

/-- A SEARCH that finds a device is followed by the enumeration from the Search State it returned. -/
theorem enumerate_succ {p q : PackedSearch} {s t : State} {a : Addr} (hexec : exec (.search p) s = .next t)
    (haddr : t.res.addr = some a) (hss : t.res.ss = some q) (n : Nat) :
    enumerate (n + 1) p s = (a :: (enumerate n q t).1, (enumerate n q t).2) := by
  simp only [enumerate, hexec, haddr, hss]

/-- A device before all those that the rest of the enumeration returns. -/
theorem EnumeratesTo.cons {a : Addr} {devices expected : List Addr} {r : List Addr × PackedSearch × State}
    (h : EnumeratesTo (devicesAfter devices a) r) (hperm : expected.Perm (a :: devicesAfter devices a)) :
    EnumeratesTo expected (a :: r.1, r.2) where
  perm := (h.perm.cons a).trans hperm.symm
  sorted := List.pairwise_cons.mpr
    ⟨fun _ hx => (mem_devicesAfter.mp (h.perm.mem_iff.mp hx)).2.reverse_lt, h.sorted⟩
  ended := h.ended
  exhausted := h.exhausted

/-- No device comes after one found exactly if its index is 0. -/
theorem FoundLast.devicesAfter_eq_nil_iff {devices : List Addr} {ss : SearchState} (h : FoundLast devices ss) :
    devicesAfter devices ss.rom = [] ↔ ss.ld = 0 := by
  obtain ⟨-, hlast, -⟩ := h
  constructor
  · intro hnil
    by_contra hld
    obtain ⟨x, hx, hparts⟩ := hlast.branch hld
    have hmem : x ∈ devicesAfter devices ss.rom :=
      mem_devicesAfter.mpr ⟨hx, ss.ld, Nat.one_le_iff_ne_zero.mpr hld, hlast.le, hparts⟩
    exact List.not_mem_nil (hnil ▸ hmem)
  · intro hld
    rw [hld] at hlast
    exact List.eq_nil_iff_forall_not_mem.mpr fun x hx =>
      hlast.not_before (mem_devicesAfter.mp hx).1 (mem_devicesAfter.mp hx).2

section enumeration
variable {devices : List Addr} (hne : devices ≠ []) (hnodup : devices.Nodup) (hfamily : ∀ a ∈ devices, familyOf a ≠ 0)
include hne hnodup hfamily

/-- One step of the enumeration, if the rest goes as it should from every state it may leave. -/
theorem enumerate_step {p : PackedSearch} {s : State} {b : RefBus} {n : Nat} (hidle : 1 ≤ s.cfg.t.nIdlePolls)
    (hs : s.environment = .refBus b) (hb : b.devices = devices) (hp : (unpackSearch p).ldf = false)
    (hss : Enumerates devices (unpackSearch p))
    (hrest : ∀ t : State, 1 ≤ t.cfg.t.nIdlePolls → t.environment = .refBus (b.moveTo .other) →
      EnumeratesTo (devicesAfter devices (stateAfter devices (unpackSearch p)).rom)
        (enumerate n (packSearch (stateAfter devices (unpackSearch p))) t)) :
    EnumeratesTo (remaining devices (unpackSearch p)) (enumerate (n + 1) p s) := by
  subst hb
  obtain ⟨slots, hexec⟩ := exec_search_finds hidle hp hs hne hfamily
  rw [enumerate_succ hexec rfl rfl]
  refine EnumeratesTo.cons (hrest _ ?_ ?_) (remaining_perm hne hnodup hss)
  · exact hidle
  · rfl

/-- After a device found, the enumeration returns those that come after it. -/
theorem enumerate_foundLast {n : Nat} {ss : SearchState} {s : State} {b : RefBus} (hidle : 1 ≤ s.cfg.t.nIdlePolls)
    (hs : s.environment = .refBus b) (hb : b.devices = devices) (hss : FoundLast devices ss)
    (hn : (devicesAfter devices ss.rom).length = n) :
    EnumeratesTo (devicesAfter devices ss.rom) (enumerate (n + 1) (packSearch ss) s) := by
  have hunpack := hss.unpack_pack
  induction n generalizing ss s b with
  | zero =>
    have hnil := List.length_eq_zero_iff.mp hn
    have hset : ss.ldf = true := hss.ldf.trans (decide_eq_true (hss.devicesAfter_eq_nil_iff.mp hnil))
    rw [hnil]
    exact enumerate_exhausted (by rw [hunpack, hset]) 0 s
  | succ n ih =>
    have hld : ss.ld ≠ 0 := fun hld => by
      rw [hss.devicesAfter_eq_nil_iff.mpr hld] at hn
      exact absurd hn (Nat.succ_ne_zero n).symm
    have hremaining : remaining devices ss = devicesAfter devices ss.rom := if_neg hld
    have hnext := foundLast_stateAfter hne ss
    have hcount := (remaining_perm hne hnodup hss.enumerates).length_eq
    rw [hremaining, hn, List.length_cons] at hcount
    have hstep := enumerate_step hne hnodup hfamily (p := packSearch ss) (n := n + 1) hidle hs hb
      (by rw [hunpack, hss.ldf]; exact decide_eq_false hld) (by rw [hunpack]; exact hss.enumerates)
      (by
        rw [hunpack]
        exact fun t ht henv => ih ht henv hb hnext (Nat.succ.inj hcount).symm hnext.unpack_pack)
    rwa [hunpack, hremaining] at hstep

end enumeration

/-- Settles O40: the first SEARCH finds the first device, and the others follow in order (`enumerate_foundLast`). -/
theorem enumerationReturnsEveryDeviceOnce : Obligations.EnumerationReturnsEveryDeviceOnce := by
  intro devices script phase s hlaw hs hne hnodup hfamily
  obtain ⟨-, -, hidle, -⟩ := hlaw
  have hfresh : Enumerates devices (unpackSearch 0) := fun hld => absurd rfl hld
  have hnext := foundLast_stateAfter hne (unpackSearch 0)
  have hcount : devices.length = _ := (remaining_perm hne hnodup hfresh).length_eq
  obtain ⟨hperm, hsorted, hended, hexhausted⟩ := enumerate_step hne hnodup hfamily (p := 0) hidle hs rfl rfl hfresh
    fun t ht henv => enumerate_foundLast hne hnodup hfamily ht henv rfl hnext rfl
  rw [List.length_cons] at hcount
  rw [← hcount] at hperm hsorted hended hexhausted
  exact ⟨_, _, _, rfl, hperm, hsorted, hended, hexhausted⟩

end Sys2Proof.Machine

/-! ## The integrity codecs (43_crc.md)

Both CRCs are a reflected division: a byte is eight rounds of `crcRound` from the accumulator XOR the byte (`step8_eq`, `step16_eq`). A round is additive over XOR,
and one to one where the polynomial has its top bit; the laws and the detection of errors follow from these two facts. -/

namespace Sys2Proof.Machine

/-! ### A reflected division round (43_crc.md R180, R188) -/

/-- One round of a reflected CRC: shift right, and XOR the polynomial if the bit shifted out was 1. -/
def crcRound {w : Nat} (poly c : BitVec w) : BitVec w := if c.getLsbD 0 then (c >>> 1) ^^^ poly else c >>> 1

/-- Rounds are additive over XOR. -/
theorem crcRound_iterate_xor {w : Nat} (poly : BitVec w) (n : Nat) (u v : BitVec w) :
    (crcRound poly)^[n] (u ^^^ v) = (crcRound poly)^[n] u ^^^ (crcRound poly)^[n] v := by
  have hround : Function.Semiconj₂ (crcRound poly) (· ^^^ ·) (· ^^^ ·) := fun u v => by
    unfold crcRound
    rw [BitVec.getLsbD_xor, BitVec.ushiftRight_xor_distrib]
    cases u.getLsbD 0 <;> cases v.getLsbD 0
    · rfl
    · exact BitVec.xor_assoc ..
    · show (u >>> 1 ^^^ v >>> 1) ^^^ poly = (u >>> 1 ^^^ poly) ^^^ v >>> 1
      ac_rfl
    · show u >>> 1 ^^^ v >>> 1 = (u >>> 1 ^^^ poly) ^^^ (v >>> 1 ^^^ poly)
      rw [BitVec.xor_assoc, BitVec.xor_comm poly, BitVec.xor_assoc, BitVec.xor_self, BitVec.xor_zero]
  exact hround.iterate n u v

/-- The bit shifted out of a round stands in the top bit of its result. -/
theorem crcRound_msb {w : Nat} {poly : BitVec (w + 1)} (hpoly : poly.msb = true) (c : BitVec (w + 1)) :
    (crcRound poly c).msb = c.getLsbD 0 := by
  unfold crcRound
  cases h : c.getLsbD 0 <;> simp [hpoly, BitVec.msb_ushiftRight]

/-- Rounds are one to one where the polynomial has its top bit. -/
theorem crcRound_injective {w : Nat} {poly : BitVec (w + 1)} (hpoly : poly.msb = true) :
    Function.Injective (crcRound poly) := by
  intro u v h
  have hbit : u.getLsbD 0 = v.getLsbD 0 := by
    rw [← crcRound_msb hpoly, ← crcRound_msb hpoly, h]
  have hshift : u >>> 1 = v >>> 1 := by
    unfold crcRound at h
    rw [hbit] at h
    split at h
    · exact (BitVec.xor_left_inj poly).mp h
    · exact h
  refine BitVec.eq_of_getLsbD_eq fun i _ => ?_
  cases i with
  | zero => exact hbit
  | succ i => simpa [Nat.add_comm] using congrArg (·.getLsbD i) hshift

/-- As long as no 1 bit comes to the end, rounds only shift. -/
theorem crcRound_iterate_eq_shift {w : Nat} (poly : BitVec w) (n : Nat) {c : BitVec w} (h : ∀ i < n, c.getLsbD i = false) :
    (crcRound poly)^[n] c = c >>> n := by
  induction n generalizing c with
  | zero => rfl
  | succ n ih =>
    have hfirst : crcRound poly c = c >>> 1 := by simp [crcRound, h 0 n.succ_pos]
    rw [Function.iterate_succ_apply, hfirst, ih fun i hi => by simpa using h (1 + i) (by omega),
      ← BitVec.shiftRight_add, Nat.add_comm]

/-! ### One byte of CRC-8 (43_crc.md R180 to R182) -/

/-- A shift round of CRC-8 is a reflected round on the accumulator XOR the byte. -/
theorem crc8Round_xor (p : Byte × Byte) :
    (crc8Round p).1 ^^^ (crc8Round p).2 = crcRound 0x8C (p.1 ^^^ p.2) := by
  unfold crc8Round crcRound
  rw [BitVec.ushiftRight_xor_distrib]
  cases (p.1 ^^^ p.2).getLsbD 0
  · rfl
  · show (p.1 >>> 1 ^^^ 0x8C) ^^^ p.2 >>> 1 = (p.1 >>> 1 ^^^ p.2 >>> 1) ^^^ 0x8C
    ac_rfl

theorem crc8Rounds_xor (n : Nat) (p : Byte × Byte) :
    (crc8Rounds n p).1 ^^^ (crc8Rounds n p).2 = (crcRound 0x8C)^[n] (p.1 ^^^ p.2) := by
  induction n generalizing p with
  | zero => rfl
  | succ n ih => rw [crc8Rounds, ih, crc8Round_xor, Function.iterate_succ_apply]

theorem crc8Rounds_snd (n : Nat) (p : Byte × Byte) : (crc8Rounds n p).2 = p.2 >>> n := by
  induction n generalizing p with
  | zero => rfl
  | succ n ih =>
    have hfirst : (crc8Round p).2 = p.2 >>> 1 := rfl
    rw [crc8Rounds, ih, hfirst, ← BitVec.shiftRight_add, Nat.add_comm]

/-- A byte of CRC-8 is eight rounds from the accumulator XOR the byte. -/
theorem step8_eq (crc b : Byte) : step8 crc b = (crcRound 0x8C)^[8] (crc ^^^ b) := by
  have hempty : (crc8Rounds 8 (crc, b)).2 = 0#8 := (crc8Rounds_snd 8 _).trans (BitVec.ushiftRight_eq_zero le_rfl)
  calc step8 crc b = (crc8Rounds 8 (crc, b)).1 ^^^ (crc8Rounds 8 (crc, b)).2 := by rw [hempty, BitVec.xor_zero]; rfl
    _ = _ := crc8Rounds_xor 8 (crc, b)

/-- Rounds being one to one, only the byte equal to the accumulator leaves 0. -/
theorem step8_eq_zero_iff (crc b : Byte) : step8 crc b = 0 ↔ crc = b := by
  have hzero : (crcRound 0x8C#8)^[8] 0#8 = 0#8 := by decide
  rw [step8_eq]
  exact (((crcRound_injective rfl).iterate 8).eq_iff' hzero).trans BitVec.xor_eq_zero_iff

theorem crc8_concat (d : List Byte) (b : Byte) : crc8 (d ++ [b]) = step8 (crc8 d) b := List.foldl_append

/-! ### The constant tables (43_crc.md R181, R184) -/

theorem crc8Table_getElem? (x : Byte) : crc8Table[x.toNat]? = some (step8 0 x) := by
  revert x
  decide

/-- Settles O44: entry by entry, a sequence of one byte being one step from 0. -/
theorem constantTablesMeetTheirRules : Obligations.ConstantTablesMeetTheirRules := by
  refine ⟨crc8Table_length, rfl, fun k hk => ?_, by decide⟩
  have hentry := crc8Table_getElem? (BitVec.ofNat 8 k)
  rwa [BitVec.toNat_ofNat, Nat.mod_eq_of_lt hk] at hentry

/-! ### The two methods of CRC-8 (43_crc.md R182) -/

/-- A byte depends on the accumulator XOR the byte alone. -/
theorem crc8Table_getElem?_xor (crc b : Byte) : crc8Table[(crc ^^^ b).toNat]? = some (step8 crc b) := by
  rw [crc8Table_getElem?, step8_eq, step8_eq crc]
  exact congrArg (some <| (crcRound _)^[8] ·) BitVec.zero_xor

theorem tableStep8_eq : tableStep8 = step8 := by
  funext crc b
  rw [tableStep8, List.getD_eq_getElem?_getD, crc8Table_getElem?_xor, Option.getD_some]

theorem crc8ByTable_eq (d : List Byte) : crc8ByTable d = crc8 d := by
  rw [crc8ByTable, tableStep8_eq, crc8]

/-- The configured method does not show (00_scope.md R8). -/
theorem crc8With_eq (m : Crc8Impl) (d : List Byte) : crc8With m d = crc8 d := by
  cases m with
  | bitwise => rfl
  | table => exact crc8ByTable_eq d

/-- Settles O45: the table is indexed by the accumulator XOR the byte (`crc8Table_getElem?_xor`). -/
theorem tableMethodEqualsBitwise : Obligations.TableMethodEqualsBitwise :=
  ⟨crc8Table_getElem?_xor, crc8ByTable_eq, fun m m' d => (crc8With_eq m d).trans (crc8With_eq m' d).symm⟩

/-! ### The laws of CRC-8 (43_crc.md R189) -/

/-- Settles O47: the last byte leaves 0 exactly if it is the CRC-8 of those before it. -/
theorem crc8SelfCheck : Obligations.Crc8SelfCheck := by
  refine ⟨rfl, fun d => ?_, fun a => ?_⟩
  · rw [crc8_concat]
    exact (step8_eq_zero_iff _ _).mpr rfl
  · have hbytes : bytesLe a = (bytesLe a).take 7 ++ [a.extractLsb' 56 8] := rfl
    rw [hbytes, crc8_concat, validRom, beq_iff_eq]
    exact (step8_eq_zero_iff _ _).symm

/-! ### One byte of CRC-16 (43_crc.md R183, R188) -/

/-- The parity's correction and the two folds of a byte are eight rounds from that byte. -/
theorem step16_zero (x : Byte) : step16 0 x = (crcRound 0xA001)^[8] (x.setWidth 16) := by
  revert x
  decide

/-- The accumulator's low byte acts as a part of the byte, and its high byte only comes down. -/
theorem step16_split (crc : U16) (b : Byte) :
    step16 crc b = crc >>> 8 ^^^ step16 0 (b ^^^ crc.extractLsb' 0 8) := by
  have hbyte (x : Byte) : x ^^^ (0 : U16).extractLsb' 0 8 = x := BitVec.xor_zero
  simp only [step16, hbyte]
  cases parityOf (b ^^^ crc.extractLsb' 0 8) <;> simp [BitVec.xor_assoc]

/-- The byte enters the low byte of the accumulator; the high byte stays. -/
theorem xor_setWidth_split (crc : U16) (b : Byte) :
    crc ^^^ b.setWidth 16 = crc >>> 8 <<< 8 ^^^ (b ^^^ crc.extractLsb' 0 8).setWidth 16 := by
  refine BitVec.eq_of_getLsbD_eq fun i hi => ?_
  by_cases hlow : i < 8
  · simp [hlow, hi, Bool.xor_comm]
  · simp [hlow, hi, show 8 + (i - 8) = i by omega]

/-- A byte of CRC-16 is eight rounds from the accumulator XOR the byte, for the rounds of its high byte only shift. -/
theorem step16_eq (crc : U16) (b : Byte) : step16 crc b = (crcRound 0xA001)^[8] (crc ^^^ b.setWidth 16) := by
  have hhigh : (crcRound 0xA001)^[8] (crc >>> 8 <<< 8) = crc >>> 8 := by
    rw [crcRound_iterate_eq_shift _ _ fun i hi => by simp [hi]]
    refine BitVec.eq_of_getLsbD_eq fun i _ => ?_
    simpa using BitVec.lt_of_getLsbD
  rw [xor_setWidth_split, crcRound_iterate_xor, hhigh, ← step16_zero]
  exact step16_split crc b

/-- Settles O46: `step16_eq`, the round written out. -/
theorem crc16ByteIsTheReflectedCrc : Obligations.Crc16ByteIsTheReflectedCrc := step16_eq

/-! ### The laws of CRC-16 (43_crc.md R190) -/

theorem crc16_append (d e : List Byte) (s : U16) : crc16 (d ++ e) s = crc16 e (crc16 d s) := List.foldl_append

theorem crc16_zeros (n : Nat) : crc16 (List.replicate n 0) 0 = 0 := by
  have hstep : step16 0 0 = 0 := by decide
  induction n with
  | zero => rfl
  | succ n ih => rw [List.replicate_succ, crc16, List.foldl_cons, hstep]; exact ih

/-- Eight rounds of CRC-16 are one to one. -/
theorem crc16Rounds_injective : Function.Injective (crcRound (0xA001 : U16))^[8] :=
  (crcRound_injective (by decide)).iterate 8

/-- From one accumulator, different bytes leave different ones. -/
theorem step16_injective (crc : U16) : Function.Injective (step16 crc) := by
  intro b b' h
  rw [step16_eq, step16_eq] at h
  have hwide := (BitVec.xor_right_inj crc).mp (crc16Rounds_injective h)
  simpa using congrArg (BitVec.setWidth 8) hwide

/-- The same data from different accumulators leaves different ones. -/
theorem crc16_injective (d : List Byte) : Function.Injective (crc16 d) := by
  induction d with
  | nil => exact Function.injective_id
  | cons b d ih =>
    intro s s' h
    have hstep : step16 s b = step16 s' b := ih h
    rw [step16_eq, step16_eq] at hstep
    exact (BitVec.xor_left_inj _).mp (crc16Rounds_injective hstep)

/-- Data that differs in one byte has another CRC-16. -/
theorem crc16_ne_of_byte_ne (d e : List Byte) {b b' : Byte} (hb : b ≠ b') (seed : U16) :
    crc16 (d ++ b :: e) seed ≠ crc16 (d ++ b' :: e) seed := by
  rw [crc16_append, crc16_append]
  exact fun h => hb (step16_injective _ (crc16_injective e h))

/-! ### The commands (43_crc.md R185 to R187) -/

/-- `RES.ok` compares the two bytes, the low one first. -/
theorem okOf_eq (c : U16) (rx0 rx1 : Byte) : okOf c rx0 rx1 = decide (c = rx1 ++ rx0) := by
  rw [okOf, Bool.eq_iff_iff]
  simp only [Bool.and_eq_true, beq_iff_eq, decide_eq_true_eq]
  constructor
  · rintro ⟨rfl, rfl⟩
    exact (BitVec.extractLsb'_append_extractLsb' (w := 8) (len := 8)).symm
  · rintro rfl
    exact ⟨BitVec.extractLsb'_append_eq_right, BitVec.extractLsb'_append_eq_left⟩

theorem exec_crc8 (data : List Byte) (s : State) :
    exec (.crc8 data) s = .next (finished s [] { Res.empty with crc8 := some (crc8 data) } s.environment) := by
  rw [← crc8With_eq s.cfg.crc8Impl]
  exact runCommand_done _ _ s

theorem exec_crc16 (data : List Byte) (seed : U16) (s : State) :
    exec (.crc16 data seed) s =
      .next (finished s [] { Res.empty with crc16 := some (crc16 data seed) } s.environment) :=
  runCommand_done _ _ s

theorem exec_checkCrc16 (data : List Byte) (seed : U16) (rx0 rx1 : Byte) (s : State) :
    exec (.checkCrc16 data seed rx0 rx1) s =
      .next (finished s [] { Res.empty with ok := some (decide (~~~crc16 data seed = rx1 ++ rx0)) } s.environment) := by
  rw [← okOf_eq]
  exact runCommand_done _ _ s

/-- Settles O42: CRC8 makes no call, and its method does not show (`crc8With_eq`). -/
theorem crc8CommandByEitherMethod : Obligations.Crc8CommandByEitherMethod := exec_crc8

/-- Settles O43: neither command makes a call. -/
theorem crc16CommandsCompleteWithTheirResults : Obligations.Crc16CommandsCompleteWithTheirResults :=
  fun data seed s => ⟨exec_crc16 data seed s, fun rx0 rx1 => exec_checkCrc16 data seed rx0 rx1 s⟩

/-- CHECK_CRC16 with the bytes of an inverted CRC accepts the data that has that CRC, and no other. -/
theorem exec_checkCrc16_bytes (data : List Byte) (seed c : U16) (s : State) :
    exec (.checkCrc16 data seed ((~~~c).extractLsb' 0 8) ((~~~c).extractLsb' 8 8)) s =
      .next (finished s [] { Res.empty with ok := some (decide (crc16 data seed = c)) } s.environment) := by
  rw [exec_checkCrc16, BitVec.extractLsb'_append_extractLsb' (w := 8) (len := 8)]
  simp only [BitVec.not_inj]

/-- Settles O48: the CRC is a fold, zeros keep 0, and CHECK_CRC16 answers by `exec_checkCrc16_bytes`. -/
theorem crc16Laws : Obligations.Crc16Laws :=
  ⟨fun _ => rfl, crc16_append, crc16_zeros, fun d seed s =>
    ⟨_, exec_checkCrc16_bytes d seed _ s, congrArg some (decide_eq_true rfl)⟩⟩

/-- Settles O49: the flipped byte is another byte, so the CRC is another one (`crc16_ne_of_byte_ne`). -/
theorem crc16DetectsEverySingleBitError : Obligations.Crc16DetectsEverySingleBitError := by
  intro d e b k seed s hk
  have hmask : ∀ k < 8, 1#8 <<< k ≠ 0#8 := by decide
  have hflip : b ^^^ (1#8 <<< k) ≠ b := fun h =>
    hmask k hk ((BitVec.xor_right_inj b).mp (h.trans BitVec.xor_zero.symm))
  exact ⟨_, exec_checkCrc16_bytes _ seed _ s, congrArg some (decide_eq_false (crc16_ne_of_byte_ne d e hflip seed))⟩

/-- A codec command leaves results that are the same from every state, and issues no slot. -/
theorem exec_codec {data : List Byte} {seed : U16} {rx0 rx1 : Byte} {i : Instr}
    (hi : i ∈ [Instr.crc8 data, .crc16 data seed, .checkCrc16 data seed rx0 rx1]) :
    ∃ r, ∀ s, exec i s = .next (finished s [] r s.environment) := by
  simp only [List.mem_cons, List.not_mem_nil, or_false] at hi
  rcases hi with rfl | rfl | rfl
  · exact ⟨_, exec_crc8 data⟩
  · exact ⟨_, exec_crc16 data seed⟩
  · exact ⟨_, exec_checkCrc16 data seed rx0 rx1⟩

/-- Settles O50: from two states, a codec command ends with the same results (`exec_codec`) and no slot's events. -/
theorem codecsDependOnOperandsAlone : Obligations.CodecsDependOnOperandsAlone := by
  intro data seed rx0 rx1 i hi s s'
  obtain ⟨r, hexec⟩ := exec_codec hi
  exact ⟨_, _, hexec s, hexec s', rfl, rfl, rfl, List.append_nil _, rfl, rfl⟩

end Sys2Proof.Machine

/-! ## Command faults and separate instances (60_exceptions.md)

A command that fails check (4) of R85 is the encoding of a SEARCH that is not well-formed (`decode_eq_searchStateRange_iff`). A command that decodes
ends with a value in every field of its row (`CommandEnds.mustWrite_subset`). That a fault stays, and that the blocks of a system stay apart, is read off what a
step can do. -/

namespace Sys2Proof

/-! ### The last decode check (30_encoding.md R85, 60_exceptions.md R203) -/

/-- A command is refused by check (4) of R85 exactly if it passes the checks before it, to an operation its row builds, and fails this one. -/
theorem decode_eq_searchStateRange {c : Command} :
    decode c = .error .searchStateRange ↔ ∃ r i, rowOf (opField c.cw) = some r ∧ fieldsFit r c.cw = true ∧
      operandsFit r c = true ∧ buildInstr r.op c = some i ∧ searchStateFits c = false := by
  unfold decode
  cases hrow : rowOf (opField c.cw) with
  | none => simp
  | some r =>
    cases hf : fieldsFit r c.cw <;> cases ho : operandsFit r c <;> cases hb : buildInstr r.op c <;>
      cases searchStateFits c <;> simp [hf, ho, hb]

/-- Only SEARCH carries an index that check (4) of R85 can find out of range. -/
theorem searchStateFits_encode_eq_false_iff {i : Instr} :
    searchStateFits (encode i) = false ↔ ∃ p, i = .search p ∧ discrepancyFits p = false := by
  cases i <;> simp [encode, searchStateFits, discrepancyFits]

/-- The encoding of a SEARCH whose index is out of range fails check (4) of R85, and no other command does. -/
theorem decode_eq_searchStateRange_iff {c : Command} :
    decode c = .error .searchStateRange ↔ ∃ p, c = encode (.search p) ∧ discrepancyFits p = false := by
  rw [decode_eq_searchStateRange]
  constructor
  · rintro ⟨r, i, hrow, hfields, hoperands, hbuild, hindex⟩
    obtain ⟨hmem, hcode⟩ := rowOf_eq_some_iff.mp hrow
    obtain rfl := encode_of_buildInstr hmem (mkWord_of_fieldsFit hcode hfields) hoperands hbuild
    obtain ⟨p, rfl, hp⟩ := searchStateFits_encode_eq_false_iff.mp hindex
    exact ⟨p, rfl, hp⟩
  · rintro ⟨p, rfl, hp⟩
    obtain ⟨r, -, hrow, hword, hdata, hrom, hseed, hrx, hss⟩ := tableWord (.search p)
    exact ⟨r, .search p, hrow, ((word_matches_iff r _).mp hword).2,
      operandsFit_iff.mpr ⟨hdata, hrom, hseed, hrx, hss, rfl⟩, buildInstr_encode hrow,
      searchStateFits_encode_eq_false_iff.mpr ⟨p, rfl, hp⟩⟩

/-- An index is out of range exactly above 64 (10_state.md R32). -/
theorem discrepancyFits_eq_false_iff {p : PackedSearch} : discrepancyFits p = false ↔ 64 < (p.extractLsb' 64 7).toNat :=
  decide_eq_false_iff_not.trans Nat.not_le

end Sys2Proof

namespace Sys2Proof.Machine

/-- Only check (4) of R85 reports BAD_SEARCH_STATE. -/
theorem causeOf_eq_badSearchState_iff {e : DecodeError} : causeOf e = .badSearchState ↔ e = .searchStateRange := by
  cases e <;> decide

/-- Every other check reports ILLEGAL_COMMAND. -/
theorem causeOf_cases (e : DecodeError) : causeOf e = .badSearchState ∨ causeOf e = .illegalCommand := by
  cases e <;> decide

/-- Settles O8: BAD_SEARCH_STATE is the cause of check (4) alone, which only a SEARCH with an index above 64 fails. -/
theorem badSearchStateOnlyAfterEveryOtherCheck : Obligations.BadSearchStateOnlyAfterEveryOtherCheck := by
  intro c e hdecode
  refine ⟨causeOf_cases e, ?_⟩
  calc causeOf e = .badSearchState
    _ ↔ decode c = .error .searchStateRange := by rw [causeOf_eq_badSearchState_iff, hdecode, Except.error.injEq]
    _ ↔ ∃ p, c = encode (.search p) ∧ discrepancyFits p = false := decode_eq_searchStateRange_iff
    _ ↔ _ := exists_congr fun _ => and_congr_right fun _ => discrepancyFits_eq_false_iff

/-! ### Commands and block reset on a faulted block (60_exceptions.md R200, R202) -/

/-- A command that the block does not admit has no step. -/
theorem step_not_admitted {s : State} {c : Command} {w : Bool} {pace : Pace} {rest : List HostInput} {f : Fault}
    (h : s.inbox = .command c w pace :: rest) (hadmit : admission w s = some f) : step s = .fault f := by
  rw [step_taken h rfl, stepInput, stepCommand, show admission w { s with inbox := rest } = some f from hadmit]

/-- A faulted block that is not busy admits no command. -/
theorem admission_of_faulted {s : State} (w : Bool) (hbusy : s.status.busy = false) (hfaulted : s.status.faulted = true) :
    admission w s = some .commandToFaultedBlock := by
  simp [admission, hbusy, hfaulted]

/-- Settles O7: the fault is taken (`step_malformed`), and the faulted block admits no command. -/
theorem malformedCommandTakesTheFault : Obligations.MalformedCommandTakesTheFault := by
  intro s c w pace rest e hin hacc hdecode
  exact ⟨step_malformed hin hacc hdecode, causeOf_ne_none e,
    fun _ w' _ _ => step_not_admitted rfl (admission_of_faulted w' rfl rfl)⟩

/-- Block reset is taken while the block is not busy (70_reset_and_hazards.md R230). -/
theorem step_blockReset {s : State} {rest : List HostInput} (h : s.inbox = .blockReset :: rest) (hbusy : s.status.busy = false) :
    step s = .next (blockReset { s with inbox := rest }) := by
  simp [step_taken h rfl, stepInput, hostBlockReset, hbusy]

/-- What stands before the next call leaves FAULTED and FAULT as they are. -/
theorem settle_fault (p : Program) (s : State) :
    (settle p s).status.faulted = s.status.faulted ∧ (settle p s).fault = s.fault := by
  obtain ⟨-, -, hfault, hfaulted, -⟩ := settle_fixed p s
  exact ⟨hfaulted, hfault⟩

/-- Issuing the next call leaves FAULTED and FAULT as they are. -/
theorem advance_fault (p : Program) (s : State) :
    (p.advance s).status.faulted = s.status.faulted ∧ (p.advance s).fault = s.fault := by
  cases p with
  | done r => exact settle_fault _ s
  | call c next =>
    obtain ⟨-, hstatus, hfault, -⟩ := perform_fixed c s
    rw [← hstatus, ← hfault]
    exact settle_fault next (c.perform s)
  | sample k next => exact settle_fault _ (sample k s).2
  | note n next => exact settle_fault _ s

/-- A step of the timing engine leaves FAULTED and FAULT as they are (60_exceptions.md R202, R204). -/
theorem engineStep_fault (s : State) :
    (engineStep s).status.faulted = s.status.faulted ∧ (engineStep s).fault = s.fault := by
  unfold engineStep
  split
  next p _ => exact advance_fault p s
  next => exact ⟨rfl, rfl⟩

/-- Settles O10: by what a step can do (`step_cases`). The engine and a read keep both registers, and a faulted block accepts no command. -/
theorem faultIsStickyUntilBlockReset : Obligations.FaultIsStickyUntilBlockReset := by
  refine ⟨fun s t hstep hfaulted => ?_, fun s rest hin hbusy => ⟨_, step_blockReset hin hbusy, rfl, rfl⟩⟩
  rcases step_cases hstep with ⟨rfl, -⟩ | ⟨c, w, pace, rest, -, ⟨-, hnot, -⟩, -⟩ | ⟨rest, hin, -, -⟩ |
    ⟨f, rest, v, -, -, -, rfl⟩ | ⟨r, rest, -, -, rfl⟩
  · obtain ⟨hfaulted', hfault⟩ := engineStep_fault s
    exact .inl ⟨hfaulted'.trans hfaulted, hfault⟩
  · rw [hfaulted] at hnot; cases hnot
  · exact .inr ⟨rest, hin⟩
  · exact .inl ⟨hfaulted, rfl⟩
  · exact .inl ⟨hfaulted, rfl⟩

/-! ### The results of a command that decodes (60_exceptions.md R204) -/

/-- A walk leaves a value in `found` and `ss`, whatever it found. -/
theorem subset_walkResult_written (w : Walk) : [ResField.found, .ss] ⊆ (walkResult w).written := by
  unfold walkResult
  split
  · exact show [ResField.found, .ss] ⊆ [.found, .addr, .ss] by decide
  · exact List.Subset.refl _

/-- A walk leaves an address exactly with `found = 1` (42_search.md R155 to R157). -/
theorem walkResult_addr_isSome_iff (w : Walk) : (walkResult w).addr.isSome = true ↔ (walkResult w).found = some true := by
  unfold walkResult
  split
  · exact ⟨fun _ => rfl, fun _ => rfl⟩
  · exact ⟨nofun, nofun⟩

/-- A command leaves a value in every field that its row in the table of 10_state.md R20 asks for. -/
theorem CommandEnds.mustWrite_subset {t : Tcfg} {slots : List Slot} {r : Res} {i : Instr} (h : CommandEnds t slots r i) :
    mustWrite i ⊆ r.written := by
  cases i with
  | writeBit | writeByte | writeBytes | select | skipRom => exact List.nil_subset _
  | readBit => obtain ⟨_, -, rfl⟩ := h; exact List.Subset.refl _
  | readByte => obtain ⟨_, -, -, rfl⟩ := h; exact List.Subset.refl _
  | readBytes => obtain ⟨_, -, -, rfl⟩ := h; exact List.Subset.refl _
  | reset => obtain ⟨_, _, -, -, rfl⟩ := h; exact List.Subset.refl _
  | power | depower => exact h.elim
  | resetSearch | targetSearch => obtain ⟨-, rfl⟩ := h; exact List.Subset.refl _
  | search p =>
    rcases h with ⟨-, -, rfl⟩ | ⟨-, _, _, -, ⟨-, -, rfl⟩ | ⟨-, pairs, -, -, rfl⟩⟩
    · exact List.Subset.refl _
    · exact List.Subset.refl _
    · exact subset_walkResult_written _
  | crc8 => obtain ⟨-, _, rfl⟩ := h; exact List.Subset.refl _
  | crc16 => obtain ⟨-, rfl⟩ := h; exact List.Subset.refl _
  | checkCrc16 => obtain ⟨-, rfl⟩ := h; exact List.Subset.refl _

/-- SEARCH leaves an address exactly with `found = 1`. -/
theorem CommandEnds.addr_isSome_iff {t : Tcfg} {slots : List Slot} {r : Res} {p : PackedSearch}
    (h : CommandEnds t slots r (.search p)) : r.addr.isSome = true ↔ r.found = some true := by
  rcases h with ⟨-, -, rfl⟩ | ⟨-, _, _, -, ⟨-, -, rfl⟩ | ⟨-, pairs, -, -, rfl⟩⟩
  · exact ⟨nofun, nofun⟩
  · exact ⟨nofun, nofun⟩
  · exact walkResult_addr_isSome_iff _

/-- READ_BYTES leaves `LEN` bytes. -/
theorem CommandEnds.length_bytes {t : Tcfg} {slots : List Slot} {r : Res} {n : U16}
    (h : CommandEnds t slots r (.readBytes n)) : r.bytes.map List.length = some n.toNat := by
  obtain ⟨ls, -, -, rfl⟩ := h
  exact congrArg some (length_bytesOfBits n.toNat ls)

/-- A field that is written holds a value. -/
theorem Res.read_isSome_of_mem_written {r : Res} {f : ResField} (h : f ∈ r.written) : (r.read f).isSome = true :=
  (List.mem_filter.mp h).2

/-- Settles O9: every command ends (`exec_eq`), and what it leaves is read off `CommandEnds`; POWER and DEPOWER return no results. -/
theorem noFaultAfterDecode : Obligations.NoFaultAfterDecode := by
  intro i s
  refine ⟨_, exec_eq i s, ?_⟩
  rcases exec_cases (exec_eq i s) with ⟨slots, res, env, hends, heq⟩ | ⟨rfl, heq⟩ | ⟨rfl, heq⟩ <;> rw [heq]
  · refine ⟨rfl, rfl, rfl, rfl, fun f hf => Res.read_isSome_of_mem_written (hends.mustWrite_subset hf), ?_, ?_⟩
    · rintro p rfl; exact hends.addr_isSome_iff
    · rintro n rfl; exact hends.length_bytes
  · exact ⟨rfl, rfl, rfl, rfl, nofun, nofun, nofun⟩
  · exact ⟨rfl, rfl, rfl, rfl, nofun, nofun, nofun⟩

/-! ### Instances (60_exceptions.md R220) -/

theorem instantiate_unlawful {others : List State} {cfg : Config} (h : ¬cfg.t.Lawful) :
    instantiate others cfg = .refused .configBreaksLaws := if_pos h

/-- A lawful configuration is refused exactly for its pin. -/
theorem instantiate_lawful {cfg : Config} (h : cfg.t.Lawful) (others : List State) :
    instantiate others cfg = if ∃ o ∈ others, o.cfg.pin = cfg.pin then .refused .pinInUse else .next (State.initial cfg) := by
  rw [instantiate, if_neg (not_not_intro h)]
  simp only [List.any_eq_true, beq_iff_eq]

/-- The instance admitted has a lawful configuration and a pin of its own, and is as after block reset. -/
theorem instantiate_eq_next_iff {others : List State} {cfg : Config} {s : State} :
    instantiate others cfg = .next s ↔
      (cfg.t.Lawful ∧ ∀ o ∈ others, o.cfg.pin ≠ cfg.pin) ∧ s = State.initial cfg := by
  by_cases hlaw : cfg.t.Lawful
  · rw [instantiate_lawful hlaw]
    by_cases hpin : ∃ o ∈ others, o.cfg.pin = cfg.pin
    · have hown : ¬∀ o ∈ others, o.cfg.pin ≠ cfg.pin := fun h => hpin.elim fun o ho => h o ho.1 ho.2
      simp only [if_pos hpin, hown, and_false, false_and, reduceCtorEq]
    · have hown : ∀ o ∈ others, o.cfg.pin ≠ cfg.pin := fun o ho heq => hpin ⟨o, ho, heq⟩
      rw [if_neg hpin, and_iff_right ⟨hlaw, hown⟩, Host.Outcome.next.injEq, eq_comm]
  · simp only [instantiate_unlawful hlaw, hlaw, false_and, reduceCtorEq]

/-- What a step of a system did: nothing, where no instance is at the index, or a step of the instance there. -/
theorem stepAt_cases {k : Nat} {sys sys' : List State} (h : stepAt k sys = .next sys') :
    sys' = sys ∨ ∃ s t, sys[k]? = some s ∧ step s = .next t ∧ sys' = sys.set k t := by
  unfold stepAt at h
  split at h
  next => exact .inl (Host.Outcome.next.inj h).symm
  next s hs =>
    split at h
    next t ht => exact .inr ⟨s, t, hs, ht, (Host.Outcome.next.inj h).symm⟩
    next => cases h
    next => cases h

/-- An instance with the configuration of the one it replaces has its pin. -/
theorem map_pin_set {k : Nat} {sys : List State} {s t : State} (hs : sys[k]? = some s) (hcfg : t.cfg = s.cfg) :
    (sys.set k t).map (fun o => o.cfg.pin) = sys.map fun o => o.cfg.pin := by
  obtain ⟨hk, rfl⟩ := List.getElem?_eq_some_iff.mp hs
  rw [List.map_set, hcfg, ← List.getElem_map (fun o : State => o.cfg.pin) (h := by simpa using hk), List.set_getElem_self]

/-- Settles O60: instantiation by its one equivalence, and a step of a system by the step of one instance, which keeps its configuration (O59). -/
theorem instancesAreSeparate : Obligations.InstancesAreSeparate := by
  refine ⟨fun others cfg => ⟨?_, fun s hs => ?_, instantiate_unlawful, fun hlaw hpin => ?_⟩, fun sys sys' k hstep => ?_⟩
  · simp only [instantiate_eq_next_iff, exists_and_left, exists_eq, and_true]
  · obtain ⟨⟨hlaw, -⟩, rfl⟩ := instantiate_eq_next_iff.mp hs
    exact ⟨rfl, initial_inv hlaw⟩
  · rw [instantiate_lawful hlaw, if_pos hpin]
  · rcases stepAt_cases hstep with rfl | ⟨s, t, hs, ht, rfl⟩
    · exact ⟨fun _ _ => rfl, id⟩
    · obtain ⟨hcfg, -⟩ := wireHistoryOnlyGrows s t ht
      refine ⟨fun j hj => List.getElem?_set_ne hj.symm, fun hpins => ?_⟩
      rwa [pinsDistinct, map_pin_set hs hcfg]

end Sys2Proof.Machine

/-! ## Block reset, runs, and what bounds a command (70_reset_and_hazards.md)

A run is taken command by command: the block has completed each, and stays clean exactly while they decode (`issueAll_ends`). The windows, their delays and the number of
calls are read off the slots of `CommandEnds`. An enumeration need not end, because a walk can lead back to its device with a last zero of the line's choosing
(`walkOver_pairsTowards`). -/

namespace Sys2Proof.Machine

/-! ### The inputs that have no step, and block reset (70_reset_and_hazards.md R230, R236, R243) -/

/-- Block reset has no step while the block is busy (70_reset_and_hazards.md R230). -/
theorem step_blockReset_busy {s : State} {rest : List HostInput} (h : s.inbox = .blockReset :: rest)
    (hbusy : s.status.busy = true) : step s = .fault .blockResetWhileBusy := by
  simp [step_taken h rfl, stepInput, hostBlockReset, hbusy]

/-- Settles O11: block reset is refused while the block is busy (`step_blockReset_busy`) and taken otherwise (`step_blockReset`). -/
theorem blockResetSetsTheResetValues : Obligations.BlockResetSetsTheResetValues :=
  fun _ _ hin => ⟨step_blockReset_busy hin, step_blockReset hin⟩

/-- A busy block admits no command, whatever else would stop it (20_memory.md R64). -/
theorem admission_of_busy {s : State} (w : Bool) (hbusy : s.status.busy = true) :
    admission w s = some .commandWhileBusy := by
  simp [admission, hbusy]

/-- A block that could accept a command admits none from inside the host's window unless the critical section nests (70_reset_and_hazards.md R243). -/
theorem admission_insideWindow {s : State} (hbusy : s.status.busy = false) (hfaulted : s.status.faulted = false)
    (hnest : s.cfg.csNestable = false) : admission true s = some .commandInsideHostWindow := by
  simp [admission, hbusy, hfaulted, hnest]

/-! ### One command of a run, and runs one command longer (70_reset_and_hazards.md R236) -/

/-- A run from a block that is not busy is block reset, then its commands. -/
theorem run_of_not_busy {s : State} (hbusy : s.status.busy = false) (held : HeldStates) (cmds : List HostCommand) :
    run held cmds s = RunState.issueAll cmds { state := blockReset s, results := [], held := held } := by
  have hstep : step (s.present .blockReset) = .next (blockReset s) := step_blockReset rfl hbusy
  rw [run, hstep]

/-- From a busy block there is no run. -/
theorem run_of_busy {s : State} (hbusy : s.status.busy = true) (held : HeldStates) (cmds : List HostCommand) :
    run held cmds s = .fault .blockResetWhileBusy := by
  have hstep : step (s.present .blockReset) = .fault .blockResetWhileBusy := step_blockReset_busy rfl hbusy
  rw [run, hstep]

/-- A run that goes on began with block reset. -/
theorem issueAll_of_run {held : HeldStates} {cmds : List HostCommand} {s : State} {r : RunState}
    (h : run held cmds s = .next r) :
    s.status.busy = false ∧ RunState.issueAll cmds { state := blockReset s, results := [], held := held } = .next r := by
  cases hbusy : s.status.busy with
  | false => exact ⟨rfl, run_of_not_busy hbusy held cmds ▸ h⟩
  | true => rw [run_of_busy hbusy] at h; cases h

/-- An event without a step stops the run with its fault. -/
theorem runState_issue_of_fault {r : RunState} {h : HostCommand} {f : Fault}
    (hstep : step (r.state.present (.command h.command h.insideWindow .whole)) = .fault f) : r.issue h = .fault f := by
  rw [RunState.issue, hstep]

/-- Commands that all have a step: the first, then the others. -/
theorem issueAll_cons_iff {h : HostCommand} {cmds : List HostCommand} {r r' : RunState} :
    RunState.issueAll (h :: cmds) r = .next r' ↔ ∃ r₁, r.issue h = .next r₁ ∧ RunState.issueAll cmds r₁ = .next r' := by
  rw [RunState.issueAll]
  cases r.issue h <;> simp

/-- One command more is that command, issued where the others led. -/
theorem issueAll_concat {cmds : List HostCommand} {r r' : RunState} (hrun : RunState.issueAll cmds r = .next r')
    (h : HostCommand) : RunState.issueAll (cmds ++ [h]) r = r'.issue h := by
  induction cmds generalizing r with
  | nil =>
    obtain rfl := Host.Outcome.next.inj hrun
    simp only [List.nil_append, RunState.issueAll]
    cases r.issue h <;> rfl
  | cons x cmds ih =>
    obtain ⟨r₁, hx, hcmds⟩ := issueAll_cons_iff.mp hrun
    rw [List.cons_append, RunState.issueAll, hx]
    exact ih hcmds

theorem run_concat {held : HeldStates} {cmds : List HostCommand} {s : State} {r : RunState}
    (hrun : run held cmds s = .next r) (h : HostCommand) : run held (cmds ++ [h]) s = r.issue h := by
  obtain ⟨hbusy, hall⟩ := issueAll_of_run hrun
  rw [run_of_not_busy hbusy, issueAll_concat hall]

/-- A command of a run that goes on was given to a clean block, has completed, and leaves the block clean exactly if it decodes
(60_exceptions.md R200, R204). -/
theorem step_present_whole {s t : State} {c : Command} {w : Bool}
    (hstep : step (s.present (.command c w .whole)) = .next t) :
    s.status.faulted = false ∧ t.status.busy = false ∧ (t.status.faulted = false ↔ ∃ i, decode c = .ok i) := by
  rcases step_cases hstep with ⟨-, hin | ⟨x, rest, hin, hheld⟩⟩ | ⟨c', w', p, rest, hin, ⟨-, hclean, -⟩, hcommand⟩ |
    ⟨rest, hin, -⟩ | ⟨f, rest, v, hin, -⟩ | ⟨f, rest, hin, -⟩ <;> cases hin
  · cases hheld
  · refine ⟨hclean, ?_⟩
    rcases hcommand with ⟨e, hdecode, rfl⟩ | ⟨i, hdecode, hexec⟩
    · exact ⟨rfl, by simp [raiseFault, hdecode]⟩
    · obtain ⟨t', ht', hbusy, -, hfaulted, -⟩ := noFaultAfterDecode i { s.present (.command c w .whole) with inbox := s.inbox }
      obtain rfl := Host.Outcome.next.inj (hexec.symm.trans ht')
      exact ⟨hbusy, fun _ => ⟨i, hdecode⟩, fun _ => hfaulted.trans hclean⟩

/-- The commands issued one after the other: each has completed with one record of results, and the block is clean after them exactly if it was and
all decode. -/
theorem issueAll_ends {cmds : List HostCommand} {r r' : RunState} (h : RunState.issueAll cmds r = .next r') (hend : r.Ended) :
    r'.Ended ∧ r'.results.length = r.results.length + cmds.length ∧
      (r'.Clean ↔ r.Clean ∧ ∀ x ∈ cmds, ∃ i, decode x.command = .ok i) := by
  induction cmds generalizing r with
  | nil =>
    obtain rfl := Host.Outcome.next.inj h
    exact ⟨hend, rfl, by simp⟩
  | cons x cmds ih =>
    obtain ⟨r₁, hx, hcmds⟩ := issueAll_cons_iff.mp h
    obtain ⟨t, hstep, rfl⟩ := issue_next_iff.mp hx
    obtain ⟨hclean, hbusy, hdecodes⟩ := step_present_whole hstep
    obtain ⟨hend', hlen, hiff⟩ := ih hcmds hbusy
    refine ⟨hend', ?_, ?_⟩
    · rw [hlen, advance_results, List.length_append, List.length_singleton, List.length_cons, Nat.add_assoc, Nat.add_comm 1]
    · rw [hiff, RunState.Clean, advance_state, hdecodes, List.forall_mem_cons, and_iff_right (show r.Clean from hclean)]

/-- Settles O13: the inputs without a step by `admission` and by block reset's guard; a run by what it does command by command (`issueAll_ends`,
`run_concat`). -/
theorem eventsWithoutAStep : Obligations.EventsWithoutAStep := by
  refine ⟨fun s rest => ⟨fun c w p hin => ⟨fun hbusy => ?_, fun hbusy hfaulted => ?_, fun hbusy hfaulted hw hnest => ?_⟩,
    step_blockReset_busy⟩, fun held s => ⟨fun hbusy => run_of_not_busy hbusy held [], fun cmds r hrun => ?_⟩⟩
  · exact step_not_admitted hin (admission_of_busy w hbusy)
  · exact step_not_admitted hin (admission_of_faulted w hbusy hfaulted)
  · subst hw
    exact step_not_admitted hin (admission_insideWindow hbusy hfaulted hnest)
  · obtain ⟨-, hall⟩ := issueAll_of_run hrun
    obtain ⟨hend, hlen, hclean⟩ := issueAll_ends hall rfl
    refine ⟨hend, hlen.trans (Nat.zero_add _), hclean.trans (and_iff_right rfl), rfl, fun h => ⟨fun t ht => ?_, fun f hf => ?_⟩⟩
    · rw [run_concat hrun]
      exact issue_next_iff.mpr ⟨t, ht, rfl⟩
    · rw [run_concat hrun]
      exact runState_issue_of_fault hf

/-! ### The windows of a command (70_reset_and_hazards.md R240) -/

/-- Settles O53: the slots of a command close their windows (`windowScan_busEvents`), and POWER and DEPOWER open none. -/
theorem everyCommandClosesItsWindows : Obligations.EveryCommandClosesItsWindows := by
  intro i s t hexec
  rcases exec_cases hexec with ⟨slots, res, env, -, rfl⟩ | ⟨-, rfl⟩ | ⟨-, rfl⟩
  · refine ⟨⟨busEvents s.cfg s.mode slots, rfl, ?_⟩, fun hcs => ?_⟩
    · rw [windowsBalanced, windowScan_busEvents]; rfl
    · show inCsAfter s.inCs slots = false
      rw [hcs, inCsAfter, ite_self]
  · exact ⟨⟨_, rfl, rfl⟩, id⟩
  · exact ⟨⟨_, rfl, rfl⟩, id⟩

/-! ### The delays inside windows (70_reset_and_hazards.md R241) -/

/-- The delays of two traces in a row: those of the first, then those of the second from the window state in which the first ended. -/
theorem windowDelays_append {inside inside' : Bool} {a : List WireEvent} (h : a.foldl windowAfter (some inside) = some inside')
    (b : List WireEvent) : windowDelays inside (a ++ b) = windowDelays inside a ++ windowDelays inside' b := by
  induction a generalizing inside with
  | nil =>
    obtain rfl := Option.some.inj h
    rfl
  | cons e a ih =>
    rw [List.foldl_cons] at h
    cases e with
    | cfg | wr | rd => exact ih (by cases inside <;> exact h)
    | delay n =>
      have hrest := ih (inside := inside) (by cases inside <;> exact h)
      cases inside <;> simp [windowDelays, hrest]
    | csEnter =>
      cases inside with
      | false => exact ih h
      | true => exact absurd ((windowAfter_foldl_none a).symm.trans h) nofun
    | csExit =>
      cases inside with
      | false => exact absurd ((windowAfter_foldl_none a).symm.trans h) nofun
      | true => exact ih h

/-- Every delay requested inside a window of the trace, none open at its start, is at most `bound`. -/
def WindowDelaysLe (bound : Nat) (evs : List WireEvent) : Prop := ∀ n ∈ windowDelays false evs, n ≤ bound

/-- Traces that close their windows are judged one by one. -/
theorem WindowDelaysLe.append {bound : Nat} {a b : List WireEvent} (hclosed : windowScan a = some false)
    (ha : WindowDelaysLe bound a) (hb : WindowDelaysLe bound b) : WindowDelaysLe bound (a ++ b) := by
  rw [WindowDelaysLe, windowDelays_append hclosed]
  exact List.forall_mem_append.mpr ⟨ha, hb⟩

/-- The longest delay that a command may request inside a window (70_reset_and_hazards.md R241, 40_transport.md R112). -/
def windowBound (t : Tcfg) : Nat := max (longestWindowDelay t) t.tRLow

/-- The delays that the three kinds of slot request inside their windows. -/
theorem le_windowBound (t : Tcfg) :
    t.tW0Low ≤ windowBound t ∧ t.tW1Low ≤ windowBound t ∧ t.tRSample - t.tRLow ≤ windowBound t ∧
      t.tPresence ≤ windowBound t ∧ t.tRLow ≤ windowBound t := by
  simp [windowBound, longestWindowDelay]

/-- The idle polls of a bus reset stand outside its window (70_reset_and_hazards.md R240). -/
theorem windowDelays_lowPolls (c : Config) (n : Nat) : windowDelays false (lowPolls c n) = [] := by
  induction n with
  | zero => rfl
  | succ n ih => exact ih

/-- A bus reset requests only the presence delay inside its window, if it opens one. -/
theorem windowDelays_reset (c : Config) (lows : Nat) (presence : Option Bit) :
    windowDelays false ((Slot.reset lows presence).events c) = if presence = none then [] else [c.t.tPresence] := by
  have hpolls : (lowPolls c lows).foldl windowAfter (some false) = some false := foldl_lowPolls rfl lows
  rw [slotEvents_reset]
  show windowDelays false (lowPolls c lows ++ _) = _
  rw [windowDelays_append hpolls, windowDelays_lowPolls, List.nil_append]
  cases presence <;> rfl

/-- A slot keeps to the bound. -/
theorem windowDelaysLe_slot (c : Config) (sl : Slot) : WindowDelaysLe (windowBound c.t) (sl.events c) := by
  obtain ⟨hw0, hw1, hsample, hpresence, hlow⟩ := le_windowBound c.t
  cases sl with
  | write v =>
    cases v with
    | false => exact List.forall_mem_singleton.mpr hw0
    | true => exact List.forall_mem_singleton.mpr hw1
  | read l => exact List.forall_mem_cons.mpr ⟨hlow, List.forall_mem_singleton.mpr hsample⟩
  | reset lows presence =>
    rw [WindowDelaysLe, windowDelays_reset]
    cases presence with
    | none => exact nofun
    | some p => exact List.forall_mem_singleton.mpr hpresence

theorem windowDelaysLe_slotEvents (c : Config) (slots : List Slot) : WindowDelaysLe (windowBound c.t) (slotEvents c slots) := by
  induction slots with
  | nil => exact nofun
  | cons sl slots ih => exact (windowDelaysLe_slot c sl).append (windowScan_slot c sl) ih

/-- The events of a command that issues slots keep to the bound. -/
theorem windowDelaysLe_busEvents (c : Config) (m : Mode) (slots : List Slot) :
    WindowDelaysLe (windowBound c.t) (busEvents c m slots) := by
  cases slots with
  | nil => exact nofun
  | cons sl slots =>
    rw [busEvents_cons]
    cases m with
    | openDrain => exact windowDelaysLe_slotEvents c _
    | unknown | driven => exact windowDelaysLe_slotEvents c (sl :: slots)

/-- Settles O54: the delays inside a command's windows are those of its slots (`windowDelaysLe_busEvents`); POWER and DEPOWER open no window. -/
theorem windowDelaysAreBounded : Obligations.WindowDelaysAreBounded := by
  refine ⟨fun i s t hexec => ?_, rfl⟩
  rcases exec_cases hexec with ⟨slots, res, env, -, rfl⟩ | ⟨-, rfl⟩ | ⟨-, rfl⟩
  · exact ⟨_, rfl, windowDelaysLe_busEvents s.cfg s.mode slots⟩
  · exact ⟨_, rfl, nofun⟩
  · exact ⟨_, rfl, nofun⟩

/-! ### How many calls a command issues (70_reset_and_hazards.md R250) -/

/-- EnsureOD's events and the slots' (40_transport.md R110). -/
theorem length_busEvents_le (c : Config) (m : Mode) (slots : List Slot) :
    (busEvents c m slots).length ≤ 2 + (slotEvents c slots).length := by
  have hensure : (ensureEvents c m).length ≤ 2 := by
    rw [(hasSize_ensureEvents c m).1]
    cases m <;> decide
  cases slots with
  | nil => exact Nat.zero_le _
  | cons sl slots =>
    rw [busEvents_cons, List.length_append]
    omega

/-- Slots of one kind, each of `n` calls. -/
theorem length_slotEvents_map {c : Config} {f : Bit → Slot} {n : Nat} (h : ∀ v, ((f v).events c).length = n) (bits : List Bit) :
    (slotEvents c (bits.map f)).length = n * bits.length := by
  simp [slotEvents, List.length_flatMap, Function.comp_def, h, Nat.mul_comm]

theorem length_slotEvents_writes (c : Config) (bits : List Bit) : (slotEvents c (bits.map .write)).length = 6 * bits.length :=
  length_slotEvents_map (length_slotEvents_write c) bits

theorem length_slotEvents_reads (c : Config) (bits : List Bit) : (slotEvents c (bits.map .read)).length = 8 * bits.length :=
  length_slotEvents_map (f := .read) (n := 8) (fun _ => rfl) bits

theorem length_slotEvents_byteSlots (c : Config) (b : Byte) : (slotEvents c (byteSlots b)).length = 48 :=
  length_slotEvents_writes c (bitsLsbFirst b)

theorem length_slotEvents_bytesSlots (c : Config) (data : List Byte) :
    (slotEvents c (bytesSlots data)).length = 48 * data.length := by
  rw [bytesSlots_eq_map, length_slotEvents_writes, length_flatMap_bitsLsbFirst, ← Nat.mul_assoc]

/-- A bus reset that ends within its polls (41_bus_control.md R135). -/
theorem ResetShape.length_le {c : Config} {lows : Nat} {presence : Option Bit} (h : ResetShape c.t lows presence) :
    ((Slot.reset lows presence).events c).length ≤ 9 + 2 * c.t.nIdlePolls := by
  rw [length_slotEvents_reset]
  rcases h with ⟨rfl, rfl⟩ | ⟨hsome, hlt⟩
  · rw [if_pos rfl]
    omega
  · rw [if_neg (Option.isSome_iff_ne_none.mp hsome)]
    omega

/-- A position's two read slots and its write slot. -/
theorem length_slotEvents_position (c : Config) (id cmp v : Bit) :
    (slotEvents c [.read id, .read cmp, .write v]).length = 22 := by
  cases v <;> rfl

/-- At most 22 calls a position of a walk (42_search.md R165). -/
theorem length_slotEvents_walkSlots_le (c : Config) (w : Walk) (pairs : List (Bit × Bit)) :
    (slotEvents c (walkSlots w pairs)).length ≤ 22 * pairs.length := by
  induction pairs generalizing w with
  | nil => exact Nat.zero_le _
  | cons pair pairs ih =>
    obtain ⟨id, cmp⟩ := pair
    have hreads : (slotEvents c [.read id, .read cmp]).length = 16 := rfl
    rw [walkSlots, List.length_cons]
    split
    · omega
    · have hrest := ih (w.next id cmp)
      have hposition := length_slotEvents_position c id cmp (directionOf w.s w.pos id cmp)
      rw [slotEvents_append, List.length_append]
      omega

/-- The calls of a command that issues slots keep to its row of the table. -/
theorem CommandEnds.length_le {c : Config} {slots : List Slot} {r : Res} {i : Instr} (h : CommandEnds c.t slots r i)
    (m : Mode) : (busEvents c m slots).length ≤ callBound c.t i := by
  have hbus := length_busEvents_le c m slots
  cases i with
  | writeBit v =>
    obtain ⟨rfl, -⟩ := h
    exact hbus.trans_eq (congrArg (2 + ·) (length_slotEvents_writes c [v]))
  | readBit =>
    obtain ⟨l, rfl, -⟩ := h
    exact hbus
  | writeByte b =>
    obtain ⟨rfl, -⟩ := h
    exact hbus.trans_eq (congrArg (2 + ·) (length_slotEvents_byteSlots c b))
  | readByte =>
    obtain ⟨ls, hlen, rfl, -⟩ := h
    rwa [length_slotEvents_reads, hlen] at hbus
  | writeBytes data =>
    obtain ⟨rfl, -⟩ := h
    cases data with
    | nil => exact Nat.zero_le _
    | cons b data =>
      rw [callBound, if_neg (List.cons_ne_nil b data), ← length_slotEvents_bytesSlots c]
      exact hbus
  | readBytes n =>
    obtain ⟨ls, hlen, rfl, -⟩ := h
    by_cases hn : n = 0
    · subst hn
      obtain rfl : ls = [] := by simpa using hlen
      exact Nat.zero_le _
    · rw [callBound, if_neg hn]
      rwa [length_slotEvents_reads, hlen, ← Nat.mul_assoc] at hbus
  | reset =>
    obtain ⟨lows, presence, hshape, rfl, -⟩ := h
    have hreset := hshape.length_le (c := c)
    rw [slotEvents_cons, slotEvents_nil, List.append_nil] at hbus
    rw [callBound]
    omega
  | select rom =>
    obtain ⟨rfl, -⟩ := h
    have hlen : (0x55 :: bytesLe rom).length = 9 := rfl
    rwa [length_slotEvents_bytesSlots, hlen] at hbus
  | skipRom =>
    obtain ⟨rfl, -⟩ := h
    exact hbus.trans_eq (congrArg (2 + ·) (length_slotEvents_byteSlots c _))
  | power | depower => exact h.elim
  | resetSearch | targetSearch | crc8 | crc16 | checkCrc16 =>
    obtain ⟨rfl, -⟩ := h
    exact Nat.zero_le _
  | search p =>
    rw [callBound]
    rcases h with ⟨-, rfl, -⟩ | ⟨-, lows, presence, hshape, ⟨-, rfl, -⟩ | ⟨-, pairs, hwalk, rfl, -⟩⟩
    · exact Nat.zero_le _
    · have hreset := hshape.length_le (c := c)
      rw [slotEvents_cons, slotEvents_nil, List.append_nil] at hbus
      omega
    · have hreset := hshape.length_le (c := c)
      have hwalk' := length_slotEvents_walkSlots_le c (Walk.start (unpackSearch p)) pairs
      have hlen := hwalk.length_le
      rw [List.cons_append] at hbus ⊢
      rw [slotEvents_cons, slotEvents_append, List.length_append, List.length_append, length_slotEvents_byteSlots] at hbus
      omega

/-- Every command keeps to its row of the table. -/
theorem exec_calls_le {i : Instr} {s t : State} {evs : List WireEvent} (hexec : exec i s = .next t)
    (htrace : t.trace = s.trace ++ evs) : evs.length ≤ callBound s.cfg.t i := by
  rcases exec_cases hexec with ⟨slots, res, env, hends, rfl⟩ | ⟨rfl, rfl⟩ | ⟨rfl, rfl⟩
  · obtain rfl : busEvents s.cfg s.mode slots = evs := List.append_cancel_left htrace
    exact hends.length_le s.mode
  · rw [← List.append_cancel_left htrace]; exact le_rfl
  · rw [← List.append_cancel_left htrace]; exact le_rfl

/-! ### A command begun at the pace of one call a step (10_state.md R21, R24) -/

/-- A command begun has issued no call, and unless it has ended already it is busy, without results and at its first call. -/
theorem start_cases (i : Instr) (s : State) :
    (start i s).trace = s.trace ∧
      (exec i s = .next (start i s) ∨
        ((start i s).status.busy = true ∧ (start i s).res = Res.empty ∧ (start i s).micro.map Micro.calls = some 0)) := by
  obtain ⟨-, -, -, -, -, htrace, -⟩ := settle_fixed (programOf s.cfg s.mode i) (accept i s)
  refine ⟨htrace, ?_⟩
  rcases settle_live _ _ (stands_accept i s) with ⟨-, hend⟩ | ⟨q, -, -, hstatus, hres, hplace, -⟩
  · exact .inl ((exec_eq i s).trans (congrArg Host.Outcome.next hend.symm))
  · have hcalls := congrArg (Option.map fun x => x.2.2.1) hplace
    rw [Option.map_map, Option.map_map] at hcalls
    exact .inr ⟨congrArg Status.busy hstatus, hres, hcalls⟩

/-- Settles O55: the engine's steps run the command to its end (`engine_runs`), and its calls keep to the table (`exec_calls_le`). -/
theorem callsAreBounded : Obligations.CallsAreBounded := by
  intro i s t hexec
  obtain rfl := Host.Outcome.next.inj ((exec_eq i s).symm.trans hexec)
  have hruns : EngineRuns (start i s) _ := engine_runs _ _ (stands_accept i s)
  obtain ⟨evs, htrace, hend, hlive⟩ := hruns
  obtain ⟨hstart, hcases⟩ := start_cases i s
  rw [hstart] at htrace
  refine ⟨evs, htrace, exec_calls_le hexec htrace, hend, fun k hk => ?_⟩
  rcases hcases with hended | ⟨hbusy, hres, hcalls⟩
  · have hnone : evs = [] := by
      rw [Host.Outcome.next.inj (hexec.symm.trans hended), hstart] at htrace
      exact List.self_eq_append_right.mp htrace
    subst hnone
    exact absurd hk (Nat.not_lt_zero k)
  · obtain ⟨hstatus', hres', htrace', hcalls'⟩ := hlive k hk
    obtain ⟨m, hm, hzero⟩ := Option.map_eq_some_iff.mp hcalls
    refine ⟨(congrArg Status.busy hstatus').trans hbusy, hres'.trans hres, htrace'.trans (congrArg (· ++ _) hstart),
      hcalls'.trans ?_⟩
    rw [hm, Option.map_some, hzero, Nat.zero_add]

/-! ### SEARCH commands that return one device without end (70_reset_and_hazards.md R247) -/

/-- The pair at a position of a walk to the ROM `a` with a discrepancy at position `e` alone, where `a` has 0. -/
def pairTowards (a : Addr) (e pos : Nat) : Bit × Bit := (romBit a pos, !romBit a pos && pos != e)

/-- A pair of zeros is at the discrepancy. -/
theorem eq_of_pairTowards {a : Addr} {e pos : Nat} (h : pairTowards a e pos = (false, false)) : pos = e := by
  obtain ⟨hbit, hcmp⟩ := Prod.mk.inj h
  simpa [hbit] using hcmp

/-- The pairs of such a walk over the 64 positions. -/
def pairsTowards (a : Addr) (e : Nat) : List (Bit × Bit) := (List.range' 1 64).map (pairTowards a e)

theorem length_pairsTowards (a : Addr) (e : Nat) : (pairsTowards a e).length = 64 := by simp [pairsTowards]

theorem pairsTowards_getElem? (a : Addr) (e : Nat) {pos : Nat} (hpos : 1 ≤ pos) (h64 : pos ≤ 64) :
    (pairsTowards a e)[pos - 1]? = some (pairTowards a e pos) := by
  rw [pairsTowards, List.getElem?_map, List.getElem?_range' (by omega), Nat.one_mul, Nat.add_sub_cancel' hpos, Option.map_some]

/-- No pair aborts the walk. -/
theorem pairsTowards_go (a : Addr) (e : Nat) : ∀ pair ∈ pairsTowards a e, (pair.1 && pair.2) = false := by
  intro pair hmem
  obtain ⟨pos, -, rfl⟩ := List.mem_map.mp hmem
  cases hbit : romBit a pos <;> simp [pairTowards, hbit]

/-- Such a walk from `a`, its index not at the discrepancy, replays there the 0 of `a` or takes a new 0 (42_search.md R152). So it leads to `a` again, and its last
zero is the discrepancy. -/
theorem walkOver_pairsTowards {ss : SearchState} {e : Nat} (hpos : 1 ≤ e) (h64 : e ≤ 64) (hzero : romBit ss.rom e = false)
    (hne : e ≠ ss.ld) :
    (walkOver (Walk.start ss) (pairsTowards ss.rom e)).s.rom = ss.rom ∧
      (walkOver (Walk.start ss) (pairsTowards ss.rom e)).lastZero = e := by
  obtain ⟨hbits, hlast, hle, hlater⟩ := completedWalkBitsAndLastZero ss (pairsTowards ss.rom e) (length_pairsTowards ..)
    fun hmem => absurd (pairsTowards_go _ _ _ hmem) nofun
  generalize walkOver (Walk.start ss) (pairsTowards ss.rom e) = w at hbits hlast hle hlater ⊢
  have hrom : ∀ pos, 1 ≤ pos → pos ≤ 64 → romBit w.s.rom pos = romBit ss.rom pos := by
    intro pos hp hp64
    rw [hbits pos _ _ hp (pairsTowards_getElem? ss.rom e hp hp64)]
    by_cases hpe : pos = e
    · subst hpe
      simp [hzero, hne]
    · simp [hpe]
  refine ⟨BitVec.eq_of_getLsbD_eq fun k hk => hrom (k + 1) (Nat.succ_pos k) hk, ?_⟩
  have hge : e ≤ w.lastZero := by
    by_contra hlt
    have hone := hlater e (Nat.lt_of_not_le hlt) (by rw [pairsTowards_getElem? _ _ hpos h64]; simp [pairTowards, hzero])
    rw [hrom e hpos h64, hzero] at hone
    cases hone
  obtain ⟨hpair, -⟩ := hlast (by omega)
  rw [pairsTowards_getElem? _ _ (hpos.trans hge) hle] at hpair
  exact eq_of_pairTowards (Option.some.inj hpair)

/-- The draws of a SEARCH that sees presence at its first poll and then walks towards `a`. -/
def drawsTowards (a : Addr) (e : Nat) (rest : List Bit) : List Bit :=
  true :: false :: (walkSamples (pairsTowards a e) ++ rest)

/-- Under such draws a SEARCH from the device `a` returns `a` again, with the discrepancy as its new index (42_search.md R155). -/
theorem exec_search_again {ss : SearchState} {e : Nat} {s : State} {rest : List Bit} (hpolls : 1 ≤ s.cfg.t.nIdlePolls)
    (hld : ss.ld < 128) (hldf : ss.ldf = false) (hfamily : familyOf ss.rom ≠ 0) (hpos : 1 ≤ e) (h64 : e ≤ 64)
    (hzero : romBit ss.rom e = false) (hne : e ≠ ss.ld) (hs : s.environment = .draws (drawsTowards ss.rom e rest)) :
    ∃ slots, exec (.search (packSearch ss)) s = .next (finished s slots
      { Res.empty with found := some true, addr := some ss.rom, ss := some (packSearch { ss with ld := e }) } (.draws rest)) := by
  have hunpack := unpackSearch_packSearch hld
  have hflag : (unpackSearch (packSearch ss)).ldf = false := by rw [hunpack, hldf]
  have hexec := searchFollowsExplicitDraws (packSearch ss) s 0 (pairsTowards ss.rom e) rest hflag hpolls
    (.inl ⟨length_pairsTowards .., pairsTowards_go _ _⟩) hs
  rw [hunpack] at hexec
  obtain ⟨hrom, hlast⟩ := walkOver_pairsTowards hpos h64 hzero hne
  have hgo : (walkOver (Walk.start ss) (pairsTowards ss.rom e)).aborted = false :=
    Bool.eq_false_iff.mpr fun habort =>
      (walkOver_aborted_iff.mp habort).elim nofun fun hmem => absurd (pairsTowards_go _ _ _ hmem) nofun
  rw [walkResult_of_found hgo (hrom.symm ▸ hfamily) ((walkOver_ldf _ _).trans hldf), hrom, hlast,
    decide_eq_false (Nat.one_le_iff_ne_zero.mp hpos), ← hldf] at hexec
  exact ⟨_, hexec⟩

/-- The discrepancy of the step from index `ld`: position 1, or position 64 from there (95_test_vectors.md V-S14). -/
def otherEnd (ld : Nat) : Nat := if ld = 1 then 64 else 1

/-- A device whose first and last bit are 0 can be returned again any number of times: each step takes one of these bits as its last zero, and the next the
other. -/
theorem enumerate_again {ss : SearchState} (hld : ss.ld < 128) (hldf : ss.ldf = false) (hfamily : familyOf ss.rom ≠ 0)
    (hfirst : romBit ss.rom 1 = false) (hlast : romBit ss.rom 64 = false) (n : Nat) :
    ∃ ahead : List Bit, ∀ s : State, s.cfg.t.Lawful → s.environment = .draws ahead →
      (enumerate n (packSearch ss) s).1 = List.replicate n ss.rom := by
  induction n generalizing ss with
  | zero => exact ⟨[], fun _ _ _ => rfl⟩
  | succ n ih =>
    obtain ⟨hpos, h64, hzero, hne⟩ : 1 ≤ otherEnd ss.ld ∧ otherEnd ss.ld ≤ 64 ∧ romBit ss.rom (otherEnd ss.ld) = false ∧
        otherEnd ss.ld ≠ ss.ld := by
      unfold otherEnd
      split <;> simp [*, eq_comm]
    obtain ⟨ahead, hahead⟩ := ih (ss := { ss with ld := otherEnd ss.ld }) (Nat.lt_of_le_of_lt h64 (by decide)) hldf hfamily hfirst hlast
    refine ⟨drawsTowards ss.rom (otherEnd ss.ld) ahead, fun s hlaw hs => ?_⟩
    obtain ⟨-, -, hpolls, -⟩ := id hlaw
    obtain ⟨slots, hexec⟩ := exec_search_again hpolls hld hldf hfamily hpos h64 hzero hne hs
    rw [enumerate_succ hexec rfl rfl, List.replicate_succ]
    exact congrArg (ss.rom :: ·) (hahead _ hlaw rfl)

/-- Settles O41: the device of 95_test_vectors.md V-S14 has 0 as its first and last bit (`enumerate_again`). -/
theorem enumerationNeedNotEnd : Obligations.EnumerationNeedNotEnd :=
  enumerate_again (ss := { rom := 0x0000000000000002, ld := 64, ldf := false }) (by decide) rfl (by decide) rfl rfl

end Sys2Proof.Machine
